-- ==== Sys2Proof/Word.lean ====
section
/-! DEFINITION. The word types of the block: bytes, 32-bit port words, 4-bit register numbers and parameter indices (R62). The
contents of a data register are a natural number (R7), whose width is a parameter of the configuration (R4). -/

namespace Sys2Proof

/-- A byte, a natural number below 256 (R7). -/
abbrev Byte := BitVec 8

/-- A value on the host port, a command word (R41, R60). -/
abbrev Word32 := BitVec 32

/-- A register field of a command word: an unsigned 4-bit number (R62). -/
abbrev RegNum := BitVec 4

/-- The parameter-index field of a command word (R60, R62). -/
abbrev ParamIdx := BitVec 4

/-- A truth value as a port word with that bit 0. -/
def bit32 (b : Bool) : Word32 := (BitVec.ofBool b).setWidth 32

/-- `bitlen(v)`: the least `n` with `v < 2^n` (R7). -/
def bitlen (v : Nat) : Nat := if v = 0 then 0 else Nat.log2 v + 1

end Sys2Proof
end

