-- ==== Sys2Proof/Syntax.lean ====
section
/-! DEFINITION. The sixteen instructions of R64, one constructor per row of spec/opcode_table.json, operands in the
assembler's order (R69). A register operand names a single register or the first of a pair or triple (R62, R66). -/

namespace Sys2Proof

/-- One command (R60 to R64). -/
inductive Instr where
  /-- MODMUL rd, ra, rb (R80) -/
  | modmul (rd ra rb : RegNum)
  /-- MODINV rd, ra (R82) -/
  | modinv (rd ra : RegNum)
  /-- LEGENDRE rd, ra (R140) -/
  | legendre (rd ra : RegNum)
  /-- SQRT rd, ra (R141) -/
  | sqrt (rd ra : RegNum)
  /-- LIFT rd, ra (R100) -/
  | lift (rd ra : RegNum)
  /-- LOWER rd, ra (R101) -/
  | lower (rd ra : RegNum)
  /-- JADD rd, ra, rb (R102) -/
  | jadd (rd ra rb : RegNum)
  /-- JDBL rd, ra (R104) -/
  | jdbl (rd ra : RegNum)
  /-- PADD rd, ra, rb (R106) -/
  | padd (rd ra rb : RegNum)
  /-- PDBL rd, ra (R107) -/
  | pdbl (rd ra : RegNum)
  /-- ONCURVE ra (R91) -/
  | oncurve (ra : RegNum)
  /-- SMUL rd, ra (R120) -/
  | smul (rd ra : RegNum)
  /-- SBMUL rd (R121) -/
  | sbmul (rd : RegNum)
  /-- COMPRESS ra (R130) -/
  | compress (ra : RegNum)
  /-- DECOMPRESS rd (R132) -/
  | decompress (rd : RegNum)
  /-- LDPARAM rd, idx (R90) -/
  | ldparam (rd : RegNum) (idx : ParamIdx)
  deriving DecidableEq, Repr

end Sys2Proof
end

