-- ==== Sys2Proof/WellFormed.lean ====
section
/-! DEFINITION. Operand ranges (R66): which register numbers a pair or triple operand may have, which parameter
indices exist. An instruction term that breaks one has no encoding and is illegal. -/

namespace Sys2Proof

/-- The first register of an affine pair is 0 to 14 (R66). -/
def pairOk (r : RegNum) : Bool := r.toNat ≤ 14

/-- The first register of a Jacobian triple is 0 to 13 (R66). -/
def tripleOk (r : RegNum) : Bool := r.toNat ≤ 13

/-- `idx` is 0 to 5 (R66). -/
def idxOk (i : ParamIdx) : Bool := i.toNat ≤ 5

/-- The table of R66; a single register may be 0 to 15, so it is never out of range. -/
def Instr.wf : Instr → Bool
  | .modmul _ _ _ => true
  | .modinv _ _ => true
  | .legendre _ _ => true
  | .sqrt _ _ => true
  | .lift rd ra => tripleOk rd && pairOk ra
  | .lower rd ra => pairOk rd && tripleOk ra
  | .jadd rd ra rb => tripleOk rd && tripleOk ra && tripleOk rb
  | .jdbl rd ra => tripleOk rd && tripleOk ra
  | .padd rd ra rb => pairOk rd && pairOk ra && pairOk rb
  | .pdbl rd ra => pairOk rd && pairOk ra
  | .oncurve ra => pairOk ra
  | .smul rd ra => pairOk rd && pairOk ra
  | .sbmul rd => pairOk rd
  | .compress ra => pairOk ra
  | .decompress rd => pairOk rd
  | .ldparam _ idx => idxOk idx

end Sys2Proof
end

