-- ==== Sys2Proof/Decode.lean ====
section
/-! DEFINITION. The command encoding (R60 to R68): the decoder, total on 32-bit words, and the encoder, both from the
spec's field positions and opcode map. -/

namespace Sys2Proof

/-- Why a word is illegal (R65 to R67). -/
inductive Illegal where
  /-- the opcode is not one of the sixteen of R64 (R63, R67) -/
  | unknownOpcode
  /-- a field the format does not use, or the `zero` field, is not 0 (R65) -/
  | unusedFieldNonzero
  /-- a register field or `idx` is above its limit (R66) -/
  | operandOutOfRange
  deriving DecidableEq, Repr

/-- The five formats of R61. -/
inductive Format where
  | f3 | f2 | f1d | f1a | fp
  deriving DecidableEq, Repr

/-- The bits a format fixes (R61). -/
def Format.mask : Format → Word32
  | .f3 => 0xFF000FFF#32
  | .f2 => 0xFF00FFFF#32
  | .f1d => 0xFF0FFFFF#32
  | .f1a => 0xFFF0FFFF#32
  | .fp => 0xFF0FF0FF#32

/-- The format of each instruction (R61, R64). -/
def Instr.format : Instr → Format
  | .modmul _ _ _ => .f3
  | .modinv _ _ => .f2
  | .legendre _ _ => .f2
  | .sqrt _ _ => .f2
  | .lift _ _ => .f2
  | .lower _ _ => .f2
  | .jadd _ _ _ => .f3
  | .jdbl _ _ => .f2
  | .padd _ _ _ => .f3
  | .pdbl _ _ => .f2
  | .oncurve _ => .f1a
  | .smul _ _ => .f2
  | .sbmul _ => .f1d
  | .compress _ => .f1a
  | .decompress _ => .f1d
  | .ldparam _ _ => .fp

/-- The opcode map (R64). -/
def Instr.opcode : Instr → Byte
  | .modmul _ _ _ => 0x01#8
  | .modinv _ _ => 0x02#8
  | .legendre _ _ => 0x03#8
  | .sqrt _ _ => 0x04#8
  | .lift _ _ => 0x10#8
  | .lower _ _ => 0x11#8
  | .jadd _ _ _ => 0x12#8
  | .jdbl _ _ => 0x13#8
  | .padd _ _ _ => 0x14#8
  | .pdbl _ _ => 0x15#8
  | .oncurve _ => 0x16#8
  | .smul _ _ => 0x20#8
  | .sbmul _ => 0x21#8
  | .compress _ => 0x30#8
  | .decompress _ => 0x31#8
  | .ldparam _ _ => 0x40#8

/-- `match = op * 2^24` (R61). -/
def Instr.matchWord (i : Instr) : Word32 := i.opcode ++ 0#24

/-- Bits 31:24 (R60). -/
def fieldOp (w : Word32) : Byte := w.extractLsb' 24 8

/-- Bits 23:20 (R60). -/
def fieldRd (w : Word32) : RegNum := w.extractLsb' 20 4

/-- Bits 19:16 (R60). -/
def fieldRa (w : Word32) : RegNum := w.extractLsb' 16 4

/-- Bits 15:12 (R60). -/
def fieldRb (w : Word32) : RegNum := w.extractLsb' 12 4

/-- Bits 11:8 (R60). -/
def fieldIdx (w : Word32) : ParamIdx := w.extractLsb' 8 4

/-- The instruction the opcode field names, with the word's fields as its operands (R62, R64). -/
def ofOpcode (w : Word32) : Option Instr :=
  match (fieldOp w).toNat with
  | 0x01 => some (.modmul (fieldRd w) (fieldRa w) (fieldRb w))
  | 0x02 => some (.modinv (fieldRd w) (fieldRa w))
  | 0x03 => some (.legendre (fieldRd w) (fieldRa w))
  | 0x04 => some (.sqrt (fieldRd w) (fieldRa w))
  | 0x10 => some (.lift (fieldRd w) (fieldRa w))
  | 0x11 => some (.lower (fieldRd w) (fieldRa w))
  | 0x12 => some (.jadd (fieldRd w) (fieldRa w) (fieldRb w))
  | 0x13 => some (.jdbl (fieldRd w) (fieldRa w))
  | 0x14 => some (.padd (fieldRd w) (fieldRa w) (fieldRb w))
  | 0x15 => some (.pdbl (fieldRd w) (fieldRa w))
  | 0x16 => some (.oncurve (fieldRa w))
  | 0x20 => some (.smul (fieldRd w) (fieldRa w))
  | 0x21 => some (.sbmul (fieldRd w))
  | 0x30 => some (.compress (fieldRa w))
  | 0x31 => some (.decompress (fieldRd w))
  | 0x40 => some (.ldparam (fieldRd w) (fieldIdx w))
  | _ => none

/-- `decode(w)` of R68: the opcode, then the fixed bits, then the operand ranges. -/
def decode (w : Word32) : Except Illegal Instr :=
  match ofOpcode w with
  | none => .error .unknownOpcode
  | some i =>
    if w &&& i.format.mask = i.matchWord then
      if i.wf then .ok i else .error .operandOutOfRange
    else .error .unusedFieldNonzero

/-- The command word of an instruction, from the field layout of R60; fields its format does not use are 0 (R65). -/
def encode (i : Instr) : Word32 :=
  match i with
  | .modmul rd ra rb => i.opcode ++ rd ++ ra ++ rb ++ 0#4 ++ 0#8
  | .modinv rd ra => i.opcode ++ rd ++ ra ++ 0#4 ++ 0#4 ++ 0#8
  | .legendre rd ra => i.opcode ++ rd ++ ra ++ 0#4 ++ 0#4 ++ 0#8
  | .sqrt rd ra => i.opcode ++ rd ++ ra ++ 0#4 ++ 0#4 ++ 0#8
  | .lift rd ra => i.opcode ++ rd ++ ra ++ 0#4 ++ 0#4 ++ 0#8
  | .lower rd ra => i.opcode ++ rd ++ ra ++ 0#4 ++ 0#4 ++ 0#8
  | .jadd rd ra rb => i.opcode ++ rd ++ ra ++ rb ++ 0#4 ++ 0#8
  | .jdbl rd ra => i.opcode ++ rd ++ ra ++ 0#4 ++ 0#4 ++ 0#8
  | .padd rd ra rb => i.opcode ++ rd ++ ra ++ rb ++ 0#4 ++ 0#8
  | .pdbl rd ra => i.opcode ++ rd ++ ra ++ 0#4 ++ 0#4 ++ 0#8
  | .oncurve ra => i.opcode ++ 0#4 ++ ra ++ 0#4 ++ 0#4 ++ 0#8
  | .smul rd ra => i.opcode ++ rd ++ ra ++ 0#4 ++ 0#4 ++ 0#8
  | .sbmul rd => i.opcode ++ rd ++ 0#4 ++ 0#4 ++ 0#4 ++ 0#8
  | .compress ra => i.opcode ++ 0#4 ++ ra ++ 0#4 ++ 0#4 ++ 0#8
  | .decompress rd => i.opcode ++ rd ++ 0#4 ++ 0#4 ++ 0#4 ++ 0#8
  | .ldparam rd idx => i.opcode ++ rd ++ 0#4 ++ 0#4 ++ idx ++ 0#8

/-- The instruction the decoder reads from a table word of `nbits` bits, the bits above them 0. -/
def decodeTableWord (nbits w : Nat) : Option Instr :=
  match decode (BitVec.ofNat 32 (w % 2 ^ nbits)) with
  | .ok i => some i
  | .error _ => none

end Sys2Proof
end

