-- ==== Sys2Proof/Config.lean ====
section
/-! DEFINITION. What an implementation fixes, as the configuration record of R4 (R5, R6, R28), and the free values the spec
leaves open (U3, U10). Every rule takes the widths, the sizes, the bus address and the parameter sets from the machine's
configuration, so a model can be run on other values than those of this hardware (R6, D36). -/

namespace Sys2Proof

/-- A parameter set `(P, N, B, Gx, Gy, BitSize)` (R5). -/
structure CurveParams where
  /-- prime modulus -/
  P : Nat
  /-- order of the base point -/
  N : Nat
  /-- curve coefficient of `y² = x³ + B` -/
  B : Nat
  /-- base point, first coordinate -/
  Gx : Nat
  /-- base point, second coordinate -/
  Gy : Nat
  /-- bit length of `P` -/
  bitSize : Nat
  deriving DecidableEq, Repr

/-- The configuration record (R4). `NCURVE` is 2, because one bit of `CTRL` selects the set (R24, R28). -/
structure Config where
  /-- width in bits of every data register -/
  W : Nat
  /-- number of data registers -/
  NREG : Nat
  /-- size in bytes of the byte buffer -/
  BUFSZ : Nat
  /-- bus address of the host window -/
  BASE : Nat
  /-- the set `CTRL.CURVE = 0` selects -/
  set0 : CurveParams
  /-- the set `CTRL.CURVE = 1` selects -/
  set1 : CurveParams
  deriving DecidableEq, Repr

/-- `CURVES[0..NCURVE-1]` (R4). -/
def Config.curves (cfg : Config) : List CurveParams := [cfg.set0, cfg.set1]

/-- `NCURVE` (R4). -/
def Config.NCURVE (cfg : Config) : Nat := cfg.curves.length

/-- S112. PRESUMED (log 1): `P` and `N` are the values R5 recommends from outside the source. -/
def s112 : CurveParams :=
  { P := 0xFFFFFFFFFFFFFFFFFFFFFFFFFDE7, N := 0x0100000000000001ECEA551AD837E9
    B := 3, Gx := 1, Gy := 2, bitSize := 112 }

/-- S160. PRESUMED (log 1): `P` and `N` are the values R5 recommends from outside the source. -/
def s160 : CurveParams :=
  { P := 0xFFFFFFFFFFFFFFFFFFFFFFFFFFFFFFFFFFFC808F, N := 0x0100000000000000000001CDC98AE0E2DE574ABF33
    B := 3, Gx := 1, Gy := 2, bitSize := 160 }

/-- The configuration of this hardware: the value column of R4, S112 in slot 0, S160 in slot 1 (R5, R24). DESIGN CHOICE (log 20):
`BASE`, which R4 leaves to the platform, is 0. -/
def Config.hardware : Config := { W := 192, NREG := 16, BUFSZ := 64, BASE := 0, set0 := s112, set1 := s160 }

/-- `byte_len(BitSize) = ceil(BitSize / 8)` (R11). -/
def byteLen (bitSize : Nat) : Nat := (bitSize + 7) / 8

/-- The curve `y² = x³ + B` over the integers modulo `p` (R5, R92). -/
def curveMod (p B : Nat) : WeierstrassCurve.Affine (ZMod p) :=
  { a₁ := 0, a₂ := 0, a₃ := 0, a₄ := 0, a₆ := (B : ZMod p) }

/-- `N` is the order of `(Gx, Gy)` in the curve group of a prime `P` (R6). -/
def CurveParams.OrderIsN (c : CurveParams) : Prop :=
  ∃ (_ : Fact (Nat.Prime c.P)) (h : (curveMod c.P c.B).Nonsingular (c.Gx : ZMod c.P) (c.Gy : ZMod c.P)),
    addOrderOf (WeierstrassCurve.Affine.Point.some (W' := curveMod c.P c.B) (c.Gx : ZMod c.P) (c.Gy : ZMod c.P) h) = c.N

/-- The invariants of a parameter set (R6): premises of the rules, which no operation checks. `P = 2` is left out (R6: every rule
but R142 is stated for odd `P`). -/
def CurveParams.wf (c : CurveParams) : Prop :=
  Nat.Prime c.P ∧ c.P ≠ 2 ∧ c.B < c.P ∧ c.Gx < c.P ∧ c.Gy < c.P ∧
    c.Gy * c.Gy % c.P = (c.Gx * c.Gx * c.Gx + c.B) % c.P ∧ c.bitSize = bitlen c.P ∧ c.OrderIsN

/-- What R4 asks of a parameter set for registers of `w` bits. -/
def CurveParams.Fits (c : CurveParams) (w : Nat) : Prop := 8 * byteLen c.bitSize ≤ w ∧ c.P < 2 ^ w ∧ c.N < 2 ^ w

/-- What R4 asks of the width and the buffer size; `0 < W` is what its `2^W > P` asks of the width for a prime `P` (R6). -/
def Config.SizesOk (cfg : Config) : Prop :=
  0 < cfg.W ∧ cfg.W % 32 = 0 ∧ cfg.BUFSZ % 4 = 0 ∧ 1 + cfg.W / 8 ≤ cfg.BUFSZ ∧ cfg.BUFSZ ≤ 255

/-- What the encoding and the address map ask beyond R4: four bits name each register and R66 counts to 15; a register has eight
words of the window (R42, R43). DEDUCED (log 21). -/
def Config.Addressable (cfg : Config) : Prop := cfg.NREG = 16 ∧ cfg.W ≤ 256

/-- The configuration meets R4, R6 and what the address map asks. -/
def Config.wf (cfg : Config) : Prop :=
  cfg.SizesOk ∧ cfg.Addressable ∧ ∀ c ∈ cfg.curves, c.Fits cfg.W ∧ c.wf

/-- What the block holds while a command runs: all that a free value may depend on beside its number (U3, R188). -/
structure Held where
  /-- the command word -/
  cmd : Word32
  /-- the selected parameter set -/
  set : CurveParams
  /-- the data registers -/
  x : List Nat
  /-- the buffer -/
  buf : List Host.Cell
  /-- `LEN` -/
  len : Byte
  deriving DecidableEq, Repr

/-- FREE VALUE (U3, R50, R186; log 5): what the `n`-th unspecified read returns, at the offset `off` and over the
contents `h`. -/
opaque Config.busyRead (n off : Nat) (h : Held) : Word32

/-- FREE VALUE (U10, R188; log 4): how many host actions land before a command that is accepted as free value number
`n`, with the contents `h`, ends. Equal commands promise no equal numbers, because `n` differs, and the number may depend
on the command and on the data, as R188 leaves it. -/
opaque Config.busyAccesses (n : Nat) (h : Held) : Nat

end Sys2Proof
end

