-- ==== Sys2Proof/Machine/State.lean ====
section
/-! DEFINITION. The state of the block as plain data (10_state.md), the causes of an architectural fault (R160), the host's
actions (R41, R181), and the state after reset (R32). -/

namespace Sys2Proof.Machine

/-- `CTRL` (R24). Its reserved bits have no storage. -/
structure Ctrl where
  /-- parameter set select: false is S112, true is S160 -/
  curve : Bool
  /-- interrupt enable -/
  ie : Bool
  deriving DecidableEq, Repr

/-- `STATUS` (R25), with the result flags of R23. Its reserved bits have no storage. -/
structure Status where
  /-- a command is in execution -/
  busy : Bool
  /-- a command has ended -/
  done : Bool
  /-- a command has faulted and the host has not acknowledged it -/
  err : Bool
  /-- the result is the point at infinity -/
  inf : Bool
  /-- the operand has no square root -/
  noroot : Bool
  /-- the value of `IsOnCurve` -/
  oncurve : Bool
  /-- the header byte was 0x04 -/
  uncomp : Bool
  /-- the Legendre symbol, 2-bit two's complement -/
  leg : BitVec 2
  /-- code of the fault that set `ERR` -/
  errcode : BitVec 4
  deriving DecidableEq, Repr

/-- The causes of an architectural fault (R160). A fault is a state change (R161), so a command that raises one still
answers a next state. -/
inductive Cause where
  /-- E_ILLEGAL: the command word is no legal encoding -/
  | illegal
  /-- E_NOT_INVERTIBLE: an inverse of a value not coprime to `P` was asked for -/
  | notInvertible
  /-- E_INVALID_HEADER: first byte of a compressed point unknown, or no byte -/
  | invalidHeader
  /-- E_LENGTH_MISMATCH: a compressed point of the wrong length -/
  | lengthMismatch
  /-- E_NOT_ON_CURVE: the recovered x has no y -/
  | notOnCurve
  /-- E_BUFLEN: `LEN > BUFSZ` when the buffer is to be read -/
  | bufLen
  /-- E_INTERNAL: Tonelli-Shanks found no non-residue or no exponent; only for a `P` that is not prime -/
  | internal
  deriving DecidableEq, Repr

/-- One action of the host (R41, R181, R183). `bits` is the access width, `addr` the bus address, `BASE` plus an offset. -/
inductive HostAction where
  /-- a read of the window -/
  | read (bits addr : Nat)
  /-- a write to the window -/
  | write (bits addr : Nat) (v : Word32)
  /-- the reset input is asserted and released -/
  | reset
  /-- the host makes no access until `BUSY = 0` (log 9) -/
  | wait
  deriving DecidableEq, Repr

/-- What the host port answered to an access (log 8). -/
inductive HostReply where
  /-- the value a read returned -/
  | data (v : Word32)
  /-- a write was presented; a dropped write is silent (R186) -/
  | ack
  /-- the access is none the port accepts and had no effect (R46, U4; log 7) -/
  | refused
  deriving DecidableEq, Repr

/-- The contents of `BUF` as (index, byte) pairs in canonical form: indices rising, no byte that an unlisted index reads as. -/
abbrev Memory := List Host.Cell

/-- The whole machine. The fields after `cmd` are the model's own. -/
structure State where
  /-- data registers `x[0]` to `x[NREG-1]`, each a natural number below `2^W` (R7, R20) -/
  x : List Nat
  /-- byte buffer `BUF[0]` to `BUF[BUFSZ-1]` (R29) -/
  buf : Memory
  /-- `LEN` bits 7:0 (R27) -/
  len : Byte
  /-- `CTRL` (R24) -/
  ctrl : Ctrl
  /-- `STATUS` (R25) -/
  status : Status
  /-- `CMD`, the last accepted command word (R26) -/
  cmd : Word32
  /-- the configuration the machine runs with; no step writes it (R28; log 2) -/
  cfg : Config
  /-- the host's pending actions, first to act first (R48; log 3) -/
  host : List HostAction
  /-- how many more host actions land before the running command ends (R188; log 4) -/
  busyLeft : Nat
  /-- number of the next free value (log 5) -/
  fresh : Nat
  /-- the host port's last answer (log 8) -/
  reply : Option HostReply
  deriving DecidableEq, Repr

/-- Stops with a fault. -/
inductive Fault where
  /-- raised by `MemRead` and `MemWrite` on a byte beyond the end of `BUF` (R12: both require `j + n <= BUFSZ`); safe, and
  no step from a state that meets `State.Inv` reaches it (R4: `BUFSZ >= 1 + W/8`; R55: the bounds are checked before) -/
  | outsideBuf
  deriving DecidableEq, Repr

/-- Stops without a meaning. -/
inductive Refusal where
  /-- raised by an arm of `exec` that has no meaning yet; safe -/
  | notModelled (mnemonic : String)
  deriving DecidableEq, Repr

/-- `STATUS = 0`. -/
def Status.zero : Status :=
  { busy := false, done := false, err := false, inf := false, noroot := false, oncurve := false
    uncomp := false, leg := 0, errcode := 0 }

/-- A machine of the configuration `cfg` right after reset: every piece of the spec's state is zero (R32); the model's own
fields at the values of logs 3, 4, 5 and 8. -/
def State.resetOf (cfg : Config) : State :=
  { x := List.replicate cfg.NREG 0
    buf := []
    len := 0
    ctrl := { curve := false, ie := false }
    status := Status.zero
    cmd := 0
    cfg := cfg
    host := []
    busyLeft := 0
    fresh := 0
    reply := none }

/-- This hardware right after reset (R4, R32; logs 1, 20). -/
def State.reset : State := State.resetOf Config.hardware

end Sys2Proof.Machine
end

