-- ==== Sys2Proof/Machine/Ops.lean ====
section
/-! DEFINITION. The named operations over the buffer, the data registers and `STATUS`: reading and writing them (R12, R55), the
acceptance and the end of a command (R165), taking an exception (R161) and returning from one (R167). -/

namespace Sys2Proof.Machine

/-- The outcome of a step of this machine. -/
abbrev Result := Host.Outcome State Fault Refusal

/-- The byte an index that is not listed reads as: `BUF` is 0x00 after reset (R32; log 12). -/
def Memory.blank : Byte := 0

/-- `BUF[a]`. -/
def Memory.byteAt : Memory → Nat → Byte
  | [], _ => Memory.blank
  | (k, b) :: rest, a => if a = k then b else Memory.byteAt rest a

/-- Put a byte, not listed so far, at its place in the rising order. -/
def Memory.insert : Memory → Nat → Byte → Memory
  | [], a, b => [(a, b)]
  | (k, c) :: rest, a, b => if a < k then (a, b) :: (k, c) :: rest else (k, c) :: Memory.insert rest a b

/-- `BUF[a] <- b`, keeping the canonical form: a byte equal to `Memory.blank` is not listed. -/
def Memory.set (m : Memory) (a : Nat) (b : Byte) : Memory :=
  let others := m.filter fun cell => cell.1 != a
  if b = Memory.blank then others else Memory.insert others a b

/-- The bytes `s[0], s[1], …` put at `a`, `a + 1`, … -/
def Memory.setBytes : Memory → Nat → List Byte → Memory
  | m, _, [] => m
  | m, a, b :: bs => Memory.setBytes (Memory.set m a b) (a + 1) bs

/-- Indices strictly rising from `lo` on, all below `size`, no listed byte blank. -/
def Memory.canonicalFrom (size : Nat) : Nat → Memory → Bool
  | _, [] => true
  | lo, (k, b) :: rest =>
    decide (lo ≤ k) && decide (k < size) && decide (b ≠ Memory.blank) && Memory.canonicalFrom size (k + 1) rest

/-- The canonical form of a buffer of `size` bytes. -/
def Memory.wf (m : Memory) (size : Nat) : Bool := Memory.canonicalFrom size 0 m

/-- `MemRead(BUF, j, n)` of a buffer of `size` bytes (R12); none where it would leave `BUF`. -/
def Memory.readBytes (m : Memory) (size j n : Nat) : Option (List Byte) :=
  if j + n ≤ size then some ((List.range n).map fun k => Memory.byteAt m (j + k)) else none

/-- `MemWrite(BUF, j, s)` of a buffer of `size` bytes (R12); none where it would leave `BUF`. -/
def Memory.writeBytes (m : Memory) (size j : Nat) (bs : List Byte) : Option Memory :=
  if j + bs.length ≤ size then some (Memory.setBytes m j bs) else none

/-- The parameter set `CTRL.CURVE` selects (R24, R165). `CTRL` cannot change while a command runs (R186, D36), so this is
the set sampled at acceptance. -/
def State.params (s : State) : CurveParams := if s.ctrl.curve then s.cfg.set1 else s.cfg.set0

/-- The modulus of the selected set (R8). -/
def State.P (s : State) : Nat := s.params.P

/-- What the block holds beside `STATUS` and the fields of the model (logs 4, 5). -/
def State.held (s : State) : Held := { cmd := s.cmd, set := s.params, x := s.x, buf := s.buf, len := s.len }

/-- `x[i]` (R12). No register but 0 to `NREG - 1` exists; a legal command names no other (R66). -/
def State.reg (s : State) (i : Nat) : Nat := s.x[i]?.getD 0

/-- `x[i] <- v` for `v < 2^W` (R12); a register keeps `W` bits (log 11). -/
def State.setReg (s : State) (i v : Nat) : State := { s with x := s.x.set i (v % 2 ^ s.cfg.W) }

/-- `LEN <- n` (R27). -/
def State.setLen (s : State) (n : Nat) : State := { s with len := BitVec.ofNat 8 n }

/-- `BUF` replaced by `m`. -/
def State.setBuf (s : State) (m : Memory) : State := { s with buf := m }

/-- The code of a cause (R160). -/
def Cause.code : Cause → BitVec 4
  | .illegal => 1
  | .notInvertible => 2
  | .invalidHeader => 3
  | .lengthMismatch => 4
  | .notOnCurve => 5
  | .bufLen => 6
  | .internal => 7

/-- Acceptance of the command word `w` (R165): `CMD`, `BUSY`, `DONE` and the five result flags; how long the command will be
busy is a free value (R188; log 4). -/
def State.accept (s : State) (w : Word32) : State :=
  { s with
    cmd := w
    status :=
      { s.status with
        busy := true, done := false, inf := false, noroot := false, oncurve := false, uncomp := false, leg := 0 }
    busyLeft := Config.busyAccesses s.fresh { s.held with cmd := w }
    fresh := s.fresh + 1 }

/-- The end of a command by completion (R165). -/
def State.complete (s : State) : State := { s with status := { s.status with busy := false, done := true } }

/-- TAKING AN EXCEPTION (R161): `ERR`, `ERRCODE`, `BUSY`, `DONE`; nothing else changes. -/
def State.raise (s : State) (c : Cause) : State :=
  { s with status := { s.status with err := true, errcode := c.code, busy := false, done := true } }

/-- RETURNING FROM ONE (R167): a host write of `v` to `STATUS` while idle. Bit 1 clears `DONE`; bit 2 clears `ERR` and
`ERRCODE`; every other bit is ignored. -/
def State.acknowledge (s : State) (v : Word32) : State :=
  { s with
    status :=
      { s.status with
        done := s.status.done && !v.getLsbD 1
        err := s.status.err && !v.getLsbD 2
        errcode := if v.getLsbD 2 then 0 else s.status.errcode } }

/-- The interrupt output (R168). -/
def State.irq (s : State) : Bool := s.ctrl.ie && s.status.done

/-- What the fetch finds: the instruction of the word in `CMD` (R22, R26, R53). -/
def State.fetch (s : State) : Except Illegal Instr := decode s.cmd

/-- A command ends with the state `t` its rule gives, or with the fault its rule raises (R161, R165). On a fault the state it
would have written is dropped, so a fault is precise (R164). -/
def State.conclude (s : State) (r : Except Cause State) : Result :=
  match r with
  | .ok t => .next t.complete
  | .error c => .next (s.raise c)

/-- A command whose operand is out of range is illegal before it reads or writes anything (R66, R67; log 10). -/
def State.legally (s : State) (ok : Bool) (body : Result) : Result :=
  if ok then body else .next (s.raise .illegal)

/-- A command that reads `BUF[0..LEN-1]`: `E_BUFLEN` when `LEN > BUFSZ`, else its rule on the byte string (R55, R163). -/
def State.withBuf (s : State) (body : List Byte → Result) : Result :=
  if s.len.toNat > s.cfg.BUFSZ then .next (s.raise .bufLen)
  else
    match s.buf.readBytes s.cfg.BUFSZ 0 s.len.toNat with
    | some k => body k
    | none => .fault .outsideBuf

end Sys2Proof.Machine
end

