-- ==== Sys2Proof/Machine/Arith.lean ====
section
/-! DEFINITION. The arithmetic every rule is written in: field primitives (R8), exponentiation (R9), inverse (R10), byte strings
(R11). All values are natural numbers; only `mod P` wraps (R83). -/

namespace Sys2Proof.Machine

/-- `mulP(a, b) = (a * b) mod P` (R8). -/
def mulP (P a b : Nat) : Nat := a * b % P

/-- `addP(a, b) = (a + b) mod P` (R8). -/
def addP (P a b : Nat) : Nat := (a + b) % P

/-- `subP(a, b) = (a - b) mod P` on the integer `a - b` (R8, R7). -/
def subP (P a b : Nat) : Nat := (((a : Int) - b) % P).toNat

/-- `dblP(a) = addP(a, a)` (R8). -/
def dblP (P a : Nat) : Nat := addP P a a

/-- Square-and-multiply: `acc * a^e mod P`, one bit of `e` a round. How a power is computed is not observable (R9). -/
def powLoop (P : Nat) : Nat → Nat → Nat → Nat → Nat
  | 0, _, _, acc => acc
  | fuel + 1, a, e, acc =>
    if e = 0 then acc
    else powLoop P fuel (mulP P a a) (e / 2) (if e % 2 = 1 then mulP P acc a else acc)

/-- `expP(a, e) = a^e mod P`, with `expP(a, 0) = 1 mod P` (R9). -/
def expP (P a e : Nat) : Nat := powLoop P e (a % P) e (1 % P)

/-- Euclid's algorithm on `(r0, r1)` carrying `t0, t1` with `r ≡ t * v (mod P)`; answers the last `t0`. How an inverse is
computed is not observable (R10). -/
def euclid : Nat → Nat → Nat → Int → Int → Int
  | 0, _, _, t0, _ => t0
  | fuel + 1, r0, r1, t0, t1 =>
    if r1 = 0 then t0 else euclid fuel r1 (r0 % r1) t1 (t0 - (r0 / r1 : Nat) * t1)

/-- `invP(a)` (R10): raises `NotInvertible` when `gcd(a mod P, P) ≠ 1`, else the unique `u` in `[0, P)` with
`mulP(u, a mod P) = 1 mod P`. -/
def invP (P a : Nat) : Except Cause Nat :=
  if Nat.gcd (a % P) P ≠ 1 then .error .notInvertible
  else .ok ((euclid (P + 1) P (a % P) 0 1) % (P : Int)).toNat

/-- `be_int(s)`: the big-endian value of a byte string (R11). -/
def beInt (s : List Byte) : Nat := s.foldl (fun acc b => acc * 256 + b.toNat) 0

/-- The base-256 digits of `v`, most significant first, in front of `tail`. -/
def beDigits : Nat → Nat → List Byte → List Byte
  | 0, _, tail => tail
  | fuel + 1, v, tail => if v = 0 then tail else beDigits fuel (v / 256) (BitVec.ofNat 8 v :: tail)

/-- `be_min_bytes(v)`: the shortest byte string with value `v` (R11). -/
def beMinBytes (v : Nat) : List Byte := beDigits v v []

/-- The bits of a byte, bit 7 first (R120). -/
def byteBits (b : Byte) : List Bool := [7, 6, 5, 4, 3, 2, 1, 0].map fun i => b.getLsbD i

/-- The bits of a byte string in the order the scalar is scanned (R120). -/
def scanBits (s : List Byte) : List Bool := s.flatMap byteBits

end Sys2Proof.Machine
end

