-- ==== Sys2Proof/Machine/Curve.lean ====
section
/-! DEFINITION. Point arithmetic (files 41, 42, 43): the curve predicate, the Jacobian formulas, the lowering and the scalar loop,
as functions of the modulus. -/

namespace Sys2Proof.Machine

/-- An affine pair `(px, py)` (R12). -/
structure Aff where
  px : Nat
  py : Nat
  deriving DecidableEq, Repr

/-- A Jacobian triple `(X, Y, Z)` (R12). -/
structure Jac where
  X : Nat
  Y : Nat
  Z : Nat
  deriving DecidableEq, Repr

/-- `IsOnCurve(px, py)`: `y² mod P = (x³ + B) mod P` (R91). -/
def isOnCurve (c : CurveParams) (a : Aff) : Bool :=
  mulP c.P a.py a.py == addP c.P (mulP c.P (mulP c.P a.px a.px) a.px) c.B

/-- Affine to Jacobian: `Z = 1`, coordinates copied (R100). -/
def liftPt (a : Aff) : Jac := { X := a.px, Y := a.py, Z := 1 }

/-- `Lower(X, Y, Z)` (R101). -/
def lowerPt (P : Nat) (j : Jac) : Except Cause Aff :=
  match invP P j.Z with
  | .error c => .error c
  | .ok zinv =>
    let zinv2 := mulP P zinv zinv
    let zinv3 := mulP P zinv2 zinv
    .ok { px := mulP P j.X zinv2, py := mulP P j.Y zinv3 }

/-- `JAdd` (R102): the spec's intermediates in the spec's order. PRESUMED by the spec itself (G2, D13; log 13). -/
def jadd (P : Nat) (p q : Jac) : Jac :=
  let Z1Z1 := mulP P p.Z p.Z
  let Z2Z2 := mulP P q.Z q.Z
  let U1 := mulP P p.X Z2Z2
  let U2 := mulP P q.X Z1Z1
  let H := subP P U2 U1
  let I := mulP P H H
  let J := mulP P H I
  let S1 := mulP P (mulP P p.Y q.Z) Z2Z2
  let S2 := mulP P (mulP P q.Y p.Z) Z1Z1
  let R := subP P S2 S1
  let V := mulP P U1 I
  let X3 := subP P (subP P (mulP P R R) J) (dblP P V)
  let Y3 := subP P (mulP P R (subP P V X3)) (mulP P S1 J)
  let Z3 := mulP P (mulP P p.Z q.Z) H
  { X := X3, Y := Y3, Z := Z3 }

/-- `JDbl` (R104). PRESUMED by the spec itself (G3, D14; log 13). -/
def jdbl (P : Nat) (p : Jac) : Jac :=
  let A := mulP P p.X p.X
  let Bq := mulP P p.Y p.Y
  let C := mulP P Bq Bq
  let t := addP P p.X Bq
  let D := dblP P (subP P (subP P (mulP P t t) A) C)
  let E := addP P (dblP P A) A
  let F := mulP P E E
  let X3 := subP P F (dblP P D)
  let Y3 := subP P (mulP P E (subP P D X3)) (mulP P 8 C)
  let Z3 := mulP P (dblP P p.Y) p.Z
  { X := X3, Y := Y3, Z := Z3 }

/-- D0's public Add (R106). -/
def affAdd (P : Nat) (a b : Aff) : Except Cause Aff := lowerPt P (jadd P (liftPt a) (liftPt b))

/-- D0's public Double (R107). -/
def affDbl (P : Nat) (a : Aff) : Except Cause Aff := lowerPt P (jdbl P (liftPt a))

/-- One bit of the scalar loop (R120): none is "no point yet". -/
def scalarBit (P : Nat) (base : Jac) (acc : Option Jac) (bit : Bool) : Option Jac :=
  match acc with
  | none => if bit then some base else none
  | some a =>
    let d := jdbl P a
    if bit then some (jadd P d base) else some d

/-- The scalar loop over all bits (R120). -/
def scalarLoop (P : Nat) (base : Jac) (bits : List Bool) : Option Jac := bits.foldl (scalarBit P base) none

/-- `ScalarMult(bx, by, k)` (R120): none is the point at infinity. -/
def scalarMult (P : Nat) (a : Aff) (k : List Byte) : Except Cause (Option Aff) :=
  match scalarLoop P (liftPt a) (scanBits k) with
  | none => .ok none
  | some acc => (lowerPt P acc).map some

/-- One unit operation of the scalar loop, with its operands (R120, R189). -/
inductive ScalarOp where
  /-- a JDbl of the accumulator -/
  | dbl (acc : Jac)
  /-- a JAdd of the accumulator and the base point -/
  | add (acc base : Jac)
  deriving DecidableEq, Repr

/-- The unit operations of the scalar loop from the accumulator `acc`, in the order they are performed (R120, R122, R189). -/
def scalarOps (P : Nat) (base : Jac) : Option Jac → List Bool → List ScalarOp
  | _, [] => []
  | none, bit :: rest => scalarOps P base (scalarBit P base none bit) rest
  | some a, bit :: rest =>
    .dbl a :: ((if bit then [.add (jdbl P a) base] else []) ++ scalarOps P base (scalarBit P base (some a) bit) rest)

/-- A degenerate unit operation (R122 item 1): a JAdd with `H = 0` or a JDbl with `Y1 ≡ 0 (mod P)`. -/
def ScalarOp.degenerate (P : Nat) : ScalarOp → Bool
  | .dbl a => a.Y % P == 0
  | .add a b => subP P (mulP P b.X (mulP P a.Z a.Z)) (mulP P a.X (mulP P b.Z b.Z)) == 0

end Sys2Proof.Machine
end

