-- ==== Sys2Proof/Machine/Operands.lean ====
section
/-! DEFINITION. The operand forms (R12, R21, R62): a single register, an affine pair, a Jacobian triple, a parameter index. The
first register of a pair or triple is in range for every legal command (R66). -/

namespace Sys2Proof.Machine

/-- A single-register source (R62). -/
def State.single (s : State) (r : RegNum) : Nat := s.reg r.toNat

/-- The affine pair at `r` (R12, R21). -/
def State.aff (s : State) (r : RegNum) : Aff := { px := s.reg r.toNat, py := s.reg (r.toNat + 1) }

/-- The Jacobian triple at `r` (R12, R21). -/
def State.jac (s : State) (r : RegNum) : Jac :=
  { X := s.reg r.toNat, Y := s.reg (r.toNat + 1), Z := s.reg (r.toNat + 2) }

/-- Write a single-register destination. -/
def State.setSingle (s : State) (r : RegNum) (v : Nat) : State := s.setReg r.toNat v

/-- Write the affine pair at `r`. -/
def State.setAff (s : State) (r : RegNum) (a : Aff) : State := (s.setReg r.toNat a.px).setReg (r.toNat + 1) a.py

/-- Write the Jacobian triple at `r`. -/
def State.setJac (s : State) (r : RegNum) (j : Jac) : State :=
  ((s.setReg r.toNat j.X).setReg (r.toNat + 1) j.Y).setReg (r.toNat + 2) j.Z

/-- The parameter an index names (R90); an index above 5 is illegal. -/
def paramAt (c : CurveParams) (idx : ParamIdx) : Nat :=
  match idx.toNat with
  | 0 => c.P
  | 1 => c.N
  | 2 => c.B
  | 3 => c.Gx
  | 4 => c.Gy
  | _ => c.bitSize

end Sys2Proof.Machine
end

