-- ==== Sys2Proof/Machine/Field.lean ====
section
/-! DEFINITION. The field-arithmetic family (file 40): MODMUL, MODINV. -/

namespace Sys2Proof.Machine

/-- MODMUL (R80). -/
def execModmul (rd ra rb : RegNum) (s : State) : Result :=
  s.conclude (.ok (s.setSingle rd (mulP s.P (s.single ra) (s.single rb))))

/-- MODINV (R82). -/
def execModinv (rd ra : RegNum) (s : State) : Result :=
  s.conclude ((invP s.P (s.single ra)).map fun u => s.setSingle rd u)

end Sys2Proof.Machine
end

