-- ==== Sys2Proof/Machine/Param.lean ====
section
/-! DEFINITION. The parameter family (file 41): LDPARAM. -/

namespace Sys2Proof.Machine

/-- LDPARAM (R90). -/
def execLdparam (rd : RegNum) (idx : ParamIdx) (s : State) : Result :=
  s.legally (idxOk idx) (s.conclude (.ok (s.setSingle rd (paramAt s.params idx))))

end Sys2Proof.Machine
end

