-- ==== Sys2Proof/Machine/Flags.lean ====
section
/-! DEFINITION. The result flags (R23) and the words the status and control registers read as (R24, R25). -/

namespace Sys2Proof.Machine

/-- `STATUS.INF <- b`. -/
def State.setInf (s : State) (b : Bool) : State := { s with status := { s.status with inf := b } }

/-- `STATUS.NOROOT <- b`. -/
def State.setNoroot (s : State) (b : Bool) : State := { s with status := { s.status with noroot := b } }

/-- `STATUS.ONCURVE <- b`. -/
def State.setOncurve (s : State) (b : Bool) : State := { s with status := { s.status with oncurve := b } }

/-- `STATUS.UNCOMP <- b`. -/
def State.setUncomp (s : State) (b : Bool) : State := { s with status := { s.status with uncomp := b } }

/-- `STATUS.LEG <- v`. -/
def State.setLeg (s : State) (v : BitVec 2) : State := { s with status := { s.status with leg := v } }

/-- The Legendre symbol of the Euler value `e` as a 2-bit two's-complement number (R140). -/
def legBits (e : Nat) : BitVec 2 := if e = 0 then 0b00#2 else if e = 1 then 0b01#2 else 0b11#2

/-- The word `STATUS` reads as (R25). -/
def Status.word (t : Status) : Word32 :=
  bit32 t.busy ||| (bit32 t.done <<< 1) ||| (bit32 t.err <<< 2) ||| (bit32 t.inf <<< 4) ||| (bit32 t.noroot <<< 5)
    ||| (bit32 t.oncurve <<< 6) ||| (bit32 t.uncomp <<< 7) ||| (t.leg.setWidth 32 <<< 8) ||| (t.errcode.setWidth 32 <<< 16)

/-- The word `CTRL` reads as (R24). -/
def Ctrl.word (c : Ctrl) : Word32 := bit32 c.curve ||| (bit32 c.ie <<< 1)

/-- The register a write of `v` to `CTRL` leaves: written reserved bits are ignored (R24). -/
def Ctrl.ofWord (v : Word32) : Ctrl := { curve := v.getLsbD 0, ie := v.getLsbD 1 }

end Sys2Proof.Machine
end

