-- ==== Sys2Proof/Machine/Point.lean ====
section
/-! DEFINITION. The point family (files 41, 42): LIFT, LOWER, JADD, JDBL, PADD, PDBL, ONCURVE. -/

namespace Sys2Proof.Machine

/-- LIFT (R100). -/
def execLift (rd ra : RegNum) (s : State) : Result :=
  s.legally (tripleOk rd && pairOk ra) (s.conclude (.ok (s.setJac rd (liftPt (s.aff ra)))))

/-- LOWER (R101). -/
def execLower (rd ra : RegNum) (s : State) : Result :=
  s.legally (pairOk rd && tripleOk ra) (s.conclude ((lowerPt s.P (s.jac ra)).map fun a => s.setAff rd a))

/-- JADD (R102). -/
def execJadd (rd ra rb : RegNum) (s : State) : Result :=
  s.legally (tripleOk rd && tripleOk ra && tripleOk rb) (s.conclude (.ok (s.setJac rd (jadd s.P (s.jac ra) (s.jac rb)))))

/-- JDBL (R104). -/
def execJdbl (rd ra : RegNum) (s : State) : Result :=
  s.legally (tripleOk rd && tripleOk ra) (s.conclude (.ok (s.setJac rd (jdbl s.P (s.jac ra)))))

/-- PADD (R106). -/
def execPadd (rd ra rb : RegNum) (s : State) : Result :=
  s.legally (pairOk rd && pairOk ra && pairOk rb)
    (s.conclude ((affAdd s.P (s.aff ra) (s.aff rb)).map fun a => s.setAff rd a))

/-- PDBL (R107). -/
def execPdbl (rd ra : RegNum) (s : State) : Result :=
  s.legally (pairOk rd && pairOk ra) (s.conclude ((affDbl s.P (s.aff ra)).map fun a => s.setAff rd a))

/-- ONCURVE (R91). -/
def execOncurve (ra : RegNum) (s : State) : Result :=
  s.legally (pairOk ra) (s.conclude (.ok (s.setOncurve (isOnCurve s.params (s.aff ra)))))

end Sys2Proof.Machine
end

