-- ==== Sys2Proof/Machine/Root.lean ====
section
/-! DEFINITION. The Legendre symbol and the modular square root (file 45): Euler's criterion, the fast path and
Tonelli-Shanks. -/

namespace Sys2Proof.Machine

/-- `Euler(a) = a^((P-1)/2) mod P` (R140). -/
def euler (P a : Nat) : Nat := expP P a ((P - 1) / 2)

/-- `Legendre(a)`: 0, 1 or -1 (R140). -/
def legendreSym (P a : Nat) : Int := if euler P a = 0 then 0 else if euler P a = 1 then 1 else -1

/-- `while s mod 2 = 0: s <- s div 2; e <- e + 1` (R143); answers `(s, e)`. -/
def splitTwos : Nat → Nat → Nat → Nat × Nat
  | 0, s, e => (s, e)
  | fuel + 1, s, e => if s % 2 = 0 then splitTwos fuel (s / 2) (e + 1) else (s, e)

/-- `while n < P and Legendre(n) ≠ -1: n <- n + 1` (R143). -/
def findNonResidue (P : Nat) : Nat → Nat → Nat
  | 0, n => n
  | fuel + 1, n => if n < P ∧ legendreSym P n ≠ -1 then findNonResidue P fuel (n + 1) else n

/-- The inner search of R143 from the exponent `m` and the power `t`: the least exponent whose power is 1, or `Internal` when
it is not below `tsR`. The first argument bounds the rounds; `tsR - m` of them are enough. -/
def findExponent (P tsR : Nat) : Nat → Nat → Nat → Except Cause Nat
  | 0, m, t => if t = 1 then .ok m else .error .internal
  | fuel + 1, m, t =>
    if t = 1 then .ok m
    else if m + 1 ≥ tsR then .error .internal
    else findExponent P tsR fuel (m + 1) (mulP P t t)

/-- `repeat k times: g <- mulP(g, g)` (R143). -/
def squareTimes (P : Nat) : Nat → Nat → Nat
  | 0, g => g
  | k + 1, g => squareTimes P k (mulP P g g)

/-- The outer loop of R143. Each pass returns or lowers `tsR` (R144), so `tsR + 1` rounds are enough. -/
def tonelliLoop (P : Nat) : Nat → Nat → Nat → Nat → Nat → Except Cause Nat
  | 0, _, _, _, _ => .error .internal
  | fuel + 1, tsX, tsB, tsG, tsR =>
    match findExponent P tsR tsR 0 tsB with
    | .error c => .error c
    | .ok m =>
      if m = 0 then .ok tsX
      else
        let gs := squareTimes P (tsR - m - 1) tsG
        let g2 := mulP P gs gs
        tonelliLoop P fuel (mulP P tsX gs) (mulP P tsB g2) g2 m

/-- `TonelliShanks(a0)` (R143). -/
def tonelliShanks (P a0 : Nat) : Except Cause Nat :=
  let se := splitTwos P (P - 1) 0
  let n := findNonResidue P P 2
  if n ≥ P then .error .internal
  else tonelliLoop P (se.2 + 1) (expP P a0 ((se.1 + 1) / 2)) (expP P a0 se.1) (expP P n se.1) se.2

/-- `Sqrt(a)` (R142): the root and whether one was found. -/
def sqrtP (P a : Nat) : Except Cause (Nat × Bool) :=
  let a0 := a % P
  if a0 = 0 then .ok (0, true)
  else if P = 2 then .ok (a0, true)
  else if euler P a0 ≠ 1 then .ok (0, false)
  else if P % 4 = 3 then .ok (expP P a0 ((P + 1) / 4), true)
  else (tonelliShanks P a0).map fun r => (r, true)

end Sys2Proof.Machine
end

