-- ==== Sys2Proof/Machine/Codec.lean ====
section
/-! DEFINITION. The point codec as functions on byte strings (file 44). -/

namespace Sys2Proof.Machine

/-- The byte string COMPRESS emits: the header by the parity of `py`, then the minimal big-endian bytes of `px` (R130). -/
def compressBytes (px py : Nat) : List Byte := (if py % 2 = 1 then 0x03#8 else 0x02#8) :: beMinBytes px

/-- What DECOMPRESS makes of its input (R132). -/
inductive Decompressed where
  /-- header 0x02 or 0x03: the coordinates -/
  | point (px py : Nat)
  /-- header 0x04: nothing decoded -/
  | uncompressed
  deriving DecidableEq, Repr

/-- The y of the parity the header asks for: `y <- P - y` on a mismatch (R132). -/
def matchParity (P y : Nat) (h : Byte) : Nat := if y % 2 ≠ h.toNat % 2 then P - y else y

/-- DECOMPRESS on the byte string `BUF[0..LEN-1]`: header, then length, then square root (R132, R163). -/
def decompressBytes (c : CurveParams) (s : List Byte) : Except Cause Decompressed :=
  match s with
  | [] => .error .invalidHeader
  | h :: rest =>
    if h = 0x02#8 ∨ h = 0x03#8 then
      if s.length ≠ 1 + byteLen c.bitSize then .error .lengthMismatch
      else
        let xv := beInt rest
        match sqrtP c.P (addP c.P (mulP c.P (mulP c.P xv xv) xv) c.B) with
        | .error e => .error e
        | .ok (y, found) => if found then .ok (.point xv (matchParity c.P y h)) else .error .notOnCurve
    else if h = 0x04#8 then .ok .uncompressed
    else .error .invalidHeader

end Sys2Proof.Machine
end

