-- ==== Sys2Proof/Machine/PointCodec.lean ====
section
/-! DEFINITION. The codec family (file 44): COMPRESS, DECOMPRESS. -/

namespace Sys2Proof.Machine

/-- COMPRESS (R130). The string always fits (R55), so `MemWrite` is in range. -/
def execCompress (ra : RegNum) (s : State) : Result :=
  s.legally (pairOk ra)
    (let bytes := compressBytes (s.aff ra).px (s.aff ra).py
     match s.buf.writeBytes s.cfg.BUFSZ 0 bytes with
     | some m => s.conclude (.ok ((s.setBuf m).setLen bytes.length))
     | none => .fault .outsideBuf)

/-- Write what DECOMPRESS decoded (R132). -/
def State.setDecompressed (s : State) (rd : RegNum) : Decompressed → State
  | .point px py => s.setAff rd { px := px, py := py }
  | .uncompressed => s.setUncomp true

/-- DECOMPRESS (R132). -/
def execDecompress (rd : RegNum) (s : State) : Result :=
  s.legally (pairOk rd)
    (s.withBuf fun k => s.conclude ((decompressBytes s.params k).map fun d => s.setDecompressed rd d))

end Sys2Proof.Machine
end

