-- ==== Sys2Proof/Machine/Scalar.lean ====
section
/-! DEFINITION. The scalar-multiplication family (file 43): SMUL, SBMUL. -/

namespace Sys2Proof.Machine

/-- Write a scalar multiple: the affine result with `INF = 0`, or zeros with `INF = 1` (R120). -/
def State.setMultiple (s : State) (rd : RegNum) (r : Option Aff) : State :=
  match r with
  | none => (s.setAff rd { px := 0, py := 0 }).setInf true
  | some a => (s.setAff rd a).setInf false

/-- SMUL (R120). -/
def execSmul (rd ra : RegNum) (s : State) : Result :=
  s.legally (pairOk rd && pairOk ra)
    (s.withBuf fun k => s.conclude ((scalarMult s.P (s.aff ra) k).map fun r => s.setMultiple rd r))

/-- SBMUL (R121): the base point of the selected set. -/
def execSbmul (rd : RegNum) (s : State) : Result :=
  s.legally (pairOk rd)
    (s.withBuf fun k =>
      s.conclude ((scalarMult s.P { px := s.params.Gx, py := s.params.Gy } k).map fun r => s.setMultiple rd r))

end Sys2Proof.Machine
end

