-- ==== Sys2Proof/Machine/SquareRoot.lean ====
section
/-! DEFINITION. The square-root family (file 45): LEGENDRE, SQRT. -/

namespace Sys2Proof.Machine

/-- LEGENDRE (R140): the raw Euler value to the register, the symbol to `LEG`. -/
def execLegendre (rd ra : RegNum) (s : State) : Result :=
  let e := euler s.P (s.single ra)
  s.conclude (.ok ((s.setSingle rd e).setLeg (legBits e)))

/-- SQRT (R141). -/
def execSqrt (rd ra : RegNum) (s : State) : Result :=
  s.conclude ((sqrtP s.P (s.single ra)).map fun r => (s.setSingle rd r.1).setNoroot (!r.2))

end Sys2Proof.Machine
end

