-- ==== Sys2Proof/Machine/Dispatch.lean ====
section
/-! DEFINITION. The meaning of each instruction, run from acceptance to its end (R165). -/

namespace Sys2Proof.Machine

def exec (i : Instr) (s : State) : Host.Outcome State Fault Refusal :=
  match i with
  | .modmul rd ra rb => Sys2Proof.Machine.execModmul rd ra rb s
  | .modinv rd ra => Sys2Proof.Machine.execModinv rd ra s
  | .legendre rd ra => Sys2Proof.Machine.execLegendre rd ra s
  | .sqrt rd ra => Sys2Proof.Machine.execSqrt rd ra s
  | .lift rd ra => Sys2Proof.Machine.execLift rd ra s
  | .lower rd ra => Sys2Proof.Machine.execLower rd ra s
  | .jadd rd ra rb => Sys2Proof.Machine.execJadd rd ra rb s
  | .jdbl rd ra => Sys2Proof.Machine.execJdbl rd ra s
  | .padd rd ra rb => Sys2Proof.Machine.execPadd rd ra rb s
  | .pdbl rd ra => Sys2Proof.Machine.execPdbl rd ra s
  | .oncurve ra => Sys2Proof.Machine.execOncurve ra s
  | .smul rd ra => Sys2Proof.Machine.execSmul rd ra s
  | .sbmul rd => Sys2Proof.Machine.execSbmul rd s
  | .compress ra => Sys2Proof.Machine.execCompress ra s
  | .decompress rd => Sys2Proof.Machine.execDecompress rd s
  | .ldparam rd idx => Sys2Proof.Machine.execLdparam rd idx s

end Sys2Proof.Machine
end

