-- ==== Sys2Proof/Machine/Command.lean ====
section
/-! DEFINITION. A command from its fetch to its end (R165). -/

namespace Sys2Proof.Machine

/-- Run the command in `CMD` to its end: its instruction's rule, or `E_ILLEGAL` (R165, R67). -/
def State.runCommand (s : State) : Result :=
  match s.fetch with
  | .ok i => exec i s
  | .error _ => .next (s.raise .illegal)

end Sys2Proof.Machine
end

