-- ==== Sys2Proof/Machine/HostPort.lean ====
section
/-! DEFINITION. The host port (file 20, R180 to R190): the address map, reads and writes while idle and while busy, reset. -/

namespace Sys2Proof.Machine

/-- What an offset of the window names (R42). -/
inductive Location where
  /-- offset 0x000 -/
  | ctrl
  /-- offset 0x004 -/
  | status
  /-- offset 0x008 -/
  | cmd
  /-- offset 0x00C -/
  | len
  /-- word `j` of `x[i]` -/
  | regWord (i j : Nat)
  /-- `BUF[4q .. 4q+3]` -/
  | bufWord (q : Nat)
  /-- reads 0, ignores writes -/
  | reserved
  deriving DecidableEq, Repr

/-- The address map of R42 for an aligned offset inside the window: `NREG` registers of `W/32` words each in eight word places,
`BUFSZ/4` buffer words. -/
def locate (cfg : Config) (off : Nat) : Location :=
  if off = 0x000 then .ctrl
  else if off = 0x004 then .status
  else if off = 0x008 then .cmd
  else if off = 0x00C then .len
  else if 0x100 ≤ off ∧ off < 0x100 + 0x20 * cfg.NREG then
    if (off - 0x100) % 0x20 / 4 < cfg.W / 32 then .regWord ((off - 0x100) / 0x20) ((off - 0x100) % 0x20 / 4) else .reserved
  else if 0x300 ≤ off ∧ off < 0x300 + cfg.BUFSZ then .bufWord ((off - 0x300) / 4)
  else .reserved

/-- The accesses the port accepts (R46): 32 bits, aligned, inside the window. -/
def accessOk (bits off : Nat) : Bool := bits == 32 && off % 4 == 0 && decide (off < 0x400)

/-- Bits `32j+31 : 32j` of a register (R43). -/
def wordOf (v j : Nat) : Word32 := BitVec.ofNat 32 (v / 2 ^ (32 * j))

/-- A register with bits `32j+31 : 32j` replaced by `w` and the others unchanged (R43). -/
def withWord (v j : Nat) (w : Word32) : Nat :=
  v / 2 ^ (32 * j + 32) * 2 ^ (32 * j + 32) + w.toNat * 2 ^ (32 * j) + v % 2 ^ (32 * j)

/-- The word of a register as the port reads it (R43). -/
def State.regWord (s : State) (i j : Nat) : Word32 := wordOf (s.reg i) j

/-- Replace one word of a register (R43). -/
def State.setRegWord (s : State) (i j : Nat) (w : Word32) : State :=
  { s with x := s.x.set i (withWord (s.reg i) j w) }

/-- The four bytes `BUF[4q .. 4q+3]` in little-endian lanes (R44). -/
def State.bufWord (s : State) (q : Nat) : Word32 :=
  s.buf.byteAt (4 * q + 3) ++ s.buf.byteAt (4 * q + 2) ++ s.buf.byteAt (4 * q + 1) ++ s.buf.byteAt (4 * q)

/-- Replace the four bytes of a buffer word (R44). -/
def State.setBufWord (s : State) (q : Nat) (w : Word32) : State :=
  s.setBuf
    (s.buf.setBytes (4 * q) [w.extractLsb' 0 8, w.extractLsb' 8 8, w.extractLsb' 16 8, w.extractLsb' 24 8])

/-- The value a location reads as while the core is idle (R24 to R27, R42 to R44). -/
def State.readLoc (s : State) : Location → Word32
  | .ctrl => s.ctrl.word
  | .status => s.status.word
  | .cmd => s.cmd
  | .len => s.len.setWidth 32
  | .regWord i j => s.regWord i j
  | .bufWord q => s.bufWord q
  | .reserved => 0

/-- The port's answer to an access (log 8). -/
def State.answer (s : State) (r : HostReply) : State := { s with reply := some r }

/-- An answer no rule fixes, to a read at `off`: the next free value (U3, R186; log 5). -/
def State.answerFree (s : State) (off : Nat) : State :=
  { s with reply := some (.data (Config.busyRead s.fresh off s.held)), fresh := s.fresh + 1 }

/-- Whether a location is read exactly while a command runs: `STATUS` and `CMD` (R186), and the reserved offsets, which
always read 0 (R46; DEDUCED, log 6). -/
def Location.exactWhileBusy : Location → Bool
  | .ctrl => false
  | .status => true
  | .cmd => true
  | .len => false
  | .regWord _ _ => false
  | .bufWord _ => false
  | .reserved => true

/-- `HostRead32(off)` (R41, R47, R186); an access that is none is refused without effect (R46, U4; log 7). -/
def State.hostRead (s : State) (bits off : Nat) : State :=
  if accessOk bits off then
    if s.status.busy && !(locate s.cfg off).exactWhileBusy then s.answerFree off
    else s.answer (.data (s.readLoc (locate s.cfg off)))
  else s.answer .refused

/-- A write to `CMD` while idle: accepted, or dropped while `ERR = 1` (R26, R165). -/
def State.writeCmd (s : State) (v : Word32) : State := if s.status.err then s else s.accept v

/-- The effect of a write to a location while the core is idle (R24 to R27, R42 to R44). -/
def State.writeLoc (s : State) (v : Word32) : Location → State
  | .ctrl => { s with ctrl := Ctrl.ofWord v }
  | .status => s.acknowledge v
  | .cmd => s.writeCmd v
  | .len => { s with len := v.setWidth 8 }
  | .regWord i j => s.setRegWord i j v
  | .bufWord q => s.setBufWord q v
  | .reserved => s

/-- `HostWrite32(off, v)` (R41, R47); dropped while a command runs (R186); refused without effect where it is no access
of the port (R46, U4; log 7). -/
def State.hostWrite (s : State) (bits off : Nat) (v : Word32) : State :=
  if accessOk bits off then
    if s.status.busy then s.answer .ack else (s.writeLoc v (locate s.cfg off)).answer .ack
  else s.answer .refused

/-- Reset at any time (R180, R181): every piece of the spec's state as after reset; the parameter ROM is not affected, the host
goes on with its later actions, and free values are not used twice (log 17). -/
def State.hostReset (s : State) : State :=
  { State.resetOf s.cfg with host := s.host, fresh := s.fresh }

/-- One action of the host. The window begins at `BASE` (R41); an access below it is outside, as one beyond its end is
(`accessOk`). -/
def State.hostAct (s : State) : HostAction → State
  | .read bits addr => if addr < s.cfg.BASE then s.answer .refused else s.hostRead bits (addr - s.cfg.BASE)
  | .write bits addr v => if addr < s.cfg.BASE then s.answer .refused else s.hostWrite bits (addr - s.cfg.BASE) v
  | .reset => s.hostReset
  | .wait => s

/-- Whether a host action lands before the running command ends: only while some are left (R188; log 4), and a host that
waits makes none (R183; log 9). -/
def State.hostLands (s : State) : Bool :=
  match s.host with
  | [] => false
  | .wait :: _ => false
  | _ :: _ => s.busyLeft != 0

/-- One host action taken from the pending ones. While a command runs it is one of those that land before its end. -/
def State.hostStep (s : State) : State :=
  match s.host with
  | [] => s
  | a :: rest => { s with host := rest, busyLeft := if s.status.busy then s.busyLeft - 1 else s.busyLeft }.hostAct a

end Sys2Proof.Machine
end

