-- ==== Sys2Proof/Machine/Step.lean ====
section
/-! DEFINITION. One step of the machine: while a command runs, a host action that lands before its end, else the command itself;
while the core is idle, the host's next action, or nothing (R165, R176, R186; logs 3, 4, 16). -/

namespace Sys2Proof.Machine

/-- One step. -/
def step (s : State) : Host.Outcome State Fault Refusal :=
  if s.status.busy && !s.hostLands then s.runCommand else .next s.hostStep

/-- The state with the table word `w` accepted as the next command, so that the next step runs it: the acceptance of R165, and
no host action before its end (log 3). -/
def State.withFetchWord (s : State) (nbits w : Nat) : State :=
  { s.accept (BitVec.ofNat 32 (w % 2 ^ nbits)) with busyLeft := 0 }

end Sys2Proof.Machine
end

