-- ==== Sys2Proof/Machine/Assembler.lean ====
section
/-! DEFINITION. The assembler syntax and the listing lines (R69, R70): what a line of a listing stands for as host actions, how an
instruction is written, and reading it back. Host-side: no step uses this file. -/

namespace Sys2Proof.Machine

/-- A line of a listing (R70); `.expect` states and does nothing, so it is none. -/
inductive AsmLine where
  /-- an instruction -/
  | instr (i : Instr)
  /-- the pseudo-instruction `MODSQR rd, ra` -/
  | modsqr (rd ra : RegNum)
  /-- `.curve n` -/
  | curve (n : Bool)
  /-- `.wr xi, v` -/
  | wr (i : RegNum) (v : Nat)
  /-- `.buf b0 b1 …` -/
  | buf (bytes : List Byte)
  /-- `.clrerr` -/
  | clrerr
  deriving DecidableEq, Repr

/-- Issue a command word and wait for its end (R183). -/
def State.issue (s : State) (w : Word32) : List HostAction := [.write 32 (s.cfg.BASE + 0x008) w, .wait]

/-- The buffer word `q` after the bytes `bs` are put at index 0: a host changes a byte by writing the whole word back (R44). -/
def State.mergedWord (s : State) (bs : List Byte) (q : Nat) : Word32 :=
  let lane (k : Nat) : Byte := bs[4 * q + k]?.getD (s.buf.byteAt (4 * q + k))
  lane 3 ++ lane 2 ++ lane 1 ++ lane 0

/-- The host actions a line stands for, on an idle core in the state `s` (R70). DESIGN CHOICE (log 19): the order of the writes
behind `.wr` and `.buf`, which R43 and R183 leave free, is words by rising offset, `LEN` last; `.curve` writes `IE` as it is. -/
def AsmLine.actions (s : State) : AsmLine → List HostAction
  | .instr i => s.issue (encode i)
  | .modsqr rd ra => s.issue (encode (.modmul rd ra ra))
  | .curve n => [.write 32 (s.cfg.BASE + 0x000) { s.ctrl with curve := n }.word]
  | .wr i v =>
    (List.range (s.cfg.W / 32)).map fun j => .write 32 (s.cfg.BASE + 0x100 + 0x20 * i.toNat + 4 * j) (wordOf v j)
  | .buf bs =>
    ((List.range ((bs.length + 3) / 4)).map fun q =>
        HostAction.write 32 (s.cfg.BASE + 0x300 + 4 * q) (s.mergedWord bs q)) ++
      [.write 32 (s.cfg.BASE + 0x00C) (BitVec.ofNat 32 bs.length)]
  | .clrerr => [.write 32 (s.cfg.BASE + 0x004) 0x4]

/-- The mnemonic (R64). -/
def mnemonicOf : Instr → String
  | .modmul _ _ _ => "MODMUL"
  | .modinv _ _ => "MODINV"
  | .legendre _ _ => "LEGENDRE"
  | .sqrt _ _ => "SQRT"
  | .lift _ _ => "LIFT"
  | .lower _ _ => "LOWER"
  | .jadd _ _ _ => "JADD"
  | .jdbl _ _ => "JDBL"
  | .padd _ _ _ => "PADD"
  | .pdbl _ _ => "PDBL"
  | .oncurve _ => "ONCURVE"
  | .smul _ _ => "SMUL"
  | .sbmul _ => "SBMUL"
  | .compress _ => "COMPRESS"
  | .decompress _ => "DECOMPRESS"
  | .ldparam _ _ => "LDPARAM"

/-- A number below 20 in decimal. -/
def decimal (n : Nat) : List Char := if n < 10 then [Char.ofNat (48 + n)] else ['1', Char.ofNat (38 + n)]

/-- A register operand, `x0` to `x15` (R69). -/
def asmReg (r : RegNum) : List Char := 'x' :: decimal r.toNat

/-- Operands separated by commas (R69). -/
def asmOperands : List (List Char) → List Char
  | [] => []
  | [o] => o
  | o :: rest => o ++ [',', ' '] ++ asmOperands rest

/-- The operands of an instruction in the assembler's order (R69). -/
def asmFields : Instr → List (List Char)
  | .modmul rd ra rb => [asmReg rd, asmReg ra, asmReg rb]
  | .modinv rd ra => [asmReg rd, asmReg ra]
  | .legendre rd ra => [asmReg rd, asmReg ra]
  | .sqrt rd ra => [asmReg rd, asmReg ra]
  | .lift rd ra => [asmReg rd, asmReg ra]
  | .lower rd ra => [asmReg rd, asmReg ra]
  | .jadd rd ra rb => [asmReg rd, asmReg ra, asmReg rb]
  | .jdbl rd ra => [asmReg rd, asmReg ra]
  | .padd rd ra rb => [asmReg rd, asmReg ra, asmReg rb]
  | .pdbl rd ra => [asmReg rd, asmReg ra]
  | .oncurve ra => [asmReg ra]
  | .smul rd ra => [asmReg rd, asmReg ra]
  | .sbmul rd => [asmReg rd]
  | .compress ra => [asmReg ra]
  | .decompress rd => [asmReg rd]
  | .ldparam rd idx => [asmReg rd, decimal idx.toNat]

/-- An instruction as the assembler writes it (R69). -/
def asmText (i : Instr) : List Char := (mnemonicOf i).toList ++ [' '] ++ asmOperands (asmFields i)

/-- Cut a character list at a separator. -/
def splitChars (sep : Char) : List Char → List (List Char)
  | [] => [[]]
  | c :: rest =>
    match splitChars sep rest with
    | [] => [[c]]
    | first :: more => if c = sep then [] :: first :: more else (c :: first) :: more

/-- Without the spaces. -/
def noSpaces (cs : List Char) : List Char := cs.filter (· != ' ')

/-- A register operand: one of the names `x0` to `x15`, written as `asmReg` writes it, and no other spelling (R20: there are no
aliases; R69). -/
def readReg (cs : List Char) : Option RegNum :=
  (List.range 16).findSome? fun n =>
    if cs = asmReg (BitVec.ofNat 4 n) then some (BitVec.ofNat 4 n) else none

/-- An `idx` operand: a number 0 to 5, in one digit (log 19), or a name (R69, R90). -/
def readIdx (cs : List Char) : Option ParamIdx :=
  if cs = "P".toList then some 0
  else if cs = "N".toList then some 1
  else if cs = "B".toList then some 2
  else if cs = "GX".toList then some 3
  else if cs = "GY".toList then some 4
  else if cs = "BITSIZE".toList then some 5
  else
    (List.range 6).findSome? fun n => if cs = decimal n then some (BitVec.ofNat 4 n) else none

/-- Three register operands. -/
def readThree (f : RegNum → RegNum → RegNum → Instr) (ops : List (List Char)) : Option Instr :=
  match ops with
  | [a, b, c] => (readReg a).bind fun rd => (readReg b).bind fun ra => (readReg c).map fun rb => f rd ra rb
  | _ => none

/-- Two register operands. -/
def readTwo (f : RegNum → RegNum → Instr) (ops : List (List Char)) : Option Instr :=
  match ops with
  | [a, b] => (readReg a).bind fun rd => (readReg b).map fun ra => f rd ra
  | _ => none

/-- One register operand. -/
def readOne (f : RegNum → Instr) (ops : List (List Char)) : Option Instr :=
  match ops with
  | [a] => (readReg a).map f
  | _ => none

/-- A register operand and a parameter index. -/
def readParam (ops : List (List Char)) : Option Instr :=
  match ops with
  | [a, b] => (readReg a).bind fun rd => (readIdx b).map fun idx => .ldparam rd idx
  | _ => none

/-- The instruction a line of assembler text stands for, `MODSQR` among them; mnemonics are not case-sensitive (R69, R70). -/
def assemble (line : List Char) : Option Instr :=
  let line := line.dropWhile (· == ' ')
  let name := (line.takeWhile (· != ' ')).map Char.toUpper
  let ops := splitChars ',' (noSpaces (line.dropWhile (· != ' ')))
  if name = "MODMUL".toList then readThree .modmul ops
  else if name = "MODSQR".toList then readTwo (fun rd ra => .modmul rd ra ra) ops
  else if name = "MODINV".toList then readTwo .modinv ops
  else if name = "LEGENDRE".toList then readTwo .legendre ops
  else if name = "SQRT".toList then readTwo .sqrt ops
  else if name = "LIFT".toList then readTwo .lift ops
  else if name = "LOWER".toList then readTwo .lower ops
  else if name = "JADD".toList then readThree .jadd ops
  else if name = "JDBL".toList then readTwo .jdbl ops
  else if name = "PADD".toList then readThree .padd ops
  else if name = "PDBL".toList then readTwo .pdbl ops
  else if name = "ONCURVE".toList then readOne .oncurve ops
  else if name = "SMUL".toList then readTwo .smul ops
  else if name = "SBMUL".toList then readOne .sbmul ops
  else if name = "COMPRESS".toList then readOne .compress ops
  else if name = "DECOMPRESS".toList then readOne .decompress ops
  else if name = "LDPARAM".toList then readParam ops
  else none

end Sys2Proof.Machine
end

