-- ==== Sys2Proof/Machine/Montgomery.lean ====
section
/-! DEFINITION. The realisation note of the unit `montgomery_mult` (R81): Montgomery reduction and the multiplication built from
it. Informative in the spec; no instruction uses it, and a statement says that it computes `mulP`. -/

namespace Sys2Proof.Machine

/-- `Pinv = (-P^(-1)) mod Rm` for `Rm = 2^w` (R81); 0 where `P` has no inverse modulo `Rm`. -/
def montPinv (w P : Nat) : Nat :=
  match invP (2 ^ w) P with
  | .ok u => (2 ^ w - u) % 2 ^ w
  | .error _ => 0

/-- `R2 = Rm^2 mod P` (R81). -/
def montR2 (w P : Nat) : Nat := 2 ^ w * 2 ^ w % P

/-- `REDC(T)` (R81). -/
def redc (w P T : Nat) : Nat :=
  let m := T % 2 ^ w * montPinv w P % 2 ^ w
  let t := (T + m * P) / 2 ^ w
  if t ≥ P then t - P else t

/-- `REDC(REDC(a * b) * R2)` (R81). -/
def montMul (w P a b : Nat) : Nat := redc w P (redc w P (a * b) * montR2 w P)

end Sys2Proof.Machine
end

