-- ==== Sys2Proof/Safety.lean ====
section
/-! DEFINITION. The terms claims are stated in: what an instruction leaves alone, how a command ends, the invariant
every step keeps, and the curve as a mathematical object. -/

namespace Sys2Proof.Machine

/-- The configuration meets the sizes the rules need (R4, R66), and the register file is as R20 says: `NREG` numbers
below `2^W`. -/
def State.Sized (s : State) : Prop :=
  s.cfg.SizesOk ∧ s.cfg.Addressable ∧ s.x.length = s.cfg.NREG ∧ ∀ v ∈ s.x, v < 2 ^ s.cfg.W

/-- There are as many data registers as before, and every one but those numbered in `ds` is as before. -/
def RegsKept (s t : State) (ds : List Nat) : Prop := t.x.length = s.x.length ∧ ∀ i, i ∉ ds → t.reg i = s.reg i

/-- Every byte of `BUF` from index `n` on, and of the whole of `BUF` for `n = 0`, is as before. -/
def BufKeptFrom (s t : State) (n : Nat) : Prop := ∀ a, n ≤ a → t.buf.byteAt a = s.buf.byteAt a

/-- What no instruction writes (R31): `CTRL`, `CMD`, the parameter ROM, and the model's own fields. -/
def HostSideKept (s t : State) : Prop :=
  t.ctrl = s.ctrl ∧ t.cmd = s.cmd ∧ t.cfg = s.cfg ∧ t.host = s.host ∧ t.busyLeft = s.busyLeft ∧ t.fresh = s.fresh ∧
    t.reply = s.reply

/-- `STATUS` after a command that completes and writes no flag: `BUSY = 0`, `DONE = 1`, the rest as before (R165). -/
def Status.ended (t : Status) : Status := { t with busy := false, done := true }

/-- The word `STATUS` reads as, each field at the place R25 gives it: `BUSY` in bit 0, `DONE` 1, `ERR` 2, `INF` 4,
`NOROOT` 5, `ONCURVE` 6, `UNCOMP` 7, `LEG` from bit 8 on, `ERRCODE` from bit 16 on. -/
def Status.bits (t : Status) : Nat :=
  t.busy.toNat + 2 * t.done.toNat + 2 ^ 2 * t.err.toNat + 2 ^ 4 * t.inf.toNat + 2 ^ 5 * t.noroot.toNat +
    2 ^ 6 * t.oncurve.toNat + 2 ^ 7 * t.uncomp.toNat + 2 ^ 8 * t.leg.toNat + 2 ^ 16 * t.errcode.toNat

/-- `STATUS` after a command that faults with `c` (R161). -/
def Status.faulted (t : Status) (c : Cause) : Status :=
  { t with busy := false, done := true, err := true, errcode := c.code }

/-- The command ended by completion: data registers outside `ds`, all of `BUF`, `LEN` and everything else are as
before, and `STATUS` is `st`. -/
def CompletesKeeping (s t : State) (ds : List Nat) (st : Status) : Prop :=
  RegsKept s t ds ∧ BufKeptFrom s t 0 ∧ t.len = s.len ∧ t.status = st ∧ HostSideKept s t

/-- The command ended by the fault `c` and nothing but `STATUS` was written (R161, R164). -/
def FaultsWith (r : Result) (s : State) (c : Cause) : Prop :=
  r = .next { s with status := s.status.faulted c }

/-- The step went on: neither a fault nor a refusal of the model. -/
def GoesOn (r : Result) : Prop := ∃ t, r = .next t

/-- Registers, `STATUS` and `BUF` are in a form the rules allow: registers and sizes as `State.Sized`; `BUF`
canonical; while a command runs `DONE`, `ERR` and the flags are 0 (R23, R25, R165); `ERRCODE` is 0 exactly while `ERR
= 0` and is at most 7 (R25, R160); `ERR = 1` leaves every flag 0 (R161); `LEG` is never 10 (R23). -/
def State.Inv (s : State) : Prop :=
  s.Sized ∧ s.buf.wf s.cfg.BUFSZ = true ∧
    (s.status.busy = true →
      s.status.done = false ∧ s.status.err = false ∧ s.status.inf = false ∧ s.status.noroot = false ∧
        s.status.oncurve = false ∧ s.status.uncomp = false ∧ s.status.leg = 0) ∧
    (s.status.err = true ↔ s.status.errcode ≠ 0) ∧ s.status.errcode.toNat ≤ 7 ∧
    (s.status.err = true →
      s.status.inf = false ∧ s.status.noroot = false ∧ s.status.oncurve = false ∧ s.status.uncomp = false ∧ s.status.leg = 0) ∧
    s.status.leg ≠ 0b10#2

/-- `k` steps, none of which faults or is refused. -/
def runSteps : Nat → State → Option State
  | 0, s => some s
  | k + 1, s =>
    match step s with
    | .next t => runSteps k t
    | .fault _ => none
    | .refused _ => none

/-- `a` is congruent to a square modulo `P`. -/
def IsSquareMod (P a : Nat) : Prop := ∃ r, r * r % P = a % P

/-- The pair `a` of naturals stands for the point `A` of the curve. -/
def Aff.IsPoint {p B : Nat} (a : Aff) (A : (curveMod p B).Point) : Prop :=
  ∃ h, A = WeierstrassCurve.Affine.Point.some (W' := curveMod p B) (a.px : ZMod p) (a.py : ZMod p) h

/-- The data registers an instruction reads (R31). -/
def readRegs : Instr → List Nat
  | .modmul _ ra rb => [ra.toNat, rb.toNat]
  | .modinv _ ra => [ra.toNat]
  | .legendre _ ra => [ra.toNat]
  | .sqrt _ ra => [ra.toNat]
  | .lift _ ra => [ra.toNat, ra.toNat + 1]
  | .lower _ ra => [ra.toNat, ra.toNat + 1, ra.toNat + 2]
  | .jadd _ ra rb =>
    [ra.toNat, ra.toNat + 1, ra.toNat + 2, rb.toNat, rb.toNat + 1, rb.toNat + 2]
  | .jdbl _ ra => [ra.toNat, ra.toNat + 1, ra.toNat + 2]
  | .padd _ ra rb => [ra.toNat, ra.toNat + 1, rb.toNat, rb.toNat + 1]
  | .pdbl _ ra => [ra.toNat, ra.toNat + 1]
  | .oncurve ra => [ra.toNat, ra.toNat + 1]
  | .smul _ ra => [ra.toNat, ra.toNat + 1]
  | .sbmul _ => []
  | .compress ra => [ra.toNat, ra.toNat + 1]
  | .decompress _ => []
  | .ldparam _ _ => []

/-- The data registers an instruction writes on completion (R31). -/
def writeRegs : Instr → List Nat
  | .modmul rd _ _ => [rd.toNat]
  | .modinv rd _ => [rd.toNat]
  | .legendre rd _ => [rd.toNat]
  | .sqrt rd _ => [rd.toNat]
  | .lift rd _ => [rd.toNat, rd.toNat + 1, rd.toNat + 2]
  | .lower rd _ => [rd.toNat, rd.toNat + 1]
  | .jadd rd _ _ => [rd.toNat, rd.toNat + 1, rd.toNat + 2]
  | .jdbl rd _ => [rd.toNat, rd.toNat + 1, rd.toNat + 2]
  | .padd rd _ _ => [rd.toNat, rd.toNat + 1]
  | .pdbl rd _ => [rd.toNat, rd.toNat + 1]
  | .oncurve _ => []
  | .smul rd _ => [rd.toNat, rd.toNat + 1]
  | .sbmul rd => [rd.toNat, rd.toNat + 1]
  | .compress _ => []
  | .decompress rd => [rd.toNat, rd.toNat + 1]
  | .ldparam rd _ => [rd.toNat]

/-- Whether an instruction reads `BUF[0..LEN-1]` and `LEN` (R31). -/
def readsBuf : Instr → Bool
  | .modmul _ _ _ => false
  | .modinv _ _ => false
  | .legendre _ _ => false
  | .sqrt _ _ => false
  | .lift _ _ => false
  | .lower _ _ => false
  | .jadd _ _ _ => false
  | .jdbl _ _ => false
  | .padd _ _ _ => false
  | .pdbl _ _ => false
  | .oncurve _ => false
  | .smul _ _ => true
  | .sbmul _ => true
  | .compress _ => false
  | .decompress _ => true
  | .ldparam _ _ => false

/-- Whether an instruction reads the selected parameter set (R31). -/
def readsParams : Instr → Bool
  | .modmul _ _ _ => true
  | .modinv _ _ => true
  | .legendre _ _ => true
  | .sqrt _ _ => true
  | .lift _ _ => false
  | .lower _ _ => true
  | .jadd _ _ _ => true
  | .jdbl _ _ => true
  | .padd _ _ _ => true
  | .pdbl _ _ => true
  | .oncurve _ => true
  | .smul _ _ => true
  | .sbmul _ => true
  | .compress _ => false
  | .decompress _ => true
  | .ldparam _ _ => true

/-- Whether an instruction writes `BUF` and `LEN` (R31). -/
def writesBuf : Instr → Bool
  | .modmul _ _ _ => false
  | .modinv _ _ => false
  | .legendre _ _ => false
  | .sqrt _ _ => false
  | .lift _ _ => false
  | .lower _ _ => false
  | .jadd _ _ _ => false
  | .jdbl _ _ => false
  | .padd _ _ _ => false
  | .pdbl _ _ => false
  | .oncurve _ => false
  | .smul _ _ => false
  | .sbmul _ => false
  | .compress _ => true
  | .decompress _ => false
  | .ldparam _ _ => false

/-- A configuration that differs from `cfg` in the group orders only. -/
def withOrders (cfg : Config) (n0 n1 : Nat) : Config :=
  { cfg with set0 := { cfg.set0 with N := n0 }, set1 := { cfg.set1 with N := n1 } }

/-- A configuration that differs from `cfg` in the curve coefficients only. -/
def withCoefficients (cfg : Config) (b0 b1 : Nat) : Config :=
  { cfg with set0 := { cfg.set0 with B := b0 }, set1 := { cfg.set1 with B := b1 } }

/-- The byte string in `BUF[0..LEN-1]` (R29). -/
def State.bufString (s : State) : List Byte := (List.range s.len.toNat).map fun j => s.buf.byteAt j

end Sys2Proof.Machine
end

