-- ==== Sys2Proof/Certificates/Slice0/Obligations.lean ====
section
/-! DEFINITION. The statements for the provers. Each docstring names the rule of spec/ it comes from. Where a
statement needs a modulus that a register can hold, it says so as a premise on the state's configuration (R4, R6);
where it needs the register file of R20, the premise is `State.Sized`, which `InvariantKeptByStep` keeps. -/

open Sys2Proof Sys2Proof.Machine

/-! ### Encoding -/

/-- R60 to R68: decoding the encoding of any well-formed instruction gives it back, every operand at every value. -/
def Obligations.DecodeOfEncodeIsInstr : Prop :=
  ∀ i : Instr, i.wf = true → decode (encode i) = .ok i

/-- R65, R66, R68: a word that decodes is the encoding of what it decodes to, its operands are in range and its fixed
bits match its format's mask. -/
def Obligations.LegalWordIsItsEncoding : Prop :=
  ∀ (w : Word32) (i : Instr), decode w = .ok i →
    encode i = w ∧ i.wf = true ∧ w &&& i.format.mask = i.matchWord

/-- R69 and 95_test_vectors.md section 9: words of each family decode as listed there. -/
def Obligations.SampleWordsDecode : Prop :=
  decode 0x01312000#32 = .ok (.modmul 3 1 2) ∧ decode 0x02100000#32 = .ok (.modinv 1 0) ∧
    decode 0x04FF0000#32 = .ok (.sqrt 15 15) ∧ decode 0x10DE0000#32 = .ok (.lift 13 14) ∧
    decode 0x14402000#32 = .ok (.padd 4 0 2) ∧ decode 0x16040000#32 = .ok (.oncurve 4) ∧
    decode 0x21600000#32 = .ok (.sbmul 6) ∧ decode 0x300E0000#32 = .ok (.compress 14) ∧
    decode 0x31E00000#32 = .ok (.decompress 14) ∧ decode 0x40F00500#32 = .ok (.ldparam 15 5)

/-! ### From a word to its effect -/

/-- R165: while a command runs and no host action lands before its end, the step is the meaning of the instruction its
word decodes to, on the same state and with nothing added. That acceptance and end are two steps with host actions
between them is the model's choice, log 4. -/
def Obligations.StepRunsDecodedInstruction : Prop :=
  ∀ (s : State) (i : Instr), s.status.busy = true →
    (s.busyLeft = 0 ∨ s.host = [] ∨ s.host.head? = some .wait) → decode s.cmd = .ok i → step s = exec i s

/-- R67: an illegal word is accepted like any other command and then faults with E_ILLEGAL; nothing but `CMD`,
`STATUS` and the model's own fields changes. The host's actions, its waiting and the two steps are the model's choice,
logs 3, 4, 9. -/
def Obligations.IllegalWordFaultsIllegal : Prop :=
  ∀ (s : State) (w : Word32) (e : Illegal) (rest : List HostAction), decode w = .error e →
    s.status.busy = false → s.status.err = false → s.host = .write 32 (s.cfg.BASE + 0x008) w :: .wait :: rest →
    ∃ t, runSteps 2 s = some t ∧ t.cmd = w ∧ t.status = Status.zero.faulted .illegal ∧ t.x = s.x ∧ t.buf = s.buf ∧
      t.len = s.len ∧ t.ctrl = s.ctrl ∧ t.cfg = s.cfg ∧ t.host = .wait :: rest

/-! ### Arithmetic primitives -/

/-- R9: `expP(a, 0) = 1 mod P` and `expP(a, e) = mulP(expP(a, e - 1), a)`, that is `a^e mod P`. -/
def Obligations.PowerFollowsRecurrence : Prop :=
  ∀ P a e : Nat, expP P a 0 = 1 % P ∧ expP P a (e + 1) = mulP P (expP P a e) a ∧ expP P a e = a ^ e % P ∧
    expP P 0 0 = 1 % P

/-- R10: `invP` raises `NotInvertible` where `gcd(a mod P, P) ≠ 1`, else answers the one `u` in `[0, P)` with
`mulP(u, a mod P) = 1 mod P`; for a prime `P` it raises exactly for multiples of `P`. -/
def Obligations.InverseExistsUniquely : Prop :=
  ∀ P a : Nat, 0 < P →
    (Nat.gcd (a % P) P ≠ 1 → invP P a = .error .notInvertible) ∧
      (Nat.gcd (a % P) P = 1 →
        ∃ u, invP P a = .ok u ∧ u < P ∧ mulP P u (a % P) = 1 % P ∧
          ∀ v, v < P → mulP P v (a % P) = 1 % P → v = u) ∧
      (Nat.Prime P → (invP P a = .error .notInvertible ↔ a % P = 0))

/-- R11: `be_min_bytes(v)` has the value `v`, no byte string with that value is shorter, its length is
`ceil(bitlen(v)/8)`. -/
def Obligations.MinimalBytesAreShortest : Prop :=
  ∀ v : Nat, beInt (beMinBytes v) = v ∧ (beMinBytes v).length = (bitlen v + 7) / 8 ∧
    (∀ bs : List Byte, beInt bs = v → (beMinBytes v).length ≤ bs.length) ∧ beMinBytes 0 = []

/-! ### Field arithmetic -/

/-- R80: MODMUL writes `(x[ra] * x[rb]) mod P` to `x[rd]` and nothing else. -/
def Obligations.ModmulWritesProduct : Prop :=
  ∀ (s : State) (rd ra rb : RegNum), s.Sized → 0 < s.P → s.P ≤ 2 ^ s.cfg.W →
    ∃ t, exec (.modmul rd ra rb) s = .next t ∧ t.reg rd.toNat = s.reg ra.toNat * s.reg rb.toNat % s.P ∧
      CompletesKeeping s t [rd.toNat] s.status.ended

/-- R81: for every width `w`, an odd `P` below `2^w` and reduced operands, two Montgomery reductions compute `mulP(a,
b)`. -/
def Obligations.MontgomeryComputesProduct : Prop :=
  ∀ w P a b : Nat, P % 2 = 1 → P < 2 ^ w → a < P → b < P → montMul w P a b = mulP P a b

/-- R82: MODINV writes the inverse of `x[ra]` modulo `P`, which lies in `[0, P)`. -/
def Obligations.ModinvWritesInverse : Prop :=
  ∀ (s : State) (rd ra : RegNum), s.Sized → 0 < s.P → s.P ≤ 2 ^ s.cfg.W → Nat.gcd (s.reg ra.toNat % s.P) s.P = 1 →
    ∃ t, exec (.modinv rd ra) s = .next t ∧ t.reg rd.toNat < s.P ∧
      t.reg rd.toNat * s.reg ra.toNat % s.P = 1 % s.P ∧ CompletesKeeping s t [rd.toNat] s.status.ended

/-- R82, R101, R106, R107, R161: where the inversion fails (a value not coprime to `P`; PADD of points with congruent
first coordinates; PDBL of a point with `y ≡ 0`), the command faults with E_NOT_INVERTIBLE and writes nothing. -/
def Obligations.NotInvertibleFaults : Prop :=
  ∀ (s : State) (rd ra rb : RegNum), 1 < s.P →
    (Nat.gcd (s.reg ra.toNat % s.P) s.P ≠ 1 → FaultsWith (exec (.modinv rd ra) s) s .notInvertible) ∧
      (pairOk rd = true → tripleOk ra = true → Nat.gcd (s.reg (ra.toNat + 2) % s.P) s.P ≠ 1 →
        FaultsWith (exec (.lower rd ra) s) s .notInvertible) ∧
      (pairOk rd = true → pairOk ra = true → pairOk rb = true → s.reg ra.toNat % s.P = s.reg rb.toNat % s.P →
        FaultsWith (exec (.padd rd ra rb) s) s .notInvertible) ∧
      (pairOk rd = true → pairOk ra = true → s.reg (ra.toNat + 1) % s.P = 0 →
        FaultsWith (exec (.pdbl rd ra) s) s .notInvertible)

/-! ### Legendre symbol and square root -/

/-- R140: LEGENDRE writes `x[ra]^((P-1)/2) mod P` to the register and its symbol to `LEG`. -/
def Obligations.LegendreWritesEulerValue : Prop :=
  ∀ (s : State) (rd ra : RegNum), s.Sized → 0 < s.P → s.P ≤ 2 ^ s.cfg.W →
    ∃ t, exec (.legendre rd ra) s = .next t ∧ t.reg rd.toNat = s.reg ra.toNat ^ ((s.P - 1) / 2) % s.P ∧
      CompletesKeeping s t [rd.toNat]
        { s.status.ended with
          leg := if t.reg rd.toNat = 0 then 0b00#2 else if t.reg rd.toNat = 1 then 0b01#2 else 0b11#2 }

/-- R140: for an odd prime `P` the value is 0, 1 or `P - 1`, and `LEG` is the Legendre symbol: 0 for multiples of `P`,
1 for nonzero squares, -1 for the rest. -/
def Obligations.LegendreFlagIsSymbol : Prop :=
  ∀ (s : State) (rd ra : RegNum), s.Sized → Nat.Prime s.P → s.P ≠ 2 → s.P ≤ 2 ^ s.cfg.W →
    ∃ t, exec (.legendre rd ra) s = .next t ∧
      ((s.reg ra.toNat % s.P = 0 ∧ t.reg rd.toNat = 0 ∧ t.status.leg = 0b00#2) ∨
        (s.reg ra.toNat % s.P ≠ 0 ∧ IsSquareMod s.P (s.reg ra.toNat) ∧ t.reg rd.toNat = 1 ∧ t.status.leg = 0b01#2) ∨
        (¬ IsSquareMod s.P (s.reg ra.toNat) ∧ t.reg rd.toNat = s.P - 1 ∧ t.status.leg = 0b11#2))

/-- R141 to R144: for every prime `P`, SQRT completes: a square gets a root below `P` and `NOROOT = 0`, any other
operand gets 0 and `NOROOT = 1`; E_INTERNAL is not reached. The root of a multiple of `P` is 0, and for `P ≡ 3 (mod
4)` it is `a^((P+1)/4) mod P`. -/
def Obligations.SqrtFindsRootForPrime : Prop :=
  ∀ (s : State) (rd ra : RegNum), s.Sized → Nat.Prime s.P → s.P ≤ 2 ^ s.cfg.W →
    ∃ t, exec (.sqrt rd ra) s = .next t ∧ t.reg rd.toNat < s.P ∧
      (IsSquareMod s.P (s.reg ra.toNat) →
        t.reg rd.toNat * t.reg rd.toNat % s.P = s.reg ra.toNat % s.P ∧
          CompletesKeeping s t [rd.toNat] { s.status.ended with noroot := false }) ∧
      (¬ IsSquareMod s.P (s.reg ra.toNat) →
        t.reg rd.toNat = 0 ∧ CompletesKeeping s t [rd.toNat] { s.status.ended with noroot := true }) ∧
      (s.reg ra.toNat % s.P = 0 → t.reg rd.toNat = 0) ∧
      (s.P % 4 = 3 → s.reg ra.toNat % s.P ≠ 0 → IsSquareMod s.P (s.reg ra.toNat) →
        t.reg rd.toNat = s.reg ra.toNat ^ ((s.P + 1) / 4) % s.P)

/-! ### Jacobian arithmetic -/

/-- R100: LIFT copies the pair and writes 1. -/
def Obligations.LiftCopiesWithZOne : Prop :=
  ∀ (s : State) (rd ra : RegNum), s.Sized → tripleOk rd = true → pairOk ra = true →
    ∃ t, exec (.lift rd ra) s = .next t ∧ t.reg rd.toNat = s.reg ra.toNat ∧
      t.reg (rd.toNat + 1) = s.reg (ra.toNat + 1) ∧ t.reg (rd.toNat + 2) = 1 ∧
      CompletesKeeping s t [rd.toNat, rd.toNat + 1, rd.toNat + 2] s.status.ended

/-- R101: LOWER writes the pair in `[0, P)` with `x * Z² ≡ X` and `y * Z³ ≡ Y (mod P)`. -/
def Obligations.LowerDividesByZ : Prop :=
  ∀ (s : State) (rd ra : RegNum), s.Sized → pairOk rd = true → tripleOk ra = true → 0 < s.P → s.P ≤ 2 ^ s.cfg.W →
    Nat.gcd (s.reg (ra.toNat + 2) % s.P) s.P = 1 →
    ∃ t, exec (.lower rd ra) s = .next t ∧ t.reg rd.toNat < s.P ∧ t.reg (rd.toNat + 1) < s.P ∧
      t.reg rd.toNat * s.reg (ra.toNat + 2) ^ 2 % s.P = s.reg ra.toNat % s.P ∧
      t.reg (rd.toNat + 1) * s.reg (ra.toNat + 2) ^ 3 % s.P = s.reg (ra.toNat + 1) % s.P ∧
      CompletesKeeping s t [rd.toNat, rd.toNat + 1] s.status.ended

/-- R102: JADD writes the triple of the addition formula, each coordinate the residue of the exact integer. The
formula is the one the spec supplies from general knowledge, log 13. -/
def Obligations.JaddWritesFormula : Prop :=
  ∀ (s : State) (rd ra rb : RegNum), s.Sized → tripleOk rd = true → tripleOk ra = true → tripleOk rb = true →
    0 < s.P → s.P ≤ 2 ^ s.cfg.W →
    let X1 : Int := s.reg ra.toNat
    let Y1 : Int := s.reg (ra.toNat + 1)
    let Z1 : Int := s.reg (ra.toNat + 2)
    let X2 : Int := s.reg rb.toNat
    let Y2 : Int := s.reg (rb.toNat + 1)
    let Z2 : Int := s.reg (rb.toNat + 2)
    let U1 := X1 * Z2 ^ 2
    let H := X2 * Z1 ^ 2 - U1
    let S1 := Y1 * Z2 ^ 3
    let R := Y2 * Z1 ^ 3 - S1
    let V := U1 * H ^ 2
    let X3 := R ^ 2 - H ^ 3 - 2 * V
    ∃ t, exec (.jadd rd ra rb) s = .next t ∧ (t.reg rd.toNat : Int) = X3 % s.P ∧
      (t.reg (rd.toNat + 1) : Int) = (R * (V - X3) - S1 * H ^ 3) % s.P ∧
      (t.reg (rd.toNat + 2) : Int) = Z1 * Z2 * H % s.P ∧
      CompletesKeeping s t [rd.toNat, rd.toNat + 1, rd.toNat + 2] s.status.ended

/-- R103 items 2 and 3: with `H = 0` JADD gives `(R², -R³, 0)`, and `(0, 0, 0)` where also `S1 ≡ S2`; for a prime `P`
the `Z` JADD writes is 0 exactly when an input `Z` is, or the affine first coordinates agree. It rests on the formula
of log 13. -/
def Obligations.JaddDegenerateCases : Prop :=
  ∀ (P : Nat) (p q : Jac), 0 < P →
    (p.X * q.Z ^ 2 % P = q.X * p.Z ^ 2 % P →
      let R : Int := q.Y * p.Z ^ 3 - p.Y * q.Z ^ 3
      ((jadd P p q).X : Int) = R ^ 2 % P ∧ ((jadd P p q).Y : Int) = (-(R ^ 3)) % P ∧ (jadd P p q).Z = 0 ∧
        (R % P = 0 → jadd P p q = { X := 0, Y := 0, Z := 0 })) ∧
      (Nat.Prime P →
        ((jadd P p q).Z = 0 ↔
          p.Z % P = 0 ∨ q.Z % P = 0 ∨ p.X * q.Z ^ 2 % P = q.X * p.Z ^ 2 % P))

/-- R104: JDBL writes the triple of the doubling formula, each coordinate the residue of the exact integer. The
formula is the one the spec completes from general knowledge, log 13. -/
def Obligations.JdblWritesFormula : Prop :=
  ∀ (s : State) (rd ra : RegNum), s.Sized → tripleOk rd = true → tripleOk ra = true → 0 < s.P → s.P ≤ 2 ^ s.cfg.W →
    let X1 : Int := s.reg ra.toNat
    let Y1 : Int := s.reg (ra.toNat + 1)
    let Z1 : Int := s.reg (ra.toNat + 2)
    let D := 4 * X1 * Y1 ^ 2
    let E := 3 * X1 ^ 2
    let X3 := E ^ 2 - 2 * D
    ∃ t, exec (.jdbl rd ra) s = .next t ∧ (t.reg rd.toNat : Int) = X3 % s.P ∧
      (t.reg (rd.toNat + 1) : Int) = (E * (D - X3) - 8 * Y1 ^ 4) % s.P ∧
      (t.reg (rd.toNat + 2) : Int) = 2 * Y1 * Z1 % s.P ∧
      CompletesKeeping s t [rd.toNat, rd.toNat + 1, rd.toNat + 2] s.status.ended

/-- R105 item 2: for an odd prime `P` the `Z` JDBL writes is 0 exactly when `Y1 ≡ 0` or `Z1 ≡ 0`. -/
def Obligations.JdblZeroZExactly : Prop :=
  ∀ (P : Nat) (p : Jac), Nat.Prime P → P ≠ 2 → ((jdbl P p).Z = 0 ↔ p.Y % P = 0 ∨ p.Z % P = 0)

/-- R106: for a prime `P` and incongruent first coordinates PADD writes the third intersection of the chord, mirrored:
with `l * (qx - px) ≡ qy - py`, `x3 = l² - px - qx` and `y3 = l * (px - x3) - py`. -/
def Obligations.PaddWritesChordSum : Prop :=
  ∀ (s : State) (rd ra rb : RegNum), s.Sized → pairOk rd = true → pairOk ra = true → pairOk rb = true →
    Nat.Prime s.P → s.P ≤ 2 ^ s.cfg.W → s.reg ra.toNat % s.P ≠ s.reg rb.toNat % s.P →
    ∃ (t : State) (l : Int), exec (.padd rd ra rb) s = .next t ∧
      (s.P : Int) ∣ l * (s.reg rb.toNat - s.reg ra.toNat) - (s.reg (rb.toNat + 1) - s.reg (ra.toNat + 1)) ∧
      (t.reg rd.toNat : Int) = (l * l - s.reg ra.toNat - s.reg rb.toNat) % s.P ∧
      (t.reg (rd.toNat + 1) : Int) = (l * (s.reg ra.toNat - t.reg rd.toNat) - s.reg (ra.toNat + 1)) % s.P ∧
      CompletesKeeping s t [rd.toNat, rd.toNat + 1] s.status.ended

/-- R103 item 1, R106: on points of the curve with different first coordinates PADD writes the sum of the group of the
curve. -/
def Obligations.PaddIsGroupSum : Prop :=
  ∀ (p : Nat) [Fact p.Prime] (s : State) (rd ra rb : RegNum) (A C : (curveMod p s.params.B).Point),
    s.Sized → s.P = p → p ≤ 2 ^ s.cfg.W → pairOk rd = true → pairOk ra = true → pairOk rb = true →
    (s.aff ra).IsPoint A → (s.aff rb).IsPoint C → s.reg ra.toNat % p ≠ s.reg rb.toNat % p →
    ∃ t, exec (.padd rd ra rb) s = .next t ∧ (t.aff rd).IsPoint (A + C) ∧
      CompletesKeeping s t [rd.toNat, rd.toNat + 1] s.status.ended

/-- R107: for an odd prime `P` and `py` not divisible by it PDBL writes the tangent's double: with `l * 2py ≡ 3px²`,
`x3 = l² - 2px` and `y3 = l * (px - x3) - py`. -/
def Obligations.PdblWritesTangentDouble : Prop :=
  ∀ (s : State) (rd ra : RegNum), s.Sized → pairOk rd = true → pairOk ra = true → Nat.Prime s.P → s.P ≠ 2 →
    s.P ≤ 2 ^ s.cfg.W → s.reg (ra.toNat + 1) % s.P ≠ 0 →
    ∃ (t : State) (l : Int), exec (.pdbl rd ra) s = .next t ∧
      (s.P : Int) ∣ l * (2 * s.reg (ra.toNat + 1)) - 3 * (s.reg ra.toNat : Int) ^ 2 ∧
      (t.reg rd.toNat : Int) = (l * l - 2 * s.reg ra.toNat) % s.P ∧
      (t.reg (rd.toNat + 1) : Int) = (l * (s.reg ra.toNat - t.reg rd.toNat) - s.reg (ra.toNat + 1)) % s.P ∧
      CompletesKeeping s t [rd.toNat, rd.toNat + 1] s.status.ended

/-- R105 item 1, R107: on a point of the curve with `y` not divisible by the odd prime `P` PDBL writes its double in
the group. -/
def Obligations.PdblIsGroupDouble : Prop :=
  ∀ (p : Nat) [Fact p.Prime] (s : State) (rd ra : RegNum) (A : (curveMod p s.params.B).Point),
    s.Sized → s.P = p → p ≠ 2 → p ≤ 2 ^ s.cfg.W → pairOk rd = true → pairOk ra = true → (s.aff ra).IsPoint A →
    s.reg (ra.toNat + 1) % p ≠ 0 →
    ∃ t, exec (.pdbl rd ra) s = .next t ∧ (t.aff rd).IsPoint (A + A) ∧
      CompletesKeeping s t [rd.toNat, rd.toNat + 1] s.status.ended

/-- R91: ONCURVE sets its flag to `y² mod P = (x³ + B) mod P`, on any register contents, and writes no register. -/
def Obligations.OncurveSetsPredicate : Prop :=
  ∀ (s : State) (ra : RegNum), pairOk ra = true →
    ∃ t, exec (.oncurve ra) s = .next t ∧
      CompletesKeeping s t []
        { s.status.ended with
          oncurve := decide
            (s.reg (ra.toNat + 1) ^ 2 % s.P = (s.reg ra.toNat ^ 3 + s.params.B) % s.P) }

/-! ### Scalar multiplication -/

/-- R120 corner case 1, R121: a scalar with no bit set (the empty string too) gives the point at infinity: zeros and
`INF = 1`. -/
def Obligations.ZeroScalarGivesInfinity : Prop :=
  ∀ (s : State) (rd ra : RegNum), s.Sized → pairOk rd = true → pairOk ra = true → s.len.toNat ≤ s.cfg.BUFSZ →
    beInt s.bufString = 0 →
    ∃ t, exec (.smul rd ra) s = .next t ∧ exec (.sbmul rd) s = .next t ∧ t.reg rd.toNat = 0 ∧
      t.reg (rd.toNat + 1) = 0 ∧ CompletesKeeping s t [rd.toNat, rd.toNat + 1] { s.status.ended with inf := true }

/-- R120, R122 item 1, R160, R185: for an odd prime `P` SMUL faults with E_BUFLEN when `LEN > BUFSZ`, else with
E_NOT_INVERTIBLE when some unit operation of its loop is degenerate, else it completes with `INF` telling whether the
scalar is 0. The pair is the last accumulator divided by the square and the cube of its `Z`, on the curve or off it;
zeros where the loop leaves none. -/
def Obligations.SmulEndsByDegeneracy : Prop :=
  ∀ (s : State) (rd ra : RegNum), s.Sized → pairOk rd = true → pairOk ra = true → Nat.Prime s.P → s.P ≠ 2 →
    s.P ≤ 2 ^ s.cfg.W →
    let ops := scalarOps s.P (liftPt (s.aff ra)) none (scanBits s.bufString)
    if s.len.toNat > s.cfg.BUFSZ then FaultsWith (exec (.smul rd ra) s) s .bufLen
    else if ops.any (ScalarOp.degenerate s.P) = true then FaultsWith (exec (.smul rd ra) s) s .notInvertible
    else
      ∃ t, exec (.smul rd ra) s = .next t ∧ t.reg rd.toNat < s.P ∧ t.reg (rd.toNat + 1) < s.P ∧
        (∀ acc, scalarLoop s.P (liftPt (s.aff ra)) (scanBits s.bufString) = some acc →
          t.reg rd.toNat * acc.Z ^ 2 % s.P = acc.X % s.P ∧ t.reg (rd.toNat + 1) * acc.Z ^ 3 % s.P = acc.Y % s.P) ∧
        (scalarLoop s.P (liftPt (s.aff ra)) (scanBits s.bufString) = none → t.reg rd.toNat = 0 ∧ t.reg (rd.toNat + 1) = 0) ∧
        CompletesKeeping s t [rd.toNat, rd.toNat + 1]
          { s.status.ended with inf := decide (beInt s.bufString = 0) }

/-- R121, R122 item 1: the same of SBMUL, whose loop runs on the base point of the selected set. -/
def Obligations.SbmulEndsByDegeneracy : Prop :=
  ∀ (s : State) (rd : RegNum), s.Sized → pairOk rd = true → Nat.Prime s.P → s.P ≠ 2 → s.P ≤ 2 ^ s.cfg.W →
    let base : Aff := { px := s.params.Gx, py := s.params.Gy }
    let ops := scalarOps s.P (liftPt base) none (scanBits s.bufString)
    if s.len.toNat > s.cfg.BUFSZ then FaultsWith (exec (.sbmul rd) s) s .bufLen
    else if ops.any (ScalarOp.degenerate s.P) = true then FaultsWith (exec (.sbmul rd) s) s .notInvertible
    else
      ∃ t, exec (.sbmul rd) s = .next t ∧ t.reg rd.toNat < s.P ∧ t.reg (rd.toNat + 1) < s.P ∧
        (∀ acc, scalarLoop s.P (liftPt base) (scanBits s.bufString) = some acc →
          t.reg rd.toNat * acc.Z ^ 2 % s.P = acc.X % s.P ∧ t.reg (rd.toNat + 1) * acc.Z ^ 3 % s.P = acc.Y % s.P) ∧
        (scalarLoop s.P (liftPt base) (scanBits s.bufString) = none → t.reg rd.toNat = 0 ∧ t.reg (rd.toNat + 1) = 0) ∧
        CompletesKeeping s t [rd.toNat, rd.toNat + 1]
          { s.status.ended with inf := decide (beInt s.bufString = 0) }

/-- R121: SBMUL is SMUL of a pair that holds the base point. -/
def Obligations.SbmulIsSmulOfBasePoint : Prop :=
  ∀ (s : State) (rd ra : RegNum), pairOk ra = true → s.reg ra.toNat = s.params.Gx →
    s.reg (ra.toNat + 1) = s.params.Gy → exec (.sbmul rd) s = exec (.smul rd ra) s

/-- R120, R122 item 2: on a point `A` of the curve SMUL writes `[k]A` of the group for every scalar `k` at least 1 and
below the order of `A`. -/
def Obligations.SmulIsScalarMultiple : Prop :=
  ∀ (p : Nat) [Fact p.Prime] (s : State) (rd ra : RegNum) (A : (curveMod p s.params.B).Point),
    s.Sized → s.P = p → p ≤ 2 ^ s.cfg.W → pairOk rd = true → pairOk ra = true →
    s.len.toNat ≤ s.cfg.BUFSZ → (s.aff ra).IsPoint A → 0 < beInt s.bufString →
    (∀ j, 0 < j → j ≤ beInt s.bufString → j • A ≠ 0) →
    ∃ t, exec (.smul rd ra) s = .next t ∧ (t.aff rd).IsPoint (beInt s.bufString • A) ∧
      CompletesKeeping s t [rd.toNat, rd.toNat + 1] { s.status.ended with inf := false }

/-- R122 item 2: on a point `A` of odd order `n` SMUL faults with E_NOT_INVERTIBLE exactly when some bit 1 of the
scalar below its leading one stands after a prefix `m` with `2m ≡ 1` or `2m ≡ -1 (mod n)`; for every other scalar from
1 on it writes `[k]A`. -/
def Obligations.SmulFaultsExactlyAtDegeneratePrefix : Prop :=
  ∀ (p : Nat) [Fact p.Prime] (s : State) (rd ra : RegNum) (A : (curveMod p s.params.B).Point),
    s.Sized → s.P = p → p ≤ 2 ^ s.cfg.W → pairOk rd = true → pairOk ra = true →
    s.len.toNat ≤ s.cfg.BUFSZ → (s.aff ra).IsPoint A → addOrderOf A % 2 = 1 → 0 < beInt s.bufString →
    ((∃ j, beInt s.bufString / 2 ^ j % 2 = 1 ∧ 0 < beInt s.bufString / 2 ^ (j + 1) ∧
          (2 * (beInt s.bufString / 2 ^ (j + 1)) % addOrderOf A = 1 ∨
            2 * (beInt s.bufString / 2 ^ (j + 1)) % addOrderOf A = addOrderOf A - 1)) →
        FaultsWith (exec (.smul rd ra) s) s .notInvertible) ∧
      (¬ (∃ j, beInt s.bufString / 2 ^ j % 2 = 1 ∧ 0 < beInt s.bufString / 2 ^ (j + 1) ∧
          (2 * (beInt s.bufString / 2 ^ (j + 1)) % addOrderOf A = 1 ∨
            2 * (beInt s.bufString / 2 ^ (j + 1)) % addOrderOf A = addOrderOf A - 1)) →
        ∃ t, exec (.smul rd ra) s = .next t ∧ (t.aff rd).IsPoint (beInt s.bufString • A) ∧
          CompletesKeeping s t [rd.toNat, rd.toNat + 1] { s.status.ended with inf := false })

/-- R120 corner case 2: only the value of the scalar counts; leading zero bytes and bits change nothing. -/
def Obligations.ScalarValueDecides : Prop :=
  ∀ (P : Nat) (a : Aff) (k k' : List Byte), beInt k = beInt k' → scalarMult P a k = scalarMult P a k'

/-! ### Point codec -/

/-- R130, R55: COMPRESS writes the header by the parity of `y` and the minimal big-endian bytes of `x` from `BUF[0]`
on, and their number to `LEN`; the bytes from the new `LEN` on and every register are kept. -/
def Obligations.CompressWritesHeaderAndX : Prop :=
  ∀ (s : State) (ra : RegNum), s.Sized → pairOk ra = true →
    ∃ t, exec (.compress ra) s = .next t ∧ t.len.toNat = 1 + (bitlen (s.reg ra.toNat) + 7) / 8 ∧
      t.buf.byteAt 0 = (if s.reg (ra.toNat + 1) % 2 = 1 then 0x03#8 else 0x02#8) ∧
      beInt t.bufString.tail = s.reg ra.toNat ∧ BufKeptFrom s t t.len.toNat ∧ RegsKept s t [] ∧
      t.status = s.status.ended ∧ HostSideKept s t

/-- R132: a header 0x02 or 0x03, the right length and an `x` with a square `x³ + B` give `x` unreduced and a `y` of
the header's parity with `y² ≡ x³ + B`; `y` is below `P` but for the literal `P - 0` of a zero root with header 0x03.
-/
def Obligations.DecompressRecoversPoint : Prop :=
  ∀ (s : State) (rd : RegNum) (h : Byte) (rest : List Byte), s.Sized → pairOk rd = true → s.params.wf →
    s.params.Fits s.cfg.W → s.len.toNat = 1 + byteLen s.params.bitSize → s.bufString = h :: rest →
    (h = 0x02#8 ∨ h = 0x03#8) →
    IsSquareMod s.P (beInt rest ^ 3 + s.params.B) →
    ∃ t, exec (.decompress rd) s = .next t ∧ t.reg rd.toNat = beInt rest ∧
      t.reg (rd.toNat + 1) ^ 2 % s.P = (beInt rest ^ 3 + s.params.B) % s.P ∧
      t.reg (rd.toNat + 1) % 2 = h.toNat % 2 ∧
      (t.reg (rd.toNat + 1) < s.P ∨
        (t.reg (rd.toNat + 1) = s.P ∧ h = 0x03#8 ∧ (beInt rest ^ 3 + s.params.B) % s.P = 0)) ∧
      CompletesKeeping s t [rd.toNat, rd.toNat + 1] s.status.ended

/-- R132, R163 item 3: the other ends of DECOMPRESS in their order: `LEN > BUFSZ`, no byte, header 0x04, an unknown
header, a wrong length, an `x` without a root. -/
def Obligations.DecompressDispatchesInOrder : Prop :=
  ∀ (s : State) (rd : RegNum), pairOk rd = true → s.params.wf →
    if s.len.toNat > s.cfg.BUFSZ then FaultsWith (exec (.decompress rd) s) s .bufLen
    else if s.len = 0 then FaultsWith (exec (.decompress rd) s) s .invalidHeader
    else if s.buf.byteAt 0 = 0x04#8 then
      ∃ t, exec (.decompress rd) s = .next t ∧ CompletesKeeping s t [] { s.status.ended with uncomp := true }
    else if s.buf.byteAt 0 ≠ 0x02#8 ∧ s.buf.byteAt 0 ≠ 0x03#8 then
      FaultsWith (exec (.decompress rd) s) s .invalidHeader
    else if s.len.toNat ≠ 1 + byteLen s.params.bitSize then
      FaultsWith (exec (.decompress rd) s) s .lengthMismatch
    else
      ¬ IsSquareMod s.P (beInt s.bufString.tail ^ 3 + s.params.B) →
        FaultsWith (exec (.decompress rd) s) s .notOnCurve

/-- R133: for a reduced point of the curve whose `x` needs all `ceil(BitSize/8)` bytes, DECOMPRESS after COMPRESS
gives the point back; for a shorter `x` it faults with E_LENGTH_MISMATCH. -/
def Obligations.CompressDecompressRoundTrip : Prop :=
  ∀ (s : State) (rd ra : RegNum), s.Sized → pairOk rd = true → pairOk ra = true → s.params.wf → s.reg ra.toNat < s.P →
    s.reg (ra.toNat + 1) < s.P →
    s.reg (ra.toNat + 1) ^ 2 % s.P = (s.reg ra.toNat ^ 3 + s.params.B) % s.P →
    ∃ t, exec (.compress ra) s = .next t ∧
      if 8 * (byteLen s.params.bitSize - 1) < bitlen (s.reg ra.toNat) then
        ∃ u, exec (.decompress rd) t = .next u ∧ u.reg rd.toNat = s.reg ra.toNat ∧
          u.reg (rd.toNat + 1) = s.reg (ra.toNat + 1) ∧ u.status.err = s.status.err
      else FaultsWith (exec (.decompress rd) t) t .lengthMismatch

/-! ### Parameters -/

/-- R5, R24, R90: LDPARAM copies the value its index names of the set that `CTRL.CURVE` selects, slot 0 for 0 and slot
1 for 1; that set is the one every other rule takes `P`, `B` and the base point from. -/
def Obligations.LdparamReadsRom : Prop :=
  ∀ (s : State) (rd : RegNum) (idx : ParamIdx) (v : Nat), s.Sized → v < 2 ^ s.cfg.W →
    let set := if s.ctrl.curve then s.cfg.set1 else s.cfg.set0
    [set.P, set.N, set.B, set.Gx, set.Gy, set.bitSize][idx.toNat]? = some v →
    s.params = set ∧ s.P = set.P ∧
      ∃ t, exec (.ldparam rd idx) s = .next t ∧ t.reg rd.toNat = v ∧ CompletesKeeping s t [rd.toNat] s.status.ended

/-! ### All instructions -/

/-- R165, R31: whatever the instruction, when it answers a next state the command has ended, and `CTRL` and `CMD` are
as before; so are the fields the model adds, its choice: the parameter ROM it carries (log 2), the host's pending
actions (log 3), the number of those that land (log 4), the counter of free values (log 5) and the last reply (log 8).
-/
def Obligations.CommandsEndAndKeepHostSide : Prop :=
  ∀ (i : Instr) (s t : State), exec i s = .next t →
    t.status.busy = false ∧ t.status.done = true ∧ HostSideKept s t

/-- R164, R161: after a fault the data state is exactly what it was when the command was accepted, `CMD` holds the
faulting word, and `STATUS` holds `ERR`, `DONE`, `BUSY = 0`, the code, and the flags as they were: all 0 for a command
that was accepted. -/
def Obligations.FaultsArePrecise : Prop :=
  ∀ (i : Instr) (s t : State), exec i s = .next t → s.status.err = false → t.status.err = true →
    ∃ c : Cause, t = { s with status := s.status.faulted c } ∧
      (s.status.busy = true → s.Inv →
        t.status = { Status.zero with done := true, err := true, errcode := c.code })

/-- R162: with a parameter set that meets R6 a legal command faults only with the codes the table lists for it;
MODINV, LOWER, PADD and PDBL only where the inverse does not exist; SMUL, SBMUL and DECOMPRESS with E_BUFLEN exactly
when `LEN > BUFSZ`. -/
def Obligations.FaultsOnlyAsListed : Prop :=
  ∀ (i : Instr) (s t : State), i.wf = true → s.params.wf → s.status.err = false → exec i s = .next t →
    t.status.err = true →
    match i with
    | .modinv _ ra => t.status.errcode = 2 ∧ s.reg ra.toNat % s.P = 0
    | .lower _ ra => t.status.errcode = 2 ∧ s.reg (ra.toNat + 2) % s.P = 0
    | .padd _ ra rb => t.status.errcode = 2 ∧ s.reg ra.toNat % s.P = s.reg rb.toNat % s.P
    | .pdbl _ ra => t.status.errcode = 2 ∧ s.reg (ra.toNat + 1) % s.P = 0
    | .smul _ _ => (t.status.errcode = 6 ∧ s.len.toNat > s.cfg.BUFSZ) ∨ (t.status.errcode = 2 ∧ s.len.toNat ≤ s.cfg.BUFSZ)
    | .sbmul _ => (t.status.errcode = 6 ∧ s.len.toNat > s.cfg.BUFSZ) ∨ (t.status.errcode = 2 ∧ s.len.toNat ≤ s.cfg.BUFSZ)
    | .decompress _ =>
      (t.status.errcode = 6 ∧ s.len.toNat > s.cfg.BUFSZ) ∨
        (s.len.toNat ≤ s.cfg.BUFSZ ∧ (t.status.errcode = 3 ∨ t.status.errcode = 4 ∨ t.status.errcode = 5))
    | _ => False

/-- R31, R13: an instruction writes only its destination registers, and only COMPRESS writes `BUF` and `LEN`. -/
def Obligations.WritesOnlyItsDestinations : Prop :=
  ∀ (i : Instr) (s t : State), exec i s = .next t →
    RegsKept s t (writeRegs i) ∧ (writesBuf i = false → BufKeptFrom s t 0 ∧ t.len = s.len)

/-- R31: an instruction reads only its sources: two machines of the same sizes with the same `STATUS`, the same source
registers and, where it reads them, the same selected set, the same `LEN` and bytes below it, end the same way and,
where they complete and had `UNCOMP` clear, with the same values written. -/
def Obligations.ReadsOnlyItsSources : Prop :=
  ∀ (i : Instr) (s s' t t' : State), s.Sized → s'.Sized → s.cfg.W = s'.cfg.W →
    s.cfg.BUFSZ = s'.cfg.BUFSZ → (readsParams i = true → s.params = s'.params) → s.status = s'.status →
    (∀ j ∈ readRegs i, s.reg j = s'.reg j) →
    (readsBuf i = true → s.len = s'.len ∧ ∀ a, a < s.len.toNat → s.buf.byteAt a = s'.buf.byteAt a) →
    exec i s = .next t → exec i s' = .next t' →
    t.status = t'.status ∧
      (t.status.err = false → t.status.uncomp = false →
        (∀ j ∈ writeRegs i, t.reg j = t'.reg j) ∧
          (writesBuf i = true → t.len = t'.len ∧ ∀ a, a < t.len.toNat → t.buf.byteAt a = t'.buf.byteAt a))

/-- R23: each result flag is written by its own instructions and by no other. -/
def Obligations.ResultFlagsOnlyFromOwner : Prop :=
  ∀ (i : Instr) (s t : State), exec i s = .next t →
    (t.status.inf = s.status.inf ∨ (∃ rd ra, i = .smul rd ra) ∨ ∃ rd, i = .sbmul rd) ∧
      (t.status.noroot = s.status.noroot ∨ ∃ rd ra, i = .sqrt rd ra) ∧
      (t.status.oncurve = s.status.oncurve ∨ ∃ ra, i = .oncurve ra) ∧
      (t.status.uncomp = s.status.uncomp ∨ ∃ rd, i = .decompress rd) ∧
      (t.status.leg = s.status.leg ∨ ∃ rd ra, i = .legendre rd ra)

/-- R92: the group order is used by no instruction except LDPARAM, and the curve coefficient only by ONCURVE,
DECOMPRESS and LDPARAM: with another value in the ROM the outcome is the same but for the ROM. -/
def Obligations.OrderAndCoefficientUnread : Prop :=
  ∀ (i : Instr) (s t : State) (a b : Nat), (∀ rd idx, i ≠ .ldparam rd idx) → exec i s = .next t →
    exec i { s with cfg := withOrders s.cfg a b } = .next { t with cfg := withOrders s.cfg a b } ∧
      ((∀ ra, i ≠ .oncurve ra) → (∀ rd, i ≠ .decompress rd) →
        exec i { s with cfg := withCoefficients s.cfg a b } = .next { t with cfg := withCoefficients s.cfg a b })

/-! ### The machine -/

/-- The invariant `State.Inv` (R20, R23, R25, R160, R161, R165, the sizes of R4 and, as the model's choice, the bounds
of log 21 and the canonical form of `BUF`, log 12) is kept by every step, whatever the host does. -/
def Obligations.InvariantKeptByStep : Prop :=
  ∀ s t : State, s.Inv → step s = .next t → t.Inv

/-- R32: after reset every piece of the spec's state is zero and no command is in flight. That the state carries the
configuration, and the moduli, orders and bus address it holds, are the model's choice: logs 1, 2 and 20. -/
def Obligations.ResetIsAllZero : Prop :=
  (∀ i, State.reset.reg i = 0) ∧ State.reset.x.length = 16 ∧ (∀ a, State.reset.buf.byteAt a = 0) ∧
    State.reset.len = 0 ∧ State.reset.ctrl = { curve := false, ie := false } ∧ State.reset.ctrl.word = 0 ∧
    State.reset.status = Status.zero ∧ State.reset.status.word = 0 ∧ State.reset.cmd = 0 ∧
    State.reset.irq = false ∧ State.reset.cfg = Config.hardware

/-- R4, R32: the reset state meets the invariant of `InvariantKeptByStep`, whose bounds of log 21 and whose clause on
the canonical form of `BUF`, log 12, are the model's choice. -/
def Obligations.ResetMeetsInvariant : Prop := State.reset.Inv

/-- R188, R190: every step of every state with the sizes of R4 and R20 goes on: no sequence of host accesses and
commands is without a defined outcome. Accesses outside the spec go on as refused without effect: the model's choice,
log 7. -/
def Obligations.EveryStepGoesOn : Prop := ∀ s : State, s.Sized → GoesOn (step s)

/-- R188: every accepted command ends, after at most the host actions that land before its end. How many land is the
model's free value, log 4. -/
def Obligations.EveryCommandEnds : Prop :=
  ∀ s : State, s.Sized → s.status.busy = true →
    ∃ k t, k ≤ s.busyLeft + 1 ∧ runSteps k s = some t ∧ t.status.busy = false

/-- R28: no instruction and no host access writes the parameter ROM, and reset does not affect it (R180). That a state
carries it is the model's choice, log 2. -/
def Obligations.RomNeverWritten : Prop := ∀ s t : State, step s = .next t → t.cfg = s.cfg

/-! ### Host port -/

/-- R26, R165: while idle a write to `CMD` is accepted with `ERR = 0` (the word, `BUSY`, `DONE`, the flags) and
dropped with `ERR = 1`; the data state is kept. The pending actions of the host are the model's choice, log 3. -/
def Obligations.CmdWriteAcceptedOrDropped : Prop :=
  ∀ (s : State) (w : Word32) (rest : List HostAction), s.status.busy = false →
    s.host = .write 32 (s.cfg.BASE + 0x008) w :: rest →
    ∃ t, step s = .next t ∧ t.host = rest ∧ t.x = s.x ∧ t.buf = s.buf ∧ t.len = s.len ∧ t.ctrl = s.ctrl ∧
      (s.status.err = true → t.cmd = s.cmd ∧ t.status = s.status) ∧
      (s.status.err = false →
        t.cmd = w ∧ t.status = { Status.zero with busy := true, errcode := s.status.errcode })

/-- R24 to R27, R41, R48: the bits of `STATUS` and `CMD` as the port reads them at any time, those of `CTRL` and `LEN`
as it reads them while idle; a write of `CTRL` sets `CURVE` and `IE`, a write of `LEN` its eight bits; the other bits
of either are ignored and nothing else changes. A step of an idle core performs the host's next action, which reaches
the port at its bus address less `BASE`; the pending actions and the reply are the model's choice, logs 3 and 8. -/
def Obligations.ControlRegisterLayout : Prop :=
  ∀ (s : State) (v : Word32),
    (s.hostRead 32 0x004 = { s with reply := some (.data (BitVec.ofNat 32 s.status.bits)) } ∧
      s.hostRead 32 0x008 = { s with reply := some (.data s.cmd) }) ∧
    (s.status.busy = false →
      (∀ a rest, s.host = a :: rest → step s = .next ({ s with host := rest }.hostAct a)) ∧
        (∀ bits off, s.hostAct (.read bits (s.cfg.BASE + off)) = s.hostRead bits off ∧
          s.hostAct (.write bits (s.cfg.BASE + off) v) = s.hostWrite bits off v) ∧
        s.hostWrite 32 0x000 v =
          { s with reply := some .ack, ctrl := { curve := v.toNat % 2 == 1, ie := v.toNat / 2 % 2 == 1 } } ∧
        s.hostWrite 32 0x00C v = { s with reply := some .ack, len := BitVec.ofNat 8 v.toNat } ∧
        s.hostRead 32 0x000 =
          { s with reply := some (.data (BitVec.ofNat 32 (s.ctrl.curve.toNat + 2 * s.ctrl.ie.toNat))) } ∧
        s.hostRead 32 0x00C = { s with reply := some (.data (BitVec.ofNat 32 s.len.toNat)) })

/-- R25, R186: while a command runs, every write of the host is dropped, `STATUS` and `CMD` read exactly (`STATUS`
with bit 0 set, and as 0x00000001 in every state that meets the invariant), and any other read answers some value and
has no effect. The pending actions, their number and the reply are the model's choice, logs 3, 4, 5, 8. -/
def Obligations.BusyAccessesHaveNoEffect : Prop :=
  ∀ (s : State) (rest : List HostAction) (off : Nat) (v : Word32), s.status.busy = true → s.busyLeft ≠ 0 →
    off % 4 = 0 → off < 0x400 →
    (s.host = .write 32 (s.cfg.BASE + off) v :: rest →
      step s = .next { s with host := rest, busyLeft := s.busyLeft - 1, reply := some .ack }) ∧
      (s.host = .read 32 (s.cfg.BASE + 0x004) :: rest →
        step s = .next
            { s with
              host := rest
              busyLeft := s.busyLeft - 1
              reply := some (.data (BitVec.ofNat 32 s.status.bits)) } ∧
          s.status.bits % 2 = 1 ∧ (s.Inv → s.status.bits = 1)) ∧
      (s.host = .read 32 (s.cfg.BASE + 0x008) :: rest →
        step s = .next { s with host := rest, busyLeft := s.busyLeft - 1, reply := some (.data s.cmd) }) ∧
      (s.host = .read 32 (s.cfg.BASE + off) :: rest →
        ∃ (r : Word32) (n : Nat),
          step s =
            .next { s with host := rest, busyLeft := s.busyLeft - 1, fresh := n, reply := some (.data r) })

/-- R167: a write of `v` to `STATUS` clears `DONE` where bit 1 of `v` is 1, and `ERR` and `ERRCODE` where bit 2 is 1,
while `BUSY = 0`; all other bits are ignored and nothing else of the block changes; while `BUSY = 1` it is dropped.
`.clrerr` is this write with 0x4. That the port answers such a write in the field `reply`, a dropped one too, is the
model's choice, log 8. -/
def Obligations.StatusWriteAcknowledges : Prop :=
  ∀ (s : State) (v : Word32),
    (s.status.busy = false →
      s.hostWrite 32 0x004 v =
        { s with
          reply := some .ack
          status :=
            { s.status with
              done := if v.getLsbD 1 then false else s.status.done
              err := if v.getLsbD 2 then false else s.status.err
              errcode := if v.getLsbD 2 then 0 else s.status.errcode } }) ∧
      (s.status.busy = true → s.hostWrite 32 0x004 v = { s with reply := some .ack }) ∧
      AsmLine.clrerr.actions s = [.write 32 (s.cfg.BASE + 0x004) 0x4]

/-- R181, R180: reset, at any time, replaces the whole state by the reset state: a command in execution leaves no
trace, a pending `ERR` is cleared; the parameter ROM and the host's later actions are kept (the model's choice, log
17). -/
def Obligations.ResetAtAnyTime : Prop :=
  ∀ (s : State) (rest : List HostAction), s.host = .reset :: rest → (s.status.busy = true → s.busyLeft ≠ 0) →
    ∃ t, step s = .next t ∧ t.x = List.replicate s.cfg.NREG 0 ∧ t.buf = State.reset.buf ∧ t.len = 0 ∧
      t.ctrl = State.reset.ctrl ∧ t.status = Status.zero ∧ t.cmd = 0 ∧ t.irq = false ∧ t.cfg = s.cfg ∧ t.host = rest

/-- R168: `irq` is the level `IE and DONE`: the end of any command, by completion or by fault, leaves it at `IE`; the
acceptance of the next command, a write of 1 to `STATUS` bit 1, clearing `IE` and reset leave it 0. -/
def Obligations.InterruptFollowsDone : Prop :=
  (∀ s : State, s.irq = (s.ctrl.ie && s.status.done)) ∧
    (∀ (i : Instr) (s t : State), exec i s = .next t → t.irq = s.ctrl.ie) ∧
    ∀ (s : State) (v : Word32),
      (s.accept v).irq = false ∧ s.hostReset.irq = false ∧
        (s.status.busy = false → v.getLsbD 1 = true → (s.hostWrite 32 0x004 v).irq = false) ∧
        (s.status.busy = false → v.getLsbD 1 = false → (s.hostWrite 32 0x000 v).irq = false)

/-- R42, R43: a write of a register word replaces exactly those 32 bits: that word reads back, every other word of
every register is as before, and nothing but the registers and the port's reply (log 8) changes. -/
def Obligations.RegisterWordWindow : Prop :=
  ∀ (s : State) (i j i' j' : Nat) (v : Word32), s.Sized → s.status.busy = false → i < 16 → j < s.cfg.W / 32 →
    let t := s.hostWrite 32 (0x100 + 0x20 * i + 4 * j) v
    t.reg i' / 2 ^ (32 * j') % 2 ^ 32 =
        (if i' = i ∧ j' = j then v.toNat else s.reg i' / 2 ^ (32 * j') % 2 ^ 32) ∧
      t = { s with reply := some .ack, x := t.x } ∧ t.x.length = s.x.length ∧ t.reg i' < 2 ^ s.cfg.W ∧
      s.hostRead 32 (0x100 + 0x20 * i + 4 * j) =
        { s with reply := some (.data (BitVec.ofNat 32 (s.reg i / 2 ^ (32 * j)))) }

/-- R42, R44: a buffer word holds `BUF[4q]` in bits 7:0 up to `BUF[4q+3]` in bits 31:24; a write replaces all four
bytes and no other, whatever `LEN` holds, and nothing but `BUF` and the port's reply (log 8) changes. -/
def Obligations.BufferWordWindow : Prop :=
  ∀ (s : State) (q a : Nat) (v : Word32), s.Sized → s.status.busy = false → q < s.cfg.BUFSZ / 4 →
    let t := s.hostWrite 32 (0x300 + 4 * q) v
    t.buf.byteAt a =
        (if 4 * q ≤ a ∧ a < 4 * q + 4 then BitVec.ofNat 8 (v.toNat / 2 ^ (8 * (a - 4 * q))) else s.buf.byteAt a) ∧
      t = { s with reply := some .ack, buf := t.buf } ∧
      s.hostRead 32 (0x300 + 4 * q) =
        { s with
          reply := some
            (.data
              (BitVec.ofNat 32
                ((s.buf.byteAt (4 * q)).toNat + (s.buf.byteAt (4 * q + 1)).toNat * 2 ^ 8 +
                  (s.buf.byteAt (4 * q + 2)).toNat * 2 ^ 16 + (s.buf.byteAt (4 * q + 3)).toNat * 2 ^ 24))) }

/-- R46, R47: no read of the host changes the state of the block; reserved offsets read as 0 and ignore writes. The rest
is the model's choice: an access which is not an aligned 32-bit access inside the window, whose offset lies beyond it or
whose bus address lies below `BASE`, is refused without effect and the run goes on (logs 7, 20); reserved offsets read 0
while a command runs too (log 6); the counter of free values (log 5) and the port's reply (log 8) may change. -/
def Obligations.ReadsAndRefusalsChangeNothing : Prop :=
  ∀ (s : State) (bits off : Nat) (v : Word32),
    (∃ (n : Nat) (r : HostReply), s.hostRead bits off = { s with fresh := n, reply := some r }) ∧
      ((bits ≠ 32 ∨ off % 4 ≠ 0 ∨ 0x400 ≤ off) →
        s.hostRead bits off = { s with reply := some .refused } ∧
          s.hostWrite bits off v = { s with reply := some .refused }) ∧
      (s.Sized → bits = 32 → off % 4 = 0 →
        (0x010 ≤ off ∧ off < 0x100) ∨ (0x100 ≤ off ∧ off < 0x300 ∧ s.cfg.W / 32 ≤ off / 4 % 8) ∨
          (0x300 + s.cfg.BUFSZ ≤ off ∧ off < 0x400) →
        s.hostRead bits off = { s with reply := some (.data 0) } ∧
          s.hostWrite bits off v = { s with reply := some .ack }) ∧
      ∀ addr, addr < s.cfg.BASE →
        s.hostAct (.read bits addr) = { s with reply := some .refused } ∧
          s.hostAct (.write bits addr v) = { s with reply := some .refused }
end

