-- ==== Sys2Proof/Laws/State.lean ====
section
/-! SUPPORT. One lemma per field per update of the state, true by definition, so that no proof unfolds a record update. -/

namespace Sys2Proof.Machine

/-! ### setReg -/

@[simp] theorem State.setReg_x (s : State) (i v : Nat) : (s.setReg i v).x = s.x.set i (v % 2 ^ s.cfg.W) := rfl
@[simp] theorem State.setReg_buf (s : State) (i v : Nat) : (s.setReg i v).buf = s.buf := rfl
@[simp] theorem State.setReg_len (s : State) (i v : Nat) : (s.setReg i v).len = s.len := rfl
@[simp] theorem State.setReg_ctrl (s : State) (i v : Nat) : (s.setReg i v).ctrl = s.ctrl := rfl
@[simp] theorem State.setReg_status (s : State) (i v : Nat) : (s.setReg i v).status = s.status := rfl
@[simp] theorem State.setReg_cmd (s : State) (i v : Nat) : (s.setReg i v).cmd = s.cmd := rfl
@[simp] theorem State.setReg_cfg (s : State) (i v : Nat) : (s.setReg i v).cfg = s.cfg := rfl
@[simp] theorem State.setReg_host (s : State) (i v : Nat) : (s.setReg i v).host = s.host := rfl
@[simp] theorem State.setReg_busyLeft (s : State) (i v : Nat) : (s.setReg i v).busyLeft = s.busyLeft := rfl
@[simp] theorem State.setReg_fresh (s : State) (i v : Nat) : (s.setReg i v).fresh = s.fresh := rfl
@[simp] theorem State.setReg_reply (s : State) (i v : Nat) : (s.setReg i v).reply = s.reply := rfl
@[simp] theorem State.setReg_params (s : State) (i v : Nat) : (s.setReg i v).params = s.params := rfl
@[simp] theorem State.setReg_P (s : State) (i v : Nat) : (s.setReg i v).P = s.P := rfl

/-! ### setLen -/

@[simp] theorem State.setLen_x (s : State) (n : Nat) : (s.setLen n).x = s.x := rfl
@[simp] theorem State.setLen_buf (s : State) (n : Nat) : (s.setLen n).buf = s.buf := rfl
@[simp] theorem State.setLen_len (s : State) (n : Nat) : (s.setLen n).len = BitVec.ofNat 8 n := rfl
@[simp] theorem State.setLen_ctrl (s : State) (n : Nat) : (s.setLen n).ctrl = s.ctrl := rfl
@[simp] theorem State.setLen_status (s : State) (n : Nat) : (s.setLen n).status = s.status := rfl
@[simp] theorem State.setLen_cmd (s : State) (n : Nat) : (s.setLen n).cmd = s.cmd := rfl
@[simp] theorem State.setLen_cfg (s : State) (n : Nat) : (s.setLen n).cfg = s.cfg := rfl
@[simp] theorem State.setLen_host (s : State) (n : Nat) : (s.setLen n).host = s.host := rfl
@[simp] theorem State.setLen_busyLeft (s : State) (n : Nat) : (s.setLen n).busyLeft = s.busyLeft := rfl
@[simp] theorem State.setLen_fresh (s : State) (n : Nat) : (s.setLen n).fresh = s.fresh := rfl
@[simp] theorem State.setLen_reply (s : State) (n : Nat) : (s.setLen n).reply = s.reply := rfl
@[simp] theorem State.setLen_params (s : State) (n : Nat) : (s.setLen n).params = s.params := rfl
@[simp] theorem State.setLen_P (s : State) (n : Nat) : (s.setLen n).P = s.P := rfl

/-! ### setBuf -/

@[simp] theorem State.setBuf_x (s : State) (m : Memory) : (s.setBuf m).x = s.x := rfl
@[simp] theorem State.setBuf_buf (s : State) (m : Memory) : (s.setBuf m).buf = m := rfl
@[simp] theorem State.setBuf_len (s : State) (m : Memory) : (s.setBuf m).len = s.len := rfl
@[simp] theorem State.setBuf_ctrl (s : State) (m : Memory) : (s.setBuf m).ctrl = s.ctrl := rfl
@[simp] theorem State.setBuf_status (s : State) (m : Memory) : (s.setBuf m).status = s.status := rfl
@[simp] theorem State.setBuf_cmd (s : State) (m : Memory) : (s.setBuf m).cmd = s.cmd := rfl
@[simp] theorem State.setBuf_cfg (s : State) (m : Memory) : (s.setBuf m).cfg = s.cfg := rfl
@[simp] theorem State.setBuf_host (s : State) (m : Memory) : (s.setBuf m).host = s.host := rfl
@[simp] theorem State.setBuf_busyLeft (s : State) (m : Memory) : (s.setBuf m).busyLeft = s.busyLeft := rfl
@[simp] theorem State.setBuf_fresh (s : State) (m : Memory) : (s.setBuf m).fresh = s.fresh := rfl
@[simp] theorem State.setBuf_reply (s : State) (m : Memory) : (s.setBuf m).reply = s.reply := rfl
@[simp] theorem State.setBuf_params (s : State) (m : Memory) : (s.setBuf m).params = s.params := rfl
@[simp] theorem State.setBuf_P (s : State) (m : Memory) : (s.setBuf m).P = s.P := rfl

/-! ### accept -/

@[simp] theorem State.accept_x (s : State) (w : Word32) : (s.accept w).x = s.x := rfl
@[simp] theorem State.accept_buf (s : State) (w : Word32) : (s.accept w).buf = s.buf := rfl
@[simp] theorem State.accept_len (s : State) (w : Word32) : (s.accept w).len = s.len := rfl
@[simp] theorem State.accept_ctrl (s : State) (w : Word32) : (s.accept w).ctrl = s.ctrl := rfl
@[simp] theorem State.accept_status (s : State) (w : Word32) :
    (s.accept w).status = { s.status with busy := true, done := false, inf := false, noroot := false, oncurve := false, uncomp := false, leg := 0 } :=
    rfl
@[simp] theorem State.accept_cmd (s : State) (w : Word32) : (s.accept w).cmd = w := rfl
@[simp] theorem State.accept_cfg (s : State) (w : Word32) : (s.accept w).cfg = s.cfg := rfl
@[simp] theorem State.accept_host (s : State) (w : Word32) : (s.accept w).host = s.host := rfl
@[simp] theorem State.accept_busyLeft (s : State) (w : Word32) :
    (s.accept w).busyLeft = Config.busyAccesses s.fresh { s.held with cmd := w } :=
    rfl
@[simp] theorem State.accept_fresh (s : State) (w : Word32) : (s.accept w).fresh = s.fresh + 1 := rfl
@[simp] theorem State.accept_reply (s : State) (w : Word32) : (s.accept w).reply = s.reply := rfl
@[simp] theorem State.accept_params (s : State) (w : Word32) : (s.accept w).params = s.params := rfl
@[simp] theorem State.accept_P (s : State) (w : Word32) : (s.accept w).P = s.P := rfl

/-! ### complete -/

@[simp] theorem State.complete_x (s : State) : (s.complete).x = s.x := rfl
@[simp] theorem State.complete_buf (s : State) : (s.complete).buf = s.buf := rfl
@[simp] theorem State.complete_len (s : State) : (s.complete).len = s.len := rfl
@[simp] theorem State.complete_ctrl (s : State) : (s.complete).ctrl = s.ctrl := rfl
@[simp] theorem State.complete_status (s : State) :
    (s.complete).status = { s.status with busy := false, done := true } := rfl
@[simp] theorem State.complete_cmd (s : State) : (s.complete).cmd = s.cmd := rfl
@[simp] theorem State.complete_cfg (s : State) : (s.complete).cfg = s.cfg := rfl
@[simp] theorem State.complete_host (s : State) : (s.complete).host = s.host := rfl
@[simp] theorem State.complete_busyLeft (s : State) : (s.complete).busyLeft = s.busyLeft := rfl
@[simp] theorem State.complete_fresh (s : State) : (s.complete).fresh = s.fresh := rfl
@[simp] theorem State.complete_reply (s : State) : (s.complete).reply = s.reply := rfl
@[simp] theorem State.complete_params (s : State) : (s.complete).params = s.params := rfl
@[simp] theorem State.complete_P (s : State) : (s.complete).P = s.P := rfl
@[simp] theorem State.complete_held (s : State) : (s.complete).held = s.held := rfl

/-! ### raise -/

@[simp] theorem State.raise_x (s : State) (c : Cause) : (s.raise c).x = s.x := rfl
@[simp] theorem State.raise_buf (s : State) (c : Cause) : (s.raise c).buf = s.buf := rfl
@[simp] theorem State.raise_len (s : State) (c : Cause) : (s.raise c).len = s.len := rfl
@[simp] theorem State.raise_ctrl (s : State) (c : Cause) : (s.raise c).ctrl = s.ctrl := rfl
@[simp] theorem State.raise_status (s : State) (c : Cause) :
    (s.raise c).status = { s.status with err := true, errcode := c.code, busy := false, done := true } :=
    rfl
@[simp] theorem State.raise_cmd (s : State) (c : Cause) : (s.raise c).cmd = s.cmd := rfl
@[simp] theorem State.raise_cfg (s : State) (c : Cause) : (s.raise c).cfg = s.cfg := rfl
@[simp] theorem State.raise_host (s : State) (c : Cause) : (s.raise c).host = s.host := rfl
@[simp] theorem State.raise_busyLeft (s : State) (c : Cause) : (s.raise c).busyLeft = s.busyLeft := rfl
@[simp] theorem State.raise_fresh (s : State) (c : Cause) : (s.raise c).fresh = s.fresh := rfl
@[simp] theorem State.raise_reply (s : State) (c : Cause) : (s.raise c).reply = s.reply := rfl
@[simp] theorem State.raise_params (s : State) (c : Cause) : (s.raise c).params = s.params := rfl
@[simp] theorem State.raise_P (s : State) (c : Cause) : (s.raise c).P = s.P := rfl
@[simp] theorem State.raise_held (s : State) (c : Cause) : (s.raise c).held = s.held := rfl

/-! ### acknowledge -/

@[simp] theorem State.acknowledge_x (s : State) (v : Word32) : (s.acknowledge v).x = s.x := rfl
@[simp] theorem State.acknowledge_buf (s : State) (v : Word32) : (s.acknowledge v).buf = s.buf := rfl
@[simp] theorem State.acknowledge_len (s : State) (v : Word32) : (s.acknowledge v).len = s.len := rfl
@[simp] theorem State.acknowledge_ctrl (s : State) (v : Word32) : (s.acknowledge v).ctrl = s.ctrl := rfl
@[simp] theorem State.acknowledge_status (s : State) (v : Word32) :
    (s.acknowledge v).status = { s.status with done := s.status.done && !v.getLsbD 1, err := s.status.err && !v.getLsbD 2, errcode := if v.getLsbD 2 then 0 else s.status.errcode } :=
    rfl
@[simp] theorem State.acknowledge_cmd (s : State) (v : Word32) : (s.acknowledge v).cmd = s.cmd := rfl
@[simp] theorem State.acknowledge_cfg (s : State) (v : Word32) : (s.acknowledge v).cfg = s.cfg := rfl
@[simp] theorem State.acknowledge_host (s : State) (v : Word32) : (s.acknowledge v).host = s.host := rfl
@[simp] theorem State.acknowledge_busyLeft (s : State) (v : Word32) : (s.acknowledge v).busyLeft = s.busyLeft := rfl
@[simp] theorem State.acknowledge_fresh (s : State) (v : Word32) : (s.acknowledge v).fresh = s.fresh := rfl
@[simp] theorem State.acknowledge_reply (s : State) (v : Word32) : (s.acknowledge v).reply = s.reply := rfl
@[simp] theorem State.acknowledge_params (s : State) (v : Word32) : (s.acknowledge v).params = s.params := rfl
@[simp] theorem State.acknowledge_P (s : State) (v : Word32) : (s.acknowledge v).P = s.P := rfl
@[simp] theorem State.acknowledge_held (s : State) (v : Word32) : (s.acknowledge v).held = s.held := rfl

/-! ### setSingle -/

theorem State.setSingle_x (s : State) (r : RegNum) (v : Nat) : (s.setSingle r v).x = (s.setReg r.toNat v).x := rfl
@[simp] theorem State.setSingle_buf (s : State) (r : RegNum) (v : Nat) : (s.setSingle r v).buf = s.buf := rfl
@[simp] theorem State.setSingle_len (s : State) (r : RegNum) (v : Nat) : (s.setSingle r v).len = s.len := rfl
@[simp] theorem State.setSingle_ctrl (s : State) (r : RegNum) (v : Nat) : (s.setSingle r v).ctrl = s.ctrl := rfl
@[simp] theorem State.setSingle_status (s : State) (r : RegNum) (v : Nat) : (s.setSingle r v).status = s.status := rfl
@[simp] theorem State.setSingle_cmd (s : State) (r : RegNum) (v : Nat) : (s.setSingle r v).cmd = s.cmd := rfl
@[simp] theorem State.setSingle_cfg (s : State) (r : RegNum) (v : Nat) : (s.setSingle r v).cfg = s.cfg := rfl
@[simp] theorem State.setSingle_host (s : State) (r : RegNum) (v : Nat) : (s.setSingle r v).host = s.host := rfl
@[simp] theorem State.setSingle_busyLeft (s : State) (r : RegNum) (v : Nat) : (s.setSingle r v).busyLeft = s.busyLeft := rfl
@[simp] theorem State.setSingle_fresh (s : State) (r : RegNum) (v : Nat) : (s.setSingle r v).fresh = s.fresh := rfl
@[simp] theorem State.setSingle_reply (s : State) (r : RegNum) (v : Nat) : (s.setSingle r v).reply = s.reply := rfl
@[simp] theorem State.setSingle_params (s : State) (r : RegNum) (v : Nat) : (s.setSingle r v).params = s.params := rfl
@[simp] theorem State.setSingle_P (s : State) (r : RegNum) (v : Nat) : (s.setSingle r v).P = s.P := rfl

/-! ### setAff -/

theorem State.setAff_x (s : State) (r : RegNum) (a : Aff) :
    (s.setAff r a).x = ((s.setReg r.toNat a.px).setReg (r.toNat + 1) a.py).x :=
    rfl
@[simp] theorem State.setAff_buf (s : State) (r : RegNum) (a : Aff) : (s.setAff r a).buf = s.buf := rfl
@[simp] theorem State.setAff_len (s : State) (r : RegNum) (a : Aff) : (s.setAff r a).len = s.len := rfl
@[simp] theorem State.setAff_ctrl (s : State) (r : RegNum) (a : Aff) : (s.setAff r a).ctrl = s.ctrl := rfl
@[simp] theorem State.setAff_status (s : State) (r : RegNum) (a : Aff) : (s.setAff r a).status = s.status := rfl
@[simp] theorem State.setAff_cmd (s : State) (r : RegNum) (a : Aff) : (s.setAff r a).cmd = s.cmd := rfl
@[simp] theorem State.setAff_cfg (s : State) (r : RegNum) (a : Aff) : (s.setAff r a).cfg = s.cfg := rfl
@[simp] theorem State.setAff_host (s : State) (r : RegNum) (a : Aff) : (s.setAff r a).host = s.host := rfl
@[simp] theorem State.setAff_busyLeft (s : State) (r : RegNum) (a : Aff) : (s.setAff r a).busyLeft = s.busyLeft := rfl
@[simp] theorem State.setAff_fresh (s : State) (r : RegNum) (a : Aff) : (s.setAff r a).fresh = s.fresh := rfl
@[simp] theorem State.setAff_reply (s : State) (r : RegNum) (a : Aff) : (s.setAff r a).reply = s.reply := rfl
@[simp] theorem State.setAff_params (s : State) (r : RegNum) (a : Aff) : (s.setAff r a).params = s.params := rfl
@[simp] theorem State.setAff_P (s : State) (r : RegNum) (a : Aff) : (s.setAff r a).P = s.P := rfl

/-! ### setJac -/

theorem State.setJac_x (s : State) (r : RegNum) (j : Jac) :
    (s.setJac r j).x = (((s.setReg r.toNat j.X).setReg (r.toNat + 1) j.Y).setReg (r.toNat + 2) j.Z).x :=
    rfl
@[simp] theorem State.setJac_buf (s : State) (r : RegNum) (j : Jac) : (s.setJac r j).buf = s.buf := rfl
@[simp] theorem State.setJac_len (s : State) (r : RegNum) (j : Jac) : (s.setJac r j).len = s.len := rfl
@[simp] theorem State.setJac_ctrl (s : State) (r : RegNum) (j : Jac) : (s.setJac r j).ctrl = s.ctrl := rfl
@[simp] theorem State.setJac_status (s : State) (r : RegNum) (j : Jac) : (s.setJac r j).status = s.status := rfl
@[simp] theorem State.setJac_cmd (s : State) (r : RegNum) (j : Jac) : (s.setJac r j).cmd = s.cmd := rfl
@[simp] theorem State.setJac_cfg (s : State) (r : RegNum) (j : Jac) : (s.setJac r j).cfg = s.cfg := rfl
@[simp] theorem State.setJac_host (s : State) (r : RegNum) (j : Jac) : (s.setJac r j).host = s.host := rfl
@[simp] theorem State.setJac_busyLeft (s : State) (r : RegNum) (j : Jac) : (s.setJac r j).busyLeft = s.busyLeft := rfl
@[simp] theorem State.setJac_fresh (s : State) (r : RegNum) (j : Jac) : (s.setJac r j).fresh = s.fresh := rfl
@[simp] theorem State.setJac_reply (s : State) (r : RegNum) (j : Jac) : (s.setJac r j).reply = s.reply := rfl
@[simp] theorem State.setJac_params (s : State) (r : RegNum) (j : Jac) : (s.setJac r j).params = s.params := rfl
@[simp] theorem State.setJac_P (s : State) (r : RegNum) (j : Jac) : (s.setJac r j).P = s.P := rfl

/-! ### setInf -/

@[simp] theorem State.setInf_x (s : State) (b : Bool) : (s.setInf b).x = s.x := rfl
@[simp] theorem State.setInf_buf (s : State) (b : Bool) : (s.setInf b).buf = s.buf := rfl
@[simp] theorem State.setInf_len (s : State) (b : Bool) : (s.setInf b).len = s.len := rfl
@[simp] theorem State.setInf_ctrl (s : State) (b : Bool) : (s.setInf b).ctrl = s.ctrl := rfl
@[simp] theorem State.setInf_status (s : State) (b : Bool) : (s.setInf b).status = { s.status with inf := b } := rfl
@[simp] theorem State.setInf_cmd (s : State) (b : Bool) : (s.setInf b).cmd = s.cmd := rfl
@[simp] theorem State.setInf_cfg (s : State) (b : Bool) : (s.setInf b).cfg = s.cfg := rfl
@[simp] theorem State.setInf_host (s : State) (b : Bool) : (s.setInf b).host = s.host := rfl
@[simp] theorem State.setInf_busyLeft (s : State) (b : Bool) : (s.setInf b).busyLeft = s.busyLeft := rfl
@[simp] theorem State.setInf_fresh (s : State) (b : Bool) : (s.setInf b).fresh = s.fresh := rfl
@[simp] theorem State.setInf_reply (s : State) (b : Bool) : (s.setInf b).reply = s.reply := rfl
@[simp] theorem State.setInf_params (s : State) (b : Bool) : (s.setInf b).params = s.params := rfl
@[simp] theorem State.setInf_P (s : State) (b : Bool) : (s.setInf b).P = s.P := rfl
@[simp] theorem State.setInf_held (s : State) (b : Bool) : (s.setInf b).held = s.held := rfl

/-! ### setNoroot -/

@[simp] theorem State.setNoroot_x (s : State) (b : Bool) : (s.setNoroot b).x = s.x := rfl
@[simp] theorem State.setNoroot_buf (s : State) (b : Bool) : (s.setNoroot b).buf = s.buf := rfl
@[simp] theorem State.setNoroot_len (s : State) (b : Bool) : (s.setNoroot b).len = s.len := rfl
@[simp] theorem State.setNoroot_ctrl (s : State) (b : Bool) : (s.setNoroot b).ctrl = s.ctrl := rfl
@[simp] theorem State.setNoroot_status (s : State) (b : Bool) : (s.setNoroot b).status = { s.status with noroot := b } := rfl
@[simp] theorem State.setNoroot_cmd (s : State) (b : Bool) : (s.setNoroot b).cmd = s.cmd := rfl
@[simp] theorem State.setNoroot_cfg (s : State) (b : Bool) : (s.setNoroot b).cfg = s.cfg := rfl
@[simp] theorem State.setNoroot_host (s : State) (b : Bool) : (s.setNoroot b).host = s.host := rfl
@[simp] theorem State.setNoroot_busyLeft (s : State) (b : Bool) : (s.setNoroot b).busyLeft = s.busyLeft := rfl
@[simp] theorem State.setNoroot_fresh (s : State) (b : Bool) : (s.setNoroot b).fresh = s.fresh := rfl
@[simp] theorem State.setNoroot_reply (s : State) (b : Bool) : (s.setNoroot b).reply = s.reply := rfl
@[simp] theorem State.setNoroot_params (s : State) (b : Bool) : (s.setNoroot b).params = s.params := rfl
@[simp] theorem State.setNoroot_P (s : State) (b : Bool) : (s.setNoroot b).P = s.P := rfl
@[simp] theorem State.setNoroot_held (s : State) (b : Bool) : (s.setNoroot b).held = s.held := rfl

/-! ### setOncurve -/

@[simp] theorem State.setOncurve_x (s : State) (b : Bool) : (s.setOncurve b).x = s.x := rfl
@[simp] theorem State.setOncurve_buf (s : State) (b : Bool) : (s.setOncurve b).buf = s.buf := rfl
@[simp] theorem State.setOncurve_len (s : State) (b : Bool) : (s.setOncurve b).len = s.len := rfl
@[simp] theorem State.setOncurve_ctrl (s : State) (b : Bool) : (s.setOncurve b).ctrl = s.ctrl := rfl
@[simp] theorem State.setOncurve_status (s : State) (b : Bool) :
    (s.setOncurve b).status = { s.status with oncurve := b } :=
    rfl
@[simp] theorem State.setOncurve_cmd (s : State) (b : Bool) : (s.setOncurve b).cmd = s.cmd := rfl
@[simp] theorem State.setOncurve_cfg (s : State) (b : Bool) : (s.setOncurve b).cfg = s.cfg := rfl
@[simp] theorem State.setOncurve_host (s : State) (b : Bool) : (s.setOncurve b).host = s.host := rfl
@[simp] theorem State.setOncurve_busyLeft (s : State) (b : Bool) : (s.setOncurve b).busyLeft = s.busyLeft := rfl
@[simp] theorem State.setOncurve_fresh (s : State) (b : Bool) : (s.setOncurve b).fresh = s.fresh := rfl
@[simp] theorem State.setOncurve_reply (s : State) (b : Bool) : (s.setOncurve b).reply = s.reply := rfl
@[simp] theorem State.setOncurve_params (s : State) (b : Bool) : (s.setOncurve b).params = s.params := rfl
@[simp] theorem State.setOncurve_P (s : State) (b : Bool) : (s.setOncurve b).P = s.P := rfl
@[simp] theorem State.setOncurve_held (s : State) (b : Bool) : (s.setOncurve b).held = s.held := rfl

/-! ### setUncomp -/

@[simp] theorem State.setUncomp_x (s : State) (b : Bool) : (s.setUncomp b).x = s.x := rfl
@[simp] theorem State.setUncomp_buf (s : State) (b : Bool) : (s.setUncomp b).buf = s.buf := rfl
@[simp] theorem State.setUncomp_len (s : State) (b : Bool) : (s.setUncomp b).len = s.len := rfl
@[simp] theorem State.setUncomp_ctrl (s : State) (b : Bool) : (s.setUncomp b).ctrl = s.ctrl := rfl
@[simp] theorem State.setUncomp_status (s : State) (b : Bool) : (s.setUncomp b).status = { s.status with uncomp := b } := rfl
@[simp] theorem State.setUncomp_cmd (s : State) (b : Bool) : (s.setUncomp b).cmd = s.cmd := rfl
@[simp] theorem State.setUncomp_cfg (s : State) (b : Bool) : (s.setUncomp b).cfg = s.cfg := rfl
@[simp] theorem State.setUncomp_host (s : State) (b : Bool) : (s.setUncomp b).host = s.host := rfl
@[simp] theorem State.setUncomp_busyLeft (s : State) (b : Bool) : (s.setUncomp b).busyLeft = s.busyLeft := rfl
@[simp] theorem State.setUncomp_fresh (s : State) (b : Bool) : (s.setUncomp b).fresh = s.fresh := rfl
@[simp] theorem State.setUncomp_reply (s : State) (b : Bool) : (s.setUncomp b).reply = s.reply := rfl
@[simp] theorem State.setUncomp_params (s : State) (b : Bool) : (s.setUncomp b).params = s.params := rfl
@[simp] theorem State.setUncomp_P (s : State) (b : Bool) : (s.setUncomp b).P = s.P := rfl
@[simp] theorem State.setUncomp_held (s : State) (b : Bool) : (s.setUncomp b).held = s.held := rfl

/-! ### setLeg -/

@[simp] theorem State.setLeg_x (s : State) (v : BitVec 2) : (s.setLeg v).x = s.x := rfl
@[simp] theorem State.setLeg_buf (s : State) (v : BitVec 2) : (s.setLeg v).buf = s.buf := rfl
@[simp] theorem State.setLeg_len (s : State) (v : BitVec 2) : (s.setLeg v).len = s.len := rfl
@[simp] theorem State.setLeg_ctrl (s : State) (v : BitVec 2) : (s.setLeg v).ctrl = s.ctrl := rfl
@[simp] theorem State.setLeg_status (s : State) (v : BitVec 2) : (s.setLeg v).status = { s.status with leg := v } := rfl
@[simp] theorem State.setLeg_cmd (s : State) (v : BitVec 2) : (s.setLeg v).cmd = s.cmd := rfl
@[simp] theorem State.setLeg_cfg (s : State) (v : BitVec 2) : (s.setLeg v).cfg = s.cfg := rfl
@[simp] theorem State.setLeg_host (s : State) (v : BitVec 2) : (s.setLeg v).host = s.host := rfl
@[simp] theorem State.setLeg_busyLeft (s : State) (v : BitVec 2) : (s.setLeg v).busyLeft = s.busyLeft := rfl
@[simp] theorem State.setLeg_fresh (s : State) (v : BitVec 2) : (s.setLeg v).fresh = s.fresh := rfl
@[simp] theorem State.setLeg_reply (s : State) (v : BitVec 2) : (s.setLeg v).reply = s.reply := rfl
@[simp] theorem State.setLeg_params (s : State) (v : BitVec 2) : (s.setLeg v).params = s.params := rfl
@[simp] theorem State.setLeg_P (s : State) (v : BitVec 2) : (s.setLeg v).P = s.P := rfl
@[simp] theorem State.setLeg_held (s : State) (v : BitVec 2) : (s.setLeg v).held = s.held := rfl

/-! ### answer -/

@[simp] theorem State.answer_x (s : State) (r : HostReply) : (s.answer r).x = s.x := rfl
@[simp] theorem State.answer_buf (s : State) (r : HostReply) : (s.answer r).buf = s.buf := rfl
@[simp] theorem State.answer_len (s : State) (r : HostReply) : (s.answer r).len = s.len := rfl
@[simp] theorem State.answer_ctrl (s : State) (r : HostReply) : (s.answer r).ctrl = s.ctrl := rfl
@[simp] theorem State.answer_status (s : State) (r : HostReply) : (s.answer r).status = s.status := rfl
@[simp] theorem State.answer_cmd (s : State) (r : HostReply) : (s.answer r).cmd = s.cmd := rfl
@[simp] theorem State.answer_cfg (s : State) (r : HostReply) : (s.answer r).cfg = s.cfg := rfl
@[simp] theorem State.answer_host (s : State) (r : HostReply) : (s.answer r).host = s.host := rfl
@[simp] theorem State.answer_busyLeft (s : State) (r : HostReply) : (s.answer r).busyLeft = s.busyLeft := rfl
@[simp] theorem State.answer_fresh (s : State) (r : HostReply) : (s.answer r).fresh = s.fresh := rfl
@[simp] theorem State.answer_reply (s : State) (r : HostReply) : (s.answer r).reply = some r := rfl
@[simp] theorem State.answer_params (s : State) (r : HostReply) : (s.answer r).params = s.params := rfl
@[simp] theorem State.answer_P (s : State) (r : HostReply) : (s.answer r).P = s.P := rfl
@[simp] theorem State.answer_held (s : State) (r : HostReply) : (s.answer r).held = s.held := rfl

/-! ### answerFree -/

@[simp] theorem State.answerFree_x (s : State) (off : Nat) : (s.answerFree off).x = s.x := rfl
@[simp] theorem State.answerFree_buf (s : State) (off : Nat) : (s.answerFree off).buf = s.buf := rfl
@[simp] theorem State.answerFree_len (s : State) (off : Nat) : (s.answerFree off).len = s.len := rfl
@[simp] theorem State.answerFree_ctrl (s : State) (off : Nat) : (s.answerFree off).ctrl = s.ctrl := rfl
@[simp] theorem State.answerFree_status (s : State) (off : Nat) : (s.answerFree off).status = s.status := rfl
@[simp] theorem State.answerFree_cmd (s : State) (off : Nat) : (s.answerFree off).cmd = s.cmd := rfl
@[simp] theorem State.answerFree_cfg (s : State) (off : Nat) : (s.answerFree off).cfg = s.cfg := rfl
@[simp] theorem State.answerFree_host (s : State) (off : Nat) : (s.answerFree off).host = s.host := rfl
@[simp] theorem State.answerFree_busyLeft (s : State) (off : Nat) : (s.answerFree off).busyLeft = s.busyLeft := rfl
@[simp] theorem State.answerFree_fresh (s : State) (off : Nat) : (s.answerFree off).fresh = s.fresh + 1 := rfl
@[simp] theorem State.answerFree_reply (s : State) (off : Nat) :
    (s.answerFree off).reply = some (.data (Config.busyRead s.fresh off s.held)) :=
    rfl
@[simp] theorem State.answerFree_params (s : State) (off : Nat) : (s.answerFree off).params = s.params := rfl
@[simp] theorem State.answerFree_P (s : State) (off : Nat) : (s.answerFree off).P = s.P := rfl
@[simp] theorem State.answerFree_held (s : State) (off : Nat) : (s.answerFree off).held = s.held := rfl

end Sys2Proof.Machine
end

