-- ==== Sys2Proof/Laws/Memory.lean ====
section
/-! SUPPORT. The byte buffer: reading after a write, and every operation keeps the canonical form. -/

namespace Sys2Proof.Machine

@[simp] theorem Memory.byteAt_nil (a : Nat) : Memory.byteAt [] a = 0 := rfl

theorem Memory.byteAt_cons (k : Nat) (b : Byte) (m : Memory) (a : Nat) :
    Memory.byteAt ((k, b) :: m) a = if a = k then b else Memory.byteAt m a := rfl

theorem Memory.byteAt_filter_same (m : Memory) (a : Nat) :
    Memory.byteAt (m.filter fun cell => cell.1 != a) a = 0 := by
  induction m with
  | nil => rfl
  | cons cell rest ih =>
    obtain ⟨k, b⟩ := cell
    by_cases h : k = a
    · simpa [List.filter_cons, h] using ih
    · simpa [List.filter_cons, h, Memory.byteAt_cons, Ne.symm h] using ih

theorem Memory.byteAt_filter_other (m : Memory) {a a' : Nat} (h : a' ≠ a) :
    Memory.byteAt (m.filter fun cell => cell.1 != a) a' = Memory.byteAt m a' := by
  induction m with
  | nil => rfl
  | cons cell rest ih =>
    obtain ⟨k, b⟩ := cell
    by_cases hk : k = a
    · subst hk; simpa [List.filter_cons, Memory.byteAt_cons, h] using ih
    · simp [hk, Memory.byteAt_cons, ih]

theorem Memory.byteAt_insert (m : Memory) (a : Nat) (b : Byte) (hm : ∀ cell ∈ m, cell.1 ≠ a) (a' : Nat) :
    Memory.byteAt (Memory.insert m a b) a' = if a' = a then b else Memory.byteAt m a' := by
  induction m with
  | nil => rfl
  | cons cell rest ih =>
    obtain ⟨k, c⟩ := cell
    have hk : k ≠ a := hm (k, c) (by simp)
    have ih := ih fun cell hc => hm cell (by simp [hc])
    by_cases hlt : a < k
    · simp [Memory.insert, hlt, Memory.byteAt_cons]
    · simp only [Memory.insert, hlt, if_false, Memory.byteAt_cons, ih]
      by_cases h1 : a' = k
      · simp [h1, hk]
      · simp [h1]

/-- Read after write: the written byte at its index, every other byte as before. -/
theorem Memory.byteAt_set (m : Memory) (a : Nat) (b : Byte) (a' : Nat) :
    Memory.byteAt (Memory.set m a b) a' = if a' = a then b else Memory.byteAt m a' := by
  unfold Memory.set
  by_cases hb : b = Memory.blank
  · subst hb
    by_cases h : a' = a
    · subst h; simpa [Memory.blank] using Memory.byteAt_filter_same m a'
    · simpa [h] using Memory.byteAt_filter_other m h
  · simp only [hb, if_false]
    rw [Memory.byteAt_insert _ _ _ (by intro cell hc; simpa using (List.mem_filter.1 hc).2)]
    by_cases h : a' = a
    · simp [h]
    · simp [h, Memory.byteAt_filter_other m h]

/-- Read after a write of a byte string: its bytes from `a` on, every other byte as before. -/
theorem Memory.byteAt_setBytes (m : Memory) (a : Nat) (bs : List Byte) (a' : Nat) :
    Memory.byteAt (Memory.setBytes m a bs) a' =
      if a ≤ a' ∧ a' < a + bs.length then bs[a' - a]?.getD 0 else Memory.byteAt m a' := by
  induction bs generalizing m a with
  | nil =>
    simp only [Memory.setBytes, List.length_nil, Nat.add_zero]
    rw [if_neg (by omega)]
  | cons b bs ih =>
    simp only [Memory.setBytes, ih, List.length_cons, Memory.byteAt_set]
    by_cases h1 : a + 1 ≤ a' ∧ a' < a + 1 + bs.length
    · have h2 : a ≤ a' ∧ a' < a + (bs.length + 1) := by omega
      obtain ⟨d, hd⟩ : ∃ d, a' - a = d + 1 := ⟨a' - a - 1, by omega⟩
      have hd' : a' - (a + 1) = d := by omega
      simp [h1, h2, hd, hd']
    · by_cases h3 : a' = a
      · subst h3; simp
      · have h4 : ¬ (a ≤ a' ∧ a' < a + (bs.length + 1)) := by omega
        rw [if_neg h1, if_neg h3, if_neg h4]

theorem Memory.canonicalFrom_mono {size : Nat} {lo lo' : Nat} {m : Memory} (h : lo' ≤ lo) (hm : Memory.canonicalFrom size lo m = true) :
    Memory.canonicalFrom size lo' m = true := by
  cases m with
  | nil => rfl
  | cons cell rest =>
    obtain ⟨k, b⟩ := cell
    simp only [Memory.canonicalFrom, Bool.and_eq_true, decide_eq_true_eq] at hm ⊢
    exact ⟨⟨⟨by omega, hm.1.1.2⟩, hm.1.2⟩, hm.2⟩

theorem Memory.canonicalFrom_filter {size : Nat} {lo : Nat} {m : Memory} (p : Host.Cell → Bool)
    (hm : Memory.canonicalFrom size lo m = true) : Memory.canonicalFrom size lo (m.filter p) = true := by
  induction m generalizing lo with
  | nil => rfl
  | cons cell rest ih =>
    obtain ⟨k, b⟩ := cell
    simp only [Memory.canonicalFrom, Bool.and_eq_true, decide_eq_true_eq] at hm
    by_cases hp : p (k, b) = true
    · rw [List.filter_cons_of_pos hp]
      simp only [Memory.canonicalFrom, Bool.and_eq_true, decide_eq_true_eq]
      exact ⟨hm.1, ih hm.2⟩
    · rw [List.filter_cons_of_neg hp]
      exact Memory.canonicalFrom_mono (by omega) (ih hm.2)

theorem Memory.canonicalFrom_insert {size : Nat} {lo : Nat} {m : Memory} {a : Nat} {b : Byte} (hlo : lo ≤ a) (ha : a < size)
    (hb : b ≠ Memory.blank) (hm : Memory.canonicalFrom size lo m = true) (hne : ∀ cell ∈ m, cell.1 ≠ a) :
    Memory.canonicalFrom size lo (Memory.insert m a b) = true := by
  induction m generalizing lo with
  | nil => simp [Memory.insert, Memory.canonicalFrom, hlo, ha, hb]
  | cons cell rest ih =>
    obtain ⟨k, c⟩ := cell
    have hk : k ≠ a := hne (k, c) (by simp)
    simp only [Memory.canonicalFrom, Bool.and_eq_true, decide_eq_true_eq] at hm
    by_cases hlt : a < k
    · simp only [Memory.insert, hlt, if_true, Memory.canonicalFrom, Bool.and_eq_true, decide_eq_true_eq]
      exact ⟨⟨⟨hlo, ha⟩, hb⟩, ⟨⟨by omega, hm.1.1.2⟩, hm.1.2⟩, hm.2⟩
    · simp only [Memory.insert, hlt, if_false, Memory.canonicalFrom, Bool.and_eq_true, decide_eq_true_eq]
      exact ⟨hm.1, ih (by omega) hm.2 fun cell hc => hne cell (by simp [hc])⟩

/-- A byte write inside `BUF` keeps the canonical form. -/
theorem Memory.wf_set {size : Nat} {m : Memory} (hm : m.wf size = true) {a : Nat} (ha : a < size) (b : Byte) :
    (Memory.set m a b).wf size = true := by
  have hf := Memory.canonicalFrom_filter (fun cell => cell.1 != a) hm
  unfold Memory.set Memory.wf
  by_cases hb : b = Memory.blank
  · simpa [hb] using hf
  · simp only [hb, if_false]
    exact Memory.canonicalFrom_insert (Nat.zero_le _) ha hb hf
      (by intro cell hc; simpa using (List.mem_filter.1 hc).2)

/-- A byte-string write inside `BUF` keeps the canonical form. -/
theorem Memory.wf_setBytes {size : Nat} {m : Memory} (hm : m.wf size = true) {a : Nat} {bs : List Byte} (ha : a + bs.length ≤ size) :
    (Memory.setBytes m a bs).wf size = true := by
  induction bs generalizing m a with
  | nil => exact hm
  | cons b bs ih =>
    simp only [List.length_cons] at ha
    exact ih (Memory.wf_set hm (by omega) b) (by omega)

/-- `MemWrite` keeps the canonical form. -/
theorem Memory.wf_writeBytes {size : Nat} {m m' : Memory} (hm : m.wf size = true) {a : Nat} {bs : List Byte}
    (h : m.writeBytes size a bs = some m') : m'.wf size = true := by
  unfold Memory.writeBytes at h
  split at h
  · cases h; exact Memory.wf_setBytes hm ‹_›
  · cases h

/-- What `MemWrite` does where it is in range. -/
theorem Memory.writeBytes_eq {size : Nat} {m : Memory} {a : Nat} {bs : List Byte} (h : a + bs.length ≤ size) :
    m.writeBytes size a bs = some (m.setBytes a bs) := by simp [Memory.writeBytes, h]

/-- What `MemRead` gives where it is in range. -/
theorem Memory.readBytes_eq {size : Nat} {m : Memory} {j n : Nat} (h : j + n ≤ size) :
    m.readBytes size j n = some ((List.range n).map fun k => m.byteAt (j + k)) := by simp [Memory.readBytes, h]

/-- The canonical form decides equality: two canonical buffers with the same bytes are the same list. -/
theorem Memory.byteAt_below {size : Nat} {lo : Nat} {m : Memory} (hm : Memory.canonicalFrom size lo m = true) {a : Nat} (h : a < lo) :
    m.byteAt a = 0 := by
  induction m generalizing lo with
  | nil => rfl
  | cons cell rest ih =>
    obtain ⟨k, b⟩ := cell
    simp only [Memory.canonicalFrom, Bool.and_eq_true, decide_eq_true_eq] at hm
    rw [Memory.byteAt_cons, if_neg (by omega)]
    exact ih hm.2 (by omega)

theorem Memory.canonical_ext_from {size : Nat} {lo : Nat} {m m' : Memory} (hm : Memory.canonicalFrom size lo m = true)
    (hm' : Memory.canonicalFrom size lo m' = true) (h : ∀ a, m.byteAt a = m'.byteAt a) : m = m' := by
  induction m generalizing lo m' with
  | nil =>
    cases m' with
    | nil => rfl
    | cons cell rest =>
      obtain ⟨k, b⟩ := cell
      simp only [Memory.canonicalFrom, Bool.and_eq_true, decide_eq_true_eq] at hm'
      have := h k
      simp [Memory.byteAt_cons] at this
      exact absurd this.symm hm'.1.2
  | cons cell rest ih =>
    obtain ⟨k, b⟩ := cell
    simp only [Memory.canonicalFrom, Bool.and_eq_true, decide_eq_true_eq] at hm
    cases m' with
    | nil =>
      have := h k
      simp [Memory.byteAt_cons] at this
      exact absurd this hm.1.2
    | cons cell' rest' =>
      obtain ⟨k', b'⟩ := cell'
      simp only [Memory.canonicalFrom, Bool.and_eq_true, decide_eq_true_eq] at hm'
      have hkk : k = k' := by
        rcases Nat.lt_trichotomy k k' with hlt | heq | hgt
        · have h1 := h k
          rw [Memory.byteAt_cons, if_pos rfl, Memory.byteAt_cons, if_neg (by omega),
            Memory.byteAt_below hm'.2 (by omega)] at h1
          exact absurd h1 hm.1.2
        · exact heq
        · have h1 := h k'
          rw [Memory.byteAt_cons, if_neg (by omega), Memory.byteAt_below hm.2 (by omega), Memory.byteAt_cons,
            if_pos rfl] at h1
          exact absurd h1.symm hm'.1.2
      subst hkk
      have hbb : b = b' := by simpa [Memory.byteAt_cons] using h k
      subst hbb
      congr 1
      refine ih hm.2 hm'.2 fun a => ?_
      by_cases ha : a = k
      · subst ha
        rw [Memory.byteAt_below hm.2 (by omega), Memory.byteAt_below hm'.2 (by omega)]
      · simpa [Memory.byteAt_cons, ha] using h a

/-- Equal contents are equal data. -/
theorem Memory.canonical_ext {size : Nat} {m m' : Memory} (hm : m.wf size = true) (hm' : m'.wf size = true)
    (h : ∀ a, m.byteAt a = m'.byteAt a) : m = m' := Memory.canonical_ext_from hm hm' h

theorem State.resetOf_buf_wf (cfg : Config) : (State.resetOf cfg).buf.wf cfg.BUFSZ = true := rfl

end Sys2Proof.Machine
end

