-- ==== Sys2Proof/Laws/Registers.lean ====
section
/-! SUPPORT. The data registers: reading after a write through each operand form. -/

namespace Sys2Proof.Machine

theorem regNum_lt (r : RegNum) : r.toNat < 16 := r.isLt

theorem pairOk_iff (r : RegNum) : pairOk r = true ↔ r.toNat ≤ 14 := by simp [pairOk]

theorem tripleOk_iff (r : RegNum) : tripleOk r = true ↔ r.toNat ≤ 13 := by simp [tripleOk]

theorem idxOk_iff (i : ParamIdx) : idxOk i = true ↔ i.toNat ≤ 5 := by simp [idxOk]

/-- A sized machine has the sixteen registers that command words name. -/
theorem State.Sized.length {s : State} (h : s.Sized) : s.x.length = 16 := h.2.2.1.trans h.2.1.1

/-- Every register of a sized machine is below `2^W`. -/
theorem State.Sized.reg_lt {s : State} (h : s.Sized) (i : Nat) : s.reg i < 2 ^ s.cfg.W := by
  unfold State.reg
  by_cases hi : i < s.x.length
  · rw [List.getElem?_eq_getElem hi]
    exact h.2.2.2 _ (List.getElem_mem hi)
  · rw [List.getElem?_eq_none (by omega)]
    exact Nat.two_pow_pos _

/-- Read after write of one register: the value modulo `2^W` at its number, every other register as before. -/
theorem State.reg_setReg (s : State) {i : Nat} (hi : i < s.x.length) (v j : Nat) :
    (s.setReg i v).reg j = if j = i then v % 2 ^ s.cfg.W else s.reg j := by
  unfold State.reg State.setReg
  by_cases h : j = i
  · subst h; simp [hi]
  · simp [h, Ne.symm h]

theorem State.reg_setReg_same (s : State) {i v : Nat} (hi : i < s.x.length) (hv : v < 2 ^ s.cfg.W) :
    (s.setReg i v).reg i = v := by
  rw [State.reg_setReg s hi, if_pos rfl, Nat.mod_eq_of_lt hv]

theorem State.reg_setReg_other (s : State) {i j : Nat} (h : j ≠ i) (v : Nat) : (s.setReg i v).reg j = s.reg j := by
  unfold State.reg State.setReg
  simp [Ne.symm h]

@[simp] theorem State.length_setReg (s : State) (i v : Nat) : (s.setReg i v).x.length = s.x.length := by
  simp [State.setReg]

/-- A register write keeps the sizes, whatever it writes. -/
theorem State.Sized.setReg {s : State} (h : s.Sized) (i v : Nat) : (s.setReg i v).Sized := by
  refine ⟨h.1, h.2.1, by simpa using h.2.2.1, fun u hu => ?_⟩
  rcases List.mem_or_eq_of_mem_set hu with hm | rfl
  · exact h.2.2.2 u hm
  · exact Nat.mod_lt _ (Nat.two_pow_pos _)

/-- What a single-register write does. -/
theorem State.setSingle_spec {s : State} (hs : s.Sized) (r : RegNum) {v : Nat} (hv : v < 2 ^ s.cfg.W) :
    (s.setSingle r v).reg r.toNat = v ∧ RegsKept s (s.setSingle r v) [r.toNat] :=
  ⟨State.reg_setReg_same s (by rw [hs.length]; exact regNum_lt r) hv, State.length_setReg _ _ _,
    fun _ hn => State.reg_setReg_other s (by simpa using hn) v⟩

/-- What an affine-pair write does. -/
theorem State.setAff_spec {s : State} (hs : s.Sized) {r : RegNum} (hr : pairOk r = true) {a : Aff}
    (hx : a.px < 2 ^ s.cfg.W) (hy : a.py < 2 ^ s.cfg.W) :
    (s.setAff r a).reg r.toNat = a.px ∧ (s.setAff r a).reg (r.toNat + 1) = a.py ∧
      RegsKept s (s.setAff r a) [r.toNat, r.toNat + 1] := by
  rw [pairOk_iff] at hr
  have hl := hs.length
  refine ⟨?_, ?_, by simp [State.setAff], ?_⟩
  · rw [State.setAff, State.reg_setReg_other _ (by omega), State.reg_setReg_same _ (by omega) hx]
  · rw [State.setAff, State.reg_setReg_same _ (by rw [State.length_setReg]; omega) (by exact hy)]
  · intro i hn
    simp only [List.mem_cons, List.not_mem_nil, or_false, not_or] at hn
    rw [State.setAff, State.reg_setReg_other _ hn.2, State.reg_setReg_other _ hn.1]

/-- What a Jacobian-triple write does. -/
theorem State.setJac_spec {s : State} (hs : s.Sized) {r : RegNum} (hr : tripleOk r = true) {j : Jac}
    (hX : j.X < 2 ^ s.cfg.W) (hY : j.Y < 2 ^ s.cfg.W) (hZ : j.Z < 2 ^ s.cfg.W) :
    (s.setJac r j).reg r.toNat = j.X ∧ (s.setJac r j).reg (r.toNat + 1) = j.Y ∧
      (s.setJac r j).reg (r.toNat + 2) = j.Z ∧
      RegsKept s (s.setJac r j) [r.toNat, r.toNat + 1, r.toNat + 2] := by
  rw [tripleOk_iff] at hr
  have hl := hs.length
  refine ⟨?_, ?_, ?_, by simp [State.setJac], ?_⟩
  · rw [State.setJac, State.reg_setReg_other _ (by omega), State.reg_setReg_other _ (by omega),
      State.reg_setReg_same _ (by omega) hX]
  · rw [State.setJac, State.reg_setReg_other _ (by omega), State.reg_setReg_same _ (by rw [State.length_setReg]; omega) (by exact hY)]
  · rw [State.setJac, State.reg_setReg_same _ (by rw [State.length_setReg, State.length_setReg]; omega) (by exact hZ)]
  · intro i hn
    simp only [List.mem_cons, List.not_mem_nil, or_false, not_or] at hn
    rw [State.setJac, State.reg_setReg_other _ hn.2.2, State.reg_setReg_other _ hn.2.1, State.reg_setReg_other _ hn.1]

/-- A state that shares the register file reads the same registers. -/
theorem State.reg_congr {s t : State} (h : t.x = s.x) (i : Nat) : t.reg i = s.reg i := by simp [State.reg, h]

end Sys2Proof.Machine
end

