-- ==== Sys2Proof/Laws/Ops.lean ====
section
/-! SUPPORT. How a command can end: one lemma per shared operation that says everything it can answer. -/

namespace Sys2Proof.Machine

theorem State.legally_true (s : State) (body : Result) : s.legally true body = body := rfl

theorem State.legally_false (s : State) (body : Result) : s.legally false body = .next (s.raise .illegal) := rfl

/-- What `legally` can answer. -/
theorem State.legally_cases {s : State} {ok : Bool} {body r : Result} (h : s.legally ok body = r) :
    (ok = true ∧ r = body) ∨ (ok = false ∧ r = .next (s.raise .illegal)) := by
  cases ok
  · exact .inr ⟨rfl, h.symm⟩
  · exact .inl ⟨rfl, h.symm⟩

theorem State.conclude_ok (s t : State) : s.conclude (.ok t) = .next t.complete := rfl

theorem State.conclude_error (s : State) (c : Cause) : s.conclude (.error c) = .next (s.raise c) := rfl

/-- What `conclude` can answer. -/
theorem State.conclude_cases {s : State} {e : Except Cause State} {r : Result} (h : s.conclude e = r) :
    (∃ t, e = .ok t ∧ r = .next t.complete) ∨ (∃ c, e = .error c ∧ r = .next (s.raise c)) := by
  cases e with
  | ok t => exact .inl ⟨t, rfl, h.symm⟩
  | error c => exact .inr ⟨c, rfl, h.symm⟩

theorem Except.map_cases {ε α β : Type} {f : α → β} {e : Except ε α} {r : Except ε β} (h : e.map f = r) :
    (∃ a, e = .ok a ∧ r = .ok (f a)) ∨ (∃ c, e = .error c ∧ r = .error c) := by
  cases e with
  | ok a => exact .inl ⟨a, rfl, h.symm⟩
  | error c => exact .inr ⟨c, rfl, h.symm⟩

/-- The byte string a command reads from `BUF` in range is `bufString`. -/
theorem State.readBytes_bufString {s : State} (h : s.len.toNat ≤ s.cfg.BUFSZ) :
    s.buf.readBytes s.cfg.BUFSZ 0 s.len.toNat = some s.bufString := by
  rw [Memory.readBytes_eq (by omega)]
  simp [State.bufString]

/-- What `withBuf` does: the bound check, then the body on the byte string. It never faults. -/
theorem State.withBuf_eq (s : State) (body : List Byte → Result) :
    s.withBuf body = if s.len.toNat > s.cfg.BUFSZ then .next (s.raise .bufLen) else body s.bufString := by
  unfold State.withBuf
  by_cases h : s.len.toNat > s.cfg.BUFSZ
  · simp [h]
  · simp only [h, if_false]
    rw [State.readBytes_bufString (by omega)]

theorem State.raise_eq_faulted (s : State) (c : Cause) : s.raise c = { s with status := s.status.faulted c } := rfl

theorem State.complete_eq_ended (s : State) : s.complete = { s with status := s.status.ended } := rfl

@[simp] theorem State.reg_complete (s : State) (i : Nat) : s.complete.reg i = s.reg i := rfl

@[simp] theorem State.reg_raise (s : State) (c : Cause) (i : Nat) : (s.raise c).reg i = s.reg i := rfl

@[simp] theorem State.reg_accept (s : State) (w : Word32) (i : Nat) : (s.accept w).reg i = s.reg i := rfl

@[simp] theorem State.reg_acknowledge (s : State) (v : Word32) (i : Nat) : (s.acknowledge v).reg i = s.reg i := rfl

@[simp] theorem State.reg_setInf (s : State) (b : Bool) (i : Nat) : (s.setInf b).reg i = s.reg i := rfl

@[simp] theorem State.reg_setNoroot (s : State) (b : Bool) (i : Nat) : (s.setNoroot b).reg i = s.reg i := rfl

@[simp] theorem State.reg_setOncurve (s : State) (b : Bool) (i : Nat) : (s.setOncurve b).reg i = s.reg i := rfl

@[simp] theorem State.reg_setUncomp (s : State) (b : Bool) (i : Nat) : (s.setUncomp b).reg i = s.reg i := rfl

@[simp] theorem State.reg_setLeg (s : State) (v : BitVec 2) (i : Nat) : (s.setLeg v).reg i = s.reg i := rfl

@[simp] theorem State.reg_setBuf (s : State) (m : Memory) (i : Nat) : (s.setBuf m).reg i = s.reg i := rfl

@[simp] theorem State.reg_setLen (s : State) (n : Nat) (i : Nat) : (s.setLen n).reg i = s.reg i := rfl

/-- No cause has the code 0 of "no fault" (R160). -/
theorem Cause.code_ne_zero (c : Cause) : c.code ≠ 0 := by cases c <;> decide

theorem Cause.code_le_seven (c : Cause) : c.code.toNat ≤ 7 := by cases c <;> decide

end Sys2Proof.Machine
end

