-- ==== Sys2Proof/Laws/Arith.lean ====
section
/-! SUPPORT. The field primitives: ranges, their meaning in the ring of integers modulo `P`, powers, inverses and byte strings. -/

namespace Sys2Proof.Machine

theorem mulP_lt {P : Nat} (h : 0 < P) (a b : Nat) : mulP P a b < P := Nat.mod_lt _ h

theorem addP_lt {P : Nat} (h : 0 < P) (a b : Nat) : addP P a b < P := Nat.mod_lt _ h

theorem dblP_lt {P : Nat} (h : 0 < P) (a : Nat) : dblP P a < P := Nat.mod_lt _ h

/-- `subP` as an integer: the residue of the integer difference (R8). -/
theorem subP_int {P : Nat} (h : 0 < P) (a b : Nat) : (subP P a b : Int) = ((a : Int) - b) % P := by
  have : 0 ≤ ((a : Int) - b) % P := Int.emod_nonneg _ (by omega)
  simp only [subP]
  omega

theorem subP_lt {P : Nat} (h : 0 < P) (a b : Nat) : subP P a b < P := by
  have h1 := subP_int h a b
  have h2 : ((a : Int) - b) % P < P := Int.emod_lt_of_pos _ (by omega)
  omega

@[simp] theorem mulP_cast (P a b : Nat) : ((mulP P a b : Nat) : ZMod P) = (a : ZMod P) * b := by
  simp [mulP]

@[simp] theorem addP_cast (P a b : Nat) : ((addP P a b : Nat) : ZMod P) = (a : ZMod P) + b := by
  simp [addP]

@[simp] theorem dblP_cast (P a : Nat) : ((dblP P a : Nat) : ZMod P) = 2 * (a : ZMod P) := by
  simp [dblP, two_mul]

theorem subP_cast {P : Nat} (h : 0 < P) (a b : Nat) : ((subP P a b : Nat) : ZMod P) = (a : ZMod P) - b := by
  have h1 : ((subP P a b : Int) : ZMod P) = ((((a : Int) - b) % P : Int) : ZMod P) := by rw [subP_int h]
  simpa using h1

/-- Two naturals below `P` with the same residue class are equal. -/
theorem eq_of_cast_eq {P a b : Nat} (ha : a < P) (hb : b < P) (h : (a : ZMod P) = (b : ZMod P)) : a = b := by
  have := (ZMod.natCast_eq_natCast_iff' a b P).1 h
  rwa [Nat.mod_eq_of_lt ha, Nat.mod_eq_of_lt hb] at this

/-- Square-and-multiply stays reduced. -/
theorem powLoop_mod (P fuel a e acc : Nat) (hacc : acc % P = acc) :
    powLoop P fuel a e acc % P = powLoop P fuel a e acc := by
  induction fuel generalizing a e acc with
  | zero => exact hacc
  | succ fuel ih =>
    unfold powLoop
    split
    · exact hacc
    · exact ih _ _ _ (by split <;> simp [mulP, hacc])

/-- Square-and-multiply computes the power. -/
theorem powLoop_cast (P fuel a e acc : Nat) (he : e ≤ fuel) :
    ((powLoop P fuel a e acc : Nat) : ZMod P) = acc * (a : ZMod P) ^ e := by
  induction fuel generalizing a e acc with
  | zero =>
    obtain rfl : e = 0 := by omega
    simp [powLoop]
  | succ fuel ih =>
    unfold powLoop
    by_cases h0 : e = 0
    · simp [h0]
    · rw [if_neg h0, ih _ _ _ (by omega)]
      by_cases hodd : e % 2 = 1
      · have he2 : e = 2 * (e / 2) + 1 := by omega
        conv_rhs => rw [he2, pow_succ, pow_mul, pow_two]
        simp [hodd]; ring
      · have he2 : e = 2 * (e / 2) := by omega
        conv_rhs => rw [he2, pow_mul, pow_two]
        simp [hodd]

/-- `expP(a, e) = a^e mod P` (R9). -/
theorem expP_eq (P a e : Nat) : expP P a e = a ^ e % P := by
  unfold expP
  rw [← powLoop_mod P e (a % P) e (1 % P) (by simp)]
  apply (ZMod.natCast_eq_natCast_iff' _ _ P).1
  rw [powLoop_cast P e _ e _ le_rfl]
  simp

@[simp] theorem expP_cast (P a e : Nat) : ((expP P a e : Nat) : ZMod P) = (a : ZMod P) ^ e := by
  simp [expP_eq]

theorem expP_lt {P : Nat} (h : 0 < P) (a e : Nat) : expP P a e < P := by
  rw [expP_eq]; exact Nat.mod_lt _ h

/-- Euclid's loop keeps `r ≡ t * v (mod P)` and ends at the greatest common divisor. -/
theorem euclid_spec (P v : Nat) (fuel r0 r1 : Nat) (t0 t1 : Int) (hf : r1 < fuel)
    (h0 : (P : Int) ∣ t0 * v - r0) (h1 : (P : Int) ∣ t1 * v - r1) :
    (P : Int) ∣ euclid fuel r0 r1 t0 t1 * v - Nat.gcd r0 r1 := by
  induction fuel generalizing r0 r1 t0 t1 with
  | zero => omega
  | succ fuel ih =>
    unfold euclid
    by_cases hr : r1 = 0
    · subst hr; simpa using h0
    · rw [if_neg hr]
      have hlt : r0 % r1 < fuel := by
        have := Nat.mod_lt r0 (Nat.pos_of_ne_zero hr); omega
      have hstep : (P : Int) ∣ (t0 - (r0 / r1 : Nat) * t1) * v - (r0 % r1 : Nat) := by
        have hdm : (r0 : Int) = (r1 : Int) * (r0 / r1 : Nat) + (r0 % r1 : Nat) := by
          exact_mod_cast (Nat.div_add_mod r0 r1).symm
        have : (t0 - (r0 / r1 : Nat) * t1) * v - (r0 % r1 : Nat)
            = (t0 * v - r0) - (r0 / r1 : Nat) * (t1 * v - r1) := by
          rw [hdm]; push_cast; ring
        rw [this]
        exact dvd_sub h0 (h1.mul_left _)
      have := ih r1 (r0 % r1) t1 _ hlt h1 hstep
      rwa [Nat.gcd_comm r0 r1, Nat.gcd_rec r1 r0, Nat.gcd_comm (r0 % r1) r1]

/-- What `invP` answers where the operand is coprime to `P` (R10). -/
theorem invP_ok {P a : Nat} (hP : 0 < P) (h : Nat.gcd (a % P) P = 1) :
    ∃ u, invP P a = .ok u ∧ u < P ∧ u * a % P = 1 % P := by
  set e := euclid (P + 1) P (a % P) 0 1 with he
  have hnn : 0 ≤ e % (P : Int) := Int.emod_nonneg _ (by omega)
  have hlt : e % (P : Int) < P := Int.emod_lt_of_pos _ (by omega)
  refine ⟨(e % (P : Int)).toNat, by simp [invP, h, he], by omega, ?_⟩
  have hmod : a % P < P + 1 := by have := Nat.mod_lt a hP; omega
  have hs := euclid_spec P (a % P) (P + 1) P (a % P) 0 1 hmod (by simp) (by simp)
  rw [← he, Nat.gcd_comm, h] at hs
  have hc : ((e : Int) : ZMod P) * (a : ZMod P) = 1 := by
    have := (ZMod.intCast_zmod_eq_zero_iff_dvd _ P).2 hs
    push_cast at this
    exact sub_eq_zero.1 (by simpa using this)
  have hu : (((e % (P : Int)).toNat : Nat) : ZMod P) = ((e : Int) : ZMod P) := by
    rw [← Int.cast_natCast, Int.toNat_of_nonneg hnn]
    simp
  apply (ZMod.natCast_eq_natCast_iff' _ _ P).1
  push_cast
  rw [hu, hc]

/-- What `invP` answers where the operand is not coprime to `P` (R10). -/
theorem invP_error {P a : Nat} (h : Nat.gcd (a % P) P ≠ 1) : invP P a = .error .notInvertible := by
  simp [invP, h]

/-- `invP` raises no other fault. -/
theorem invP_cases {P a : Nat} (hP : 0 < P) :
    (Nat.gcd (a % P) P = 1 ∧ ∃ u, invP P a = .ok u ∧ u < P ∧ u * a % P = 1 % P) ∨
      (Nat.gcd (a % P) P ≠ 1 ∧ invP P a = .error .notInvertible) := by
  by_cases h : Nat.gcd (a % P) P = 1
  · exact .inl ⟨h, invP_ok hP h⟩
  · exact .inr ⟨h, invP_error h⟩

/-- For a prime `P` an operand has an inverse exactly when `P` does not divide it. -/
theorem gcd_mod_prime {P a : Nat} (hP : Nat.Prime P) : Nat.gcd (a % P) P = 1 ↔ a % P ≠ 0 := by
  rw [Nat.gcd_comm, ← Nat.Coprime, Nat.Prime.coprime_iff_not_dvd hP]
  constructor
  · intro h h0; exact h (by rw [h0]; exact dvd_zero P)
  · intro h hd
    have : a % P < P := Nat.mod_lt _ hP.pos
    exact h (Nat.eq_zero_of_dvd_of_lt hd this)

theorem beDigits_append (fuel v : Nat) (tail : List Byte) : beDigits fuel v tail = beDigits fuel v [] ++ tail := by
  induction fuel generalizing v tail with
  | zero => rfl
  | succ fuel ih =>
    unfold beDigits
    by_cases h : v = 0
    · simp [h]
    · rw [if_neg h, if_neg h, ih, ih _ [BitVec.ofNat 8 v]]; simp

theorem beInt_append (xs ys : List Byte) : beInt (xs ++ ys) = beInt xs * 256 ^ ys.length + beInt ys := by
  unfold beInt
  rw [List.foldl_append]
  generalize List.foldl (fun acc b => acc * 256 + BitVec.toNat b) 0 xs = n
  induction ys using List.reverseRecOn generalizing n with
  | nil => simp
  | append_singleton ys y ih =>
    rw [List.foldl_append, List.foldl_append, ih]
    simp [pow_succ]; ring

/-- `be_int(be_min_bytes(v)) = v` (R11). -/
theorem beInt_beMinBytes (v : Nat) : beInt (beMinBytes v) = v := by
  suffices h : ∀ fuel v, v ≤ fuel → beInt (beDigits fuel v []) = v from h v v le_rfl
  intro fuel
  induction fuel with
  | zero => intro v hv; obtain rfl : v = 0 := by omega
            rfl
  | succ fuel ih =>
    intro v hv
    unfold beDigits
    by_cases h : v = 0
    · simp [h, beInt]
    · rw [if_neg h, beDigits_append, beInt_append, ih _ (by omega)]
      simp [beInt]; omega

/-- The length of `be_min_bytes(v)` is the least number of bytes that hold `v` (R11). -/
theorem beMinBytes_length_le {v n : Nat} (h : v < 256 ^ n) : (beMinBytes v).length ≤ n := by
  suffices H : ∀ fuel v n, v < 256 ^ n → (beDigits fuel v []).length ≤ n from H v v n h
  intro fuel
  induction fuel with
  | zero => intro v n _; simp [beDigits]
  | succ fuel ih =>
    intro v n hv
    unfold beDigits
    by_cases h0 : v = 0
    · simp [h0]
    · rw [if_neg h0, beDigits_append]
      cases n with
      | zero => simp at hv; omega
      | succ n =>
        have := ih (v / 256) n (by rw [pow_succ] at hv; omega)
        simp; omega

end Sys2Proof.Machine
end

