-- ==== Sys2Proof/Laws/Curve.lean ====
section
/-! SUPPORT. The point functions in the ring of integers modulo `P`: ranges, and what each coordinate is there. -/

namespace Sys2Proof.Machine

/-- A reduced natural whose class is that of the integer `z` is `z mod P`. -/
theorem int_of_cast_eq {P n : Nat} {z : Int} (h : n < P) (hc : (n : ZMod P) = (z : ZMod P)) : (n : Int) = z % P := by
  have hz : ((n : Int) : ZMod P) = (z : ZMod P) := by simpa using hc
  rw [ZMod.intCast_eq_intCast_iff] at hz
  rw [← hz, Int.emod_eq_of_lt] <;> omega

/-- The difference of congruent operands is 0. -/
theorem subP_eq_zero {P a b : Nat} (hP : 0 < P) : subP P a b = 0 ↔ a % P = b % P := by
  have h := subP_int hP a b
  have hz : ((a : Int) - b) % P = 0 ↔ (a : Int) % P = (b : Int) % P := Int.emod_eq_emod_iff_emod_sub_eq_zero.symm
  constructor
  · intro h0
    have := hz.1 (by omega)
    exact_mod_cast this
  · intro h0
    have := hz.2 (by exact_mod_cast h0)
    omega

theorem jadd_lt {P : Nat} (hP : 0 < P) (p q : Jac) :
    (jadd P p q).X < P ∧ (jadd P p q).Y < P ∧ (jadd P p q).Z < P :=
  ⟨subP_lt hP _ _, subP_lt hP _ _, mulP_lt hP _ _⟩

theorem jdbl_lt {P : Nat} (hP : 0 < P) (p : Jac) :
    (jdbl P p).X < P ∧ (jdbl P p).Y < P ∧ (jdbl P p).Z < P :=
  ⟨subP_lt hP _ _, subP_lt hP _ _, mulP_lt hP _ _⟩

/-- The three coordinates of JADD in the ring of integers modulo `P` (R102). -/
theorem jadd_cast {P : Nat} (hP : 0 < P) (p q : Jac) :
    let U1 : ZMod P := p.X * (q.Z : ZMod P) ^ 2
    let H : ZMod P := q.X * (p.Z : ZMod P) ^ 2 - U1
    let S1 : ZMod P := p.Y * (q.Z : ZMod P) ^ 3
    let R : ZMod P := q.Y * (p.Z : ZMod P) ^ 3 - S1
    ((jadd P p q).X : ZMod P) = R ^ 2 - H ^ 3 - 2 * (U1 * H ^ 2) ∧
      ((jadd P p q).Y : ZMod P) = R * (U1 * H ^ 2 - (R ^ 2 - H ^ 3 - 2 * (U1 * H ^ 2))) - S1 * H ^ 3 ∧
      ((jadd P p q).Z : ZMod P) = p.Z * q.Z * H := by
  refine ⟨?_, ?_, ?_⟩ <;> simp [jadd, subP_cast hP] <;> ring

/-- The three coordinates of JDBL in the ring of integers modulo `P` (R104). -/
theorem jdbl_cast {P : Nat} (hP : 0 < P) (p : Jac) :
    let D : ZMod P := 4 * p.X * (p.Y : ZMod P) ^ 2
    let E : ZMod P := 3 * (p.X : ZMod P) ^ 2
    ((jdbl P p).X : ZMod P) = E ^ 2 - 2 * D ∧
      ((jdbl P p).Y : ZMod P) = E * (D - (E ^ 2 - 2 * D)) - 8 * (p.Y : ZMod P) ^ 4 ∧
      ((jdbl P p).Z : ZMod P) = 2 * p.Y * p.Z := by
  refine ⟨?_, ?_, ?_⟩ <;> simp [jdbl, subP_cast hP] <;> ring

/-- What the lowering answers where `Z` has an inverse (R101). -/
theorem lowerPt_ok {P : Nat} (hP : 0 < P) {j : Jac} (h : Nat.gcd (j.Z % P) P = 1) :
    ∃ a, lowerPt P j = .ok a ∧ a.px < P ∧ a.py < P ∧ (a.px : ZMod P) * (j.Z : ZMod P) ^ 2 = j.X ∧
      (a.py : ZMod P) * (j.Z : ZMod P) ^ 3 = j.Y := by
  obtain ⟨u, hu, _, hm⟩ := invP_ok hP h
  have hc : (u : ZMod P) * j.Z = 1 := by
    have := (ZMod.natCast_eq_natCast_iff' (u * j.Z) 1 P).2 (by simpa using hm)
    simpa using this
  refine ⟨{ px := mulP P j.X (mulP P u u), py := mulP P j.Y (mulP P (mulP P u u) u) }, by simp only [lowerPt, hu],
    mulP_lt hP _ _, mulP_lt hP _ _, ?_, ?_⟩
  · simp only [mulP_cast]
    linear_combination (j.X : ZMod P) * ((u : ZMod P) * j.Z + 1) * hc
  · simp only [mulP_cast]
    linear_combination (j.Y : ZMod P) * (((u : ZMod P) * j.Z) ^ 2 + (u : ZMod P) * j.Z + 1) * hc

/-- What the lowering answers where `Z` has none (R101). -/
theorem lowerPt_error {P : Nat} {j : Jac} (h : Nat.gcd (j.Z % P) P ≠ 1) : lowerPt P j = .error .notInvertible := by
  simp [lowerPt, invP_error h]

theorem scalarLoop_append (P : Nat) (base : Jac) (bits : List Bool) (b : Bool) :
    scalarLoop P base (bits ++ [b]) = scalarBit P base (scalarLoop P base bits) b := by
  simp [scalarLoop]

end Sys2Proof.Machine
end

