-- ==== Sys2Proof/Laws/Commands.lean ====
section
/-! SUPPORT. What a completed write of one operand form leaves, in the terms claims use. -/

namespace Sys2Proof.Machine

/-- Completing a write of one register. -/
theorem completes_setSingle {s : State} (hs : s.Sized) (rd : RegNum) {v : Nat} (hv : v < 2 ^ s.cfg.W) :
    (s.setSingle rd v).complete.reg rd.toNat = v ∧
      CompletesKeeping s (s.setSingle rd v).complete [rd.toNat] s.status.ended :=
  have h := State.setSingle_spec hs rd hv
  ⟨h.1, h.2, fun _ _ => rfl, rfl, rfl, rfl, rfl, rfl, rfl, rfl, rfl, rfl⟩

/-- Completing a write of an affine pair. -/
theorem completes_setAff {s : State} (hs : s.Sized) {rd : RegNum} {a : Aff} (hr : pairOk rd = true)
    (hx : a.px < 2 ^ s.cfg.W) (hy : a.py < 2 ^ s.cfg.W) :
    (s.setAff rd a).complete.reg rd.toNat = a.px ∧ (s.setAff rd a).complete.reg (rd.toNat + 1) = a.py ∧
      CompletesKeeping s (s.setAff rd a).complete [rd.toNat, rd.toNat + 1] s.status.ended :=
  have h := State.setAff_spec hs hr hx hy
  ⟨h.1, h.2.1, h.2.2, fun _ _ => rfl, rfl, rfl, rfl, rfl, rfl, rfl, rfl, rfl, rfl⟩

/-- Completing a write of a Jacobian triple. -/
theorem completes_setJac {s : State} (hs : s.Sized) {rd : RegNum} {j : Jac} (hr : tripleOk rd = true)
    (hX : j.X < 2 ^ s.cfg.W) (hY : j.Y < 2 ^ s.cfg.W) (hZ : j.Z < 2 ^ s.cfg.W) :
    (s.setJac rd j).complete.reg rd.toNat = j.X ∧ (s.setJac rd j).complete.reg (rd.toNat + 1) = j.Y ∧
      (s.setJac rd j).complete.reg (rd.toNat + 2) = j.Z ∧
      CompletesKeeping s (s.setJac rd j).complete [rd.toNat, rd.toNat + 1, rd.toNat + 2] s.status.ended :=
  have h := State.setJac_spec hs hr hX hY hZ
  ⟨h.1, h.2.1, h.2.2.1, h.2.2.2, fun _ _ => rfl, rfl, rfl, rfl, rfl, rfl, rfl, rfl, rfl, rfl⟩

/-- A fault as every claim writes it. -/
theorem faultsWith_raise (s : State) (c : Cause) : FaultsWith (.next (s.raise c)) s c := rfl

end Sys2Proof.Machine
end

