-- ==== Sys2Proof/Laws/PerInstr.lean ====
section
/-! SUPPORT. A fact of every instruction as syntax, one lemma per constructor: the bits its format fixes read, in its encoding,
as its opcode's match word (R61, R64, R65). -/

namespace Sys2Proof.Laws.FixedBits

-- one theorem at a time, so that the kernel evaluations below do not each hold a thread
set_option Elab.async false

/-- The encoding of `i` has the match word of `i` under the mask of its format. -/
def Statement (i : Instr) : Prop := encode i &&& i.format.mask = i.matchWord

theorem modmul (rd : RegNum) (ra : RegNum) (rb : RegNum) : Statement (.modmul rd ra rb) := by
  revert rd ra rb; unfold Statement; decide +kernel

theorem modinv (rd : RegNum) (ra : RegNum) : Statement (.modinv rd ra) := by
  revert rd ra; unfold Statement; decide +kernel

theorem legendre (rd : RegNum) (ra : RegNum) : Statement (.legendre rd ra) := by
  revert rd ra; unfold Statement; decide +kernel

theorem sqrt (rd : RegNum) (ra : RegNum) : Statement (.sqrt rd ra) := by
  revert rd ra; unfold Statement; decide +kernel

theorem lift (rd : RegNum) (ra : RegNum) : Statement (.lift rd ra) := by
  revert rd ra; unfold Statement; decide +kernel

theorem lower (rd : RegNum) (ra : RegNum) : Statement (.lower rd ra) := by
  revert rd ra; unfold Statement; decide +kernel

theorem jadd (rd : RegNum) (ra : RegNum) (rb : RegNum) : Statement (.jadd rd ra rb) := by
  revert rd ra rb; unfold Statement; decide +kernel

theorem jdbl (rd : RegNum) (ra : RegNum) : Statement (.jdbl rd ra) := by
  revert rd ra; unfold Statement; decide +kernel

theorem padd (rd : RegNum) (ra : RegNum) (rb : RegNum) : Statement (.padd rd ra rb) := by
  revert rd ra rb; unfold Statement; decide +kernel

theorem pdbl (rd : RegNum) (ra : RegNum) : Statement (.pdbl rd ra) := by
  revert rd ra; unfold Statement; decide +kernel

theorem oncurve (ra : RegNum) : Statement (.oncurve ra) := by
  revert ra; unfold Statement; decide +kernel

theorem smul (rd : RegNum) (ra : RegNum) : Statement (.smul rd ra) := by
  revert rd ra; unfold Statement; decide +kernel

theorem sbmul (rd : RegNum) : Statement (.sbmul rd) := by
  revert rd; unfold Statement; decide +kernel

theorem compress (ra : RegNum) : Statement (.compress ra) := by
  revert ra; unfold Statement; decide +kernel

theorem decompress (rd : RegNum) : Statement (.decompress rd) := by
  revert rd; unfold Statement; decide +kernel

theorem ldparam (rd : RegNum) (idx : ParamIdx) : Statement (.ldparam rd idx) := by
  revert rd idx; unfold Statement; decide +kernel

end Sys2Proof.Laws.FixedBits
end

