-- ==== Sys2Proof/Tests/Slice0.lean ====
section
/-! SUPPORT. Tests of the model against the spec's own numbers (95_test_vectors.md), and for every statement with
hypotheses a concrete state and operands that meet them. -/

namespace Sys2Proof.Tests

-- one theorem at a time, so that the kernel evaluations below do not each hold a thread
set_option Elab.async false

open Sys2Proof Sys2Proof.Machine

/-! ### Well-formedness and decoding -/

theorem test_wf_refuses_pair_15 : (Instr.padd 15 0 0).wf = false ∧ (Instr.padd 0 15 0).wf = false ∧
    (Instr.padd 0 0 15).wf = false ∧ (Instr.pdbl 15 0).wf = false ∧ (Instr.pdbl 0 15).wf = false ∧
    (Instr.lift 0 15).wf = false ∧ (Instr.lower 15 0).wf = false ∧ (Instr.oncurve 15).wf = false ∧
    (Instr.smul 15 0).wf = false ∧ (Instr.smul 0 15).wf = false ∧ (Instr.sbmul 15).wf = false ∧
    (Instr.compress 15).wf = false ∧ (Instr.decompress 15).wf = false := by decide

theorem test_wf_refuses_triple_14 : (Instr.lift 14 0).wf = false ∧ (Instr.lower 0 14).wf = false ∧
    (Instr.jadd 14 0 0).wf = false ∧ (Instr.jadd 0 14 0).wf = false ∧ (Instr.jadd 0 0 14).wf = false ∧
    (Instr.jdbl 14 0).wf = false ∧ (Instr.jdbl 0 14).wf = false := by decide

theorem test_wf_refuses_index_6 : (Instr.ldparam 0 6).wf = false ∧ (Instr.ldparam 0 15).wf = false := by decide

theorem test_wf_admits_bounds : (Instr.modmul 15 15 15).wf = true ∧ (Instr.jadd 13 13 13).wf = true ∧
    (Instr.padd 14 14 14).wf = true ∧ (Instr.ldparam 15 5).wf = true := by decide

-- one word of every constructor, its fields written out in the order op, rd, ra, rb, idx, zero (R60, R64)
theorem test_decode_modmul : decode 0b00000001_0011_0001_0010_0000_00000000#32 = .ok (.modmul 3 1 2) := by decide
theorem test_decode_modinv : decode 0b00000010_0001_0000_0000_0000_00000000#32 = .ok (.modinv 1 0) := by decide
theorem test_decode_legendre : decode 0b00000011_0010_0001_0000_0000_00000000#32 = .ok (.legendre 2 1) := by decide
theorem test_decode_sqrt : decode 0b00000100_1111_1110_0000_0000_00000000#32 = .ok (.sqrt 15 14) := by decide
theorem test_decode_lift : decode 0b00010000_1101_1110_0000_0000_00000000#32 = .ok (.lift 13 14) := by decide
theorem test_decode_lower : decode 0b00010001_1110_1101_0000_0000_00000000#32 = .ok (.lower 14 13) := by decide
theorem test_decode_jadd : decode 0b00010010_1101_1100_1011_0000_00000000#32 = .ok (.jadd 13 12 11) := by decide
theorem test_decode_jdbl : decode 0b00010011_0101_0010_0000_0000_00000000#32 = .ok (.jdbl 5 2) := by decide
theorem test_decode_padd : decode 0b00010100_0100_0000_0010_0000_00000000#32 = .ok (.padd 4 0 2) := by decide
theorem test_decode_pdbl : decode 0b00010101_1110_0001_0000_0000_00000000#32 = .ok (.pdbl 14 1) := by decide
theorem test_decode_oncurve : decode 0b00010110_0000_1011_0000_0000_00000000#32 = .ok (.oncurve 11) := by decide
theorem test_decode_smul : decode 0b00100000_0010_0001_0000_0000_00000000#32 = .ok (.smul 2 1) := by decide
theorem test_decode_sbmul : decode 0b00100001_0110_0000_0000_0000_00000000#32 = .ok (.sbmul 6) := by decide
theorem test_decode_compress : decode 0b00110000_0000_1110_0000_0000_00000000#32 = .ok (.compress 14) := by decide
theorem test_decode_decompress : decode 0b00110001_1110_0000_0000_0000_00000000#32 = .ok (.decompress 14) := by decide
theorem test_decode_ldparam : decode 0b01000000_1111_0000_0000_0101_00000000#32 = .ok (.ldparam 15 5) := by decide

theorem test_decode_refuses_opcodes :
    [0x00000000#32, 0x05000000#32, 0x17000000#32, 0x22000000#32, 0x32000000#32, 0x41000000#32, 0x80000000#32,
      0xFFFFFFFF#32].all (fun w => decode w = .error .unknownOpcode) = true := by decide

theorem test_decode_refuses_unused_fields :
    [0x01312001#32, 0x01312100#32, 0x02101000#32, 0x16100000#32, 0x16001000#32, 0x21010000#32, 0x30100000#32,
      0x31010000#32, 0x40010000#32, 0x40001000#32, 0x40000001#32].all
      (fun w => decode w = .error .unusedFieldNonzero) = true := by decide

theorem test_decode_refuses_operands :
    [0x10E00000#32, 0x100F0000#32, 0x11F00000#32, 0x110E0000#32, 0x12E00000#32, 0x1200E000#32, 0x120E0000#32,
      0x130E0000#32, 0x14F00000#32, 0x1400F000#32, 0x15F00000#32, 0x160F0000#32, 0x20F00000#32, 0x21F00000#32,
      0x300F0000#32, 0x31F00000#32, 0x40000600#32, 0x40000F00#32].all
      (fun w => decode w = .error .operandOutOfRange) = true := by decide

theorem test_table_word : decodeTableWord 32 0x14402000 = some (.padd 4 0 2) := by decide

/-! ### Small states -/

/-- The toy sets of section 2, all with `B = 3` and base point `(1, 2)`. -/
def toy (P N bits : Nat) : CurveParams := { P := P, N := N, B := 3, Gx := 1, Gy := 2, bitSize := bits }

def toy19 : CurveParams := toy 19 13 5

def toy17 : CurveParams := toy 17 9 5

def toy13 : CurveParams := toy 13 3 4

/-- A reset machine with the set `c` in slot 0, the listed register values and the listed bytes in `BUF` with their
number in `LEN`. -/
def machine (c : CurveParams) (regs : List (Nat × Nat)) (bytes : List Byte) : State :=
  let s := { State.resetOf { Config.hardware with set0 := c } with len := BitVec.ofNat 8 bytes.length }
  regs.foldl (fun s r => s.setReg r.1 r.2) (s.setBuf (Memory.setBytes [] 0 bytes))

/-- The registers `js` and the `STATUS` word after the step that runs the command word `w`. -/
def after (s : State) (w : Nat) (js : List Nat) : Option (List Nat × Nat) :=
  match step (s.withFetchWord 32 w) with
  | .next t => some (js.map t.reg, t.status.word.toNat)
  | .fault _ => none
  | .refused _ => none

/-- The bytes of `BUF[0..LEN-1]` and the `STATUS` word after it. -/
def bufAfter (s : State) (w : Nat) : Option (List Nat × Nat) :=
  match step (s.withFetchWord 32 w) with
  | .next t => some (t.bufString.map BitVec.toNat, t.status.word.toNat)
  | .fault _ => none
  | .refused _ => none

/-! ### One step of each instruction (sections 3 to 8) -/

theorem test_modmul_reduces_operands : after (machine toy19 [(0, 25), (1, 30)] []) 0x01201000 [2] = some ([9], 0x2) := by
  decide +kernel

theorem test_modmul_widest : after (machine s112 [(0, 2 ^ 192 - 1), (1, 2 ^ 192 - 1)] []) 0x01201000 [2] =
    some ([0xFFFFFBCE093AE308FFFFFFFFFDE8], 0x2) := by decide +kernel

theorem test_modinv_s112 : after (machine s112 [(0, 0x0123456789ABCDEF0123456789AB)] []) 0x02100000 [1] =
    some ([0x29ECB64D305C127474D05D111B08], 0x2) := by decide +kernel

theorem test_modinv_faults : after (machine toy19 [(0, 38), (1, 77)] []) 0x02100000 [1] = some ([77], 0x20006) := by
  decide +kernel

/-- R4, R6: on a machine with other sizes a register of 64 bits, a buffer of 12 bytes and a window at 0x4000 follow
the configuration: the third word of a register and the fourth buffer word are reserved, 13 bytes are too many, an
access at offset 0x00C without `BASE` is refused. -/
theorem test_other_sizes :
    let s := State.resetOf { W := 64, NREG := 16, BUFSZ := 12, BASE := 0x4000, set0 := toy19, set1 := toy17 }
    (s.hostWrite 32 0x104 7).reg 0 = 7 * 2 ^ 32 ∧ (s.hostWrite 32 0x108 7).reg 0 = 0 ∧
      (s.hostWrite 32 0x308 7).buf = [(8, 7)] ∧ (s.hostWrite 32 0x30C 7).buf = [] ∧
      after { s with len := 13 } 0x21000000 [] = some ([], 0x60006) ∧
      (s.hostAct (.write 32 0x400C 5)).len = 5 ∧ (s.hostAct (.write 32 0x00C 5)).reply = some .refused := by
  decide +kernel

theorem test_legendre_nonresidue : after (machine toy19 [(1, 2)] []) 0x03210000 [2] = some ([18], 0x302) := by
  decide +kernel

theorem test_legendre_residue_and_zero : after (machine toy19 [(1, 4)] []) 0x03210000 [2] = some ([1], 0x102) ∧
    after (machine toy19 [(1, 19)] []) 0x03210000 [2] = some ([0], 0x2) := by decide +kernel

theorem test_sqrt_tonelli_shanks : after (machine toy17 [(1, 9)] []) 0x04210000 [2] = some ([14], 0x2) ∧
    after (machine toy17 [(1, 17), (2, 5)] []) 0x04210000 [2] = some ([0], 0x2) := by decide +kernel

theorem test_sqrt_fast_path_and_none : after (machine toy19 [(1, 23)] []) 0x04210000 [2] = some ([17], 0x2) ∧
    after (machine toy19 [(1, 2), (2, 5)] []) 0x04210000 [2] = some ([0], 0x22) := by decide +kernel

theorem test_lift_overlap : after (machine toy19 [(0, 20), (1, 21)] []) 0x10100000 [0, 1, 2, 3] =
    some ([20, 20, 21, 1], 0x2) := by decide +kernel

theorem test_lower_overlap : after (machine toy19 [(0, 15), (1, 8), (2, 4)] []) 0x11100000 [0, 1, 2] =
    some ([15, 14, 12], 0x2) := by decide +kernel

theorem test_lower_faults : after (machine toy19 [(0, 9), (4, 1), (5, 2), (6, 19)] []) 0x11040000 [0, 1] =
    some ([9, 0], 0x20006) := by decide +kernel

theorem test_jadd_formula : after (machine toy19 [(0, 15), (1, 8), (2, 4), (4, 1), (5, 2), (6, 1)] []) 0x12804000 [8, 9, 10] =
    some ([5, 14, 4], 0x2) := by decide +kernel

theorem test_jadd_opposite : after (machine toy19 [(0, 1), (1, 2), (2, 1), (4, 1), (5, 17), (6, 1)] []) 0x12804000 [8, 9, 10] =
    some ([16, 7, 0], 0x2) := by decide +kernel

theorem test_jdbl_formula : after (machine toy19 [(0, 15), (1, 8), (2, 4)] []) 0x13400000 [4, 5, 6] =
    some ([1, 17, 7], 0x2) := by decide +kernel

theorem test_jdbl_order_two : after (machine toy17 [(0, 10), (2, 1)] []) 0x13400000 [4, 5, 6] =
    some ([2, 12, 0], 0x2) := by decide +kernel

theorem test_padd_overlap : after (machine toy19 [(0, 1), (1, 2), (2, 14), (3, 12)] []) 0x14102000 [0, 1, 2, 3] =
    some ([1, 11, 2, 12], 0x2) := by decide +kernel

theorem test_padd_equal_faults : after (machine toy19 [(0, 1), (1, 2), (2, 1), (3, 2), (4, 7)] []) 0x14402000 [4, 5] =
    some ([7, 0], 0x20006) := by decide +kernel

theorem test_pdbl_s112 : after (machine s112 [(0, 1), (1, 2)] []) 0x15200000 [2, 3] =
    some ([0x0FFFFFFFFFFFFFFFFFFFFFFFFFDD, 0xF3FFFFFFFFFFFFFFFFFFFFFFFE00], 0x2) := by decide +kernel

theorem test_pdbl_order_two_faults : after (machine toy17 [(0, 10), (2, 7)] []) 0x15200000 [2, 3] =
    some ([7, 0], 0x20006) := by decide +kernel

theorem test_oncurve_unreduced : after (machine toy19 [(0, 20), (1, 21)] []) 0x16000000 [0, 1] = some ([20, 21], 0x42) := by
  decide +kernel

theorem test_oncurve_false : after (machine toy19 [(0, 1), (1, 3)] []) 0x16000000 [] = some ([], 0x2) := by decide +kernel

theorem test_smul_leading_zero : after (machine toy19 [(0, 1), (1, 2)] [0x00, 0x05]) 0x20200000 [2, 3] =
    some ([3, 12], 0x2) := by decide +kernel

theorem test_smul_zero_scalar : after (machine toy19 [(0, 1), (1, 2), (2, 7)] [0x00]) 0x20200000 [2, 3] =
    some ([0, 0], 0x12) := by decide +kernel

theorem test_sbmul_group_order : after (machine toy19 [(0, 7)] [0x0D]) 0x21000000 [0] = some ([7], 0x20006) ∧
    after (machine toy19 [] [0x0E]) 0x21000000 [0, 1] = some ([1, 2], 0x2) := by decide +kernel

theorem test_sbmul_buflen : after { machine toy19 [(0, 7)] [] with len := 65 } 0x21000000 [0] = some ([7], 0x60006) ∧
    after { machine toy19 [(0, 7)] [] with len := 65 } 0x21010000 [0] = some ([7], 0x10006) := by decide +kernel

theorem test_compress_parity : bufAfter (machine toy19 [(0, 1), (1, 17)] [9, 9, 9]) 0x30000000 = some ([3, 1], 0x2) ∧
    bufAfter (machine toy19 [(0, 0), (1, 7)] []) 0x30000000 = some ([3], 0x2) := by decide +kernel

theorem test_compress_two_bytes : bufAfter (machine toy19 [(0, 0x102), (1, 2 ^ 191 + 1)] []) 0x30000000 =
    some ([3, 1, 2], 0x2) := by decide +kernel

theorem test_decompress_root_zero : after (machine toy17 [] [3, 10]) 0x31000000 [0, 1] = some ([10, 17], 0x2) ∧
    after (machine toy19 [] [3, 0x14]) 0x31000000 [0, 1] = some ([20, 17], 0x2) := by decide +kernel

theorem test_decompress_other_ends :
    [[2, 255], [2, 0, 1], [5, 1], [], [4]].map (fun b => after (machine toy19 [(0, 7)] b) 0x31000000 [0]) =
      [some ([7], 0x50006), some ([7], 0x40006), some ([7], 0x30006), some ([7], 0x30006), some ([7], 0x82)] := by
  decide +kernel

theorem test_ldparam_values :
    [0x40000000, 0x40000100, 0x40000200, 0x40000300, 0x40000400, 0x40000500].map (fun w => after State.reset w [0]) =
      [some ([s112.P], 2), some ([s112.N], 2), some ([3], 2), some ([1], 2), some ([2], 2), some ([112], 2)] := by
  decide +kernel

theorem test_ldparam_second_set :
    after { State.reset with ctrl := { curve := true, ie := false } } 0x40000500 [0] = some ([160], 2) := by
  decide +kernel

/-- E_INTERNAL can be raised where `P` is not prime (R143, R160): no non-residue, or no exponent. -/
theorem test_internal_reachable : sqrtP 21 8 = .error .internal ∧
    after (machine (toy 21 1 5) [(1, 8)] []) 0x04210000 [2] = some ([0], 0x70006) := by decide +kernel

/-! ### Montgomery example, host port, assembler (R81, sections 10 and 12) -/

theorem test_montgomery_example : montPinv 8 19 = 229 ∧ montR2 8 19 = 5 ∧ redc 8 19 77 = 17 ∧ redc 8 19 85 = 1 := by
  decide +kernel

theorem test_write_buffer_word : ((State.reset.hostWrite 32 0x300 0x01000002).bufWord 0 = 0x01000002) ∧
    (State.reset.hostWrite 32 0x300 0x01000002).buf = [(0, 2), (3, 1)] := by decide +kernel

theorem test_write_register_word : (State.reset.hostWrite 32 0x2F4 0x80000000).reg 15 = 2 ^ 191 ∧
    (State.reset.hostWrite 32 0x118 5).reg 0 = 0 := by decide +kernel

theorem test_write_ctrl_and_len : (State.reset.hostWrite 32 0x000 0xFFFFFFFF).ctrl.word = 0x3 ∧
    (State.reset.hostWrite 32 0x00C 0x141).len = 0x41 := by decide +kernel

theorem test_acknowledge :
    ({ State.reset with status := Status.zero.faulted .notInvertible }.hostWrite 32 0x004 0xFFFFFFFF).status.word = 0 ∧
      ({ State.reset with status := Status.zero.faulted .notInvertible }.hostWrite 32 0x004 0x4).status.word = 2 ∧
      ({ State.reset with status := Status.zero.faulted .notInvertible }.hostWrite 32 0x008 0x40000300).cmd = 0 := by
  decide +kernel

theorem test_busy_write_dropped_and_status_read :
    ((State.reset.accept 0x21000000).hostWrite 32 0x00C 7).len = 0 ∧
      ((State.reset.accept 0x21000000).hostRead 32 0x004).reply = some (.data 1) := by decide +kernel

theorem test_narrow_access_refused : (State.reset.hostWrite 16 0x00C 7).reply = some .refused ∧
    (State.reset.hostRead 32 0x102).reply = some .refused := by decide +kernel

theorem test_reset_while_busy :
    ({ (machine toy19 [(0, 7)] [1]).accept 0x21000000 with host := [.reset], busyLeft := 1 }.hostStep).reg 0 = 0 := by
  decide +kernel

theorem test_assemble_line : (assemble "padd x4, x0, x2".toList).map encode = some 0x14402000 ∧
    (assemble "MODSQR x3, x2".toList).map encode = some 0x01322000 ∧
    (assemble "LDPARAM x1, GY".toList).map encode = some 0x40100400 ∧ (assemble "ONCURVE x07".toList) = none := by
  decide +kernel

theorem test_asmText : asmText (.ldparam 15 5) = "LDPARAM x15, 5".toList := by decide +kernel

/-! ### Points of small order, for the order of a base point (R6) and for the group statements -/

/-- The pair `a` stands for a point of the curve where it meets the equation modulo `p` and `p` does not divide `2y`. -/
theorem isPoint_of {p : Nat} [Fact p.Prime] {B : Nat} (a : Aff) (h : a.py ^ 2 % p = (a.px ^ 3 + B) % p)
    (hy : 2 * a.py % p ≠ 0) : ∃ A : (curveMod p B).Point, a.IsPoint A := by
  have h1 : (a.py : ZMod p) ^ 2 = (a.px : ZMod p) ^ 3 + (B : ZMod p) := by
    have := (ZMod.natCast_eq_natCast_iff' (a.py ^ 2) (a.px ^ 3 + B) p).2 h
    push_cast at this
    exact this
  have h2 : 2 * (a.py : ZMod p) ≠ 0 := by
    intro e
    apply hy
    have : ((2 * a.py : Nat) : ZMod p) = 0 := by push_cast; exact e
    exact Nat.mod_eq_zero_of_dvd ((ZMod.natCast_eq_zero_iff _ p).1 this)
  have hn : (curveMod p B).Nonsingular (a.px : ZMod p) (a.py : ZMod p) := by
    rw [WeierstrassCurve.Affine.nonsingular_iff, WeierstrassCurve.Affine.equation_iff]
    refine ⟨by simp [curveMod, h1], .inr ?_⟩
    simp only [curveMod]
    intro e
    exact h2 (by linear_combination e)
  exact ⟨_, hn, rfl⟩

/-- Where `p` does not divide `2y` the point is not its own negative. -/
theorem ne_negY {p : Nat} {B : Nat} {a : Aff} (hy : 2 * a.py % p ≠ 0) :
    (a.py : ZMod p) ≠ (curveMod p B).negY (a.px : ZMod p) (a.py : ZMod p) := by
  simp only [WeierstrassCurve.Affine.negY, curveMod]
  intro e
  apply hy
  have : ((2 * a.py : Nat) : ZMod p) = 0 := by push_cast; linear_combination e
  exact Nat.mod_eq_zero_of_dvd ((ZMod.natCast_eq_zero_iff _ p).1 this)

/-- Such a point has a double that is not the zero of the group. -/
theorem two_nsmul_ne_zero {p : Nat} [Fact p.Prime] {B : Nat} {a : Aff} {A : (curveMod p B).Point} (h : a.IsPoint A)
    (hy : 2 * a.py % p ≠ 0) : 2 • A ≠ 0 := by
  obtain ⟨hn, rfl⟩ := h
  rw [two_nsmul, WeierstrassCurve.Affine.Point.add_self_of_Y_ne (ne_negY hy)]
  exact WeierstrassCurve.Affine.Point.some_ne_zero _

/-- Its first two multiples are not the zero of the group. -/
theorem small_nsmul_ne_zero {p : Nat} [Fact p.Prime] {B : Nat} {a : Aff} {A : (curveMod p B).Point} (h : a.IsPoint A)
    (hy : 2 * a.py % p ≠ 0) : ∀ j, 0 < j → j ≤ 2 → j • A ≠ 0 := by
  intro j h0 hj
  interval_cases j
  · obtain ⟨hn, rfl⟩ := h
    rw [one_nsmul]
    exact WeierstrassCurve.Affine.Point.some_ne_zero _
  · exact two_nsmul_ne_zero h hy

/-- A point whose tangent slope `l` has `l² ≡ 3x` is an inflection: its double is its negative. -/
theorem three_nsmul_eq_zero {p : Nat} [Fact p.Prime] {B : Nat} {a : Aff} {A : (curveMod p B).Point} (h : a.IsPoint A)
    (hy : 2 * a.py % p ≠ 0) {l : Nat} (hl : l * (2 * a.py) % p = 3 * a.px ^ 2 % p) (hx : l ^ 2 % p = 3 * a.px % p) :
    3 • A = 0 := by
  obtain ⟨hn, rfl⟩ := h
  have hne := ne_negY (B := B) hy
  have h1 : (l : ZMod p) * (2 * (a.py : ZMod p)) = 3 * (a.px : ZMod p) ^ 2 := by
    have := (ZMod.natCast_eq_natCast_iff' (l * (2 * a.py)) (3 * a.px ^ 2) p).2 hl
    push_cast at this
    exact this
  have h2 : (l : ZMod p) ^ 2 = 3 * (a.px : ZMod p) := by
    have := (ZMod.natCast_eq_natCast_iff' (l ^ 2) (3 * a.px) p).2 hx
    push_cast at this
    exact this
  have hs : (curveMod p B).slope (a.px : ZMod p) (a.px : ZMod p) (a.py : ZMod p) (a.py : ZMod p) = l := by
    rw [WeierstrassCurve.Affine.slope_of_Y_ne rfl hne, div_eq_iff (sub_ne_zero.2 hne)]
    simp only [WeierstrassCurve.Affine.negY, curveMod]
    linear_combination -h1
  rw [show (3 : Nat) = 2 + 1 from rfl, add_nsmul, one_nsmul, two_nsmul, ← eq_neg_iff_add_eq_zero,
    WeierstrassCurve.Affine.Point.add_self_of_Y_ne hne, WeierstrassCurve.Affine.Point.neg_some,
    WeierstrassCurve.Affine.Point.some.injEq, hs]
  constructor
  · simp only [WeierstrassCurve.Affine.addX, curveMod]
    linear_combination h2
  · simp only [WeierstrassCurve.Affine.addY, WeierstrassCurve.Affine.negAddY, WeierstrassCurve.Affine.addX,
      WeierstrassCurve.Affine.negY, curveMod]
    linear_combination -(l : ZMod p) * h2

/-- A base point that is an inflection has the order 3, which is then the `N` of its set (R6). -/
theorem orderIsN_three {c : CurveParams} (hp : Nat.Prime c.P) (hN : c.N = 3)
    (h : c.Gy ^ 2 % c.P = (c.Gx ^ 3 + c.B) % c.P) (hy : 2 * c.Gy % c.P ≠ 0) {l : Nat}
    (hl : l * (2 * c.Gy) % c.P = 3 * c.Gx ^ 2 % c.P) (hx : l ^ 2 % c.P = 3 * c.Gx % c.P) : c.OrderIsN := by
  have hf : Fact (Nat.Prime c.P) := ⟨hp⟩
  have h3 : Fact (Nat.Prime 3) := ⟨Nat.prime_three⟩
  obtain ⟨A, hA⟩ := isPoint_of (p := c.P) (B := c.B) { px := c.Gx, py := c.Gy } h hy
  have h0 := three_nsmul_eq_zero hA hy hl hx
  obtain ⟨hn, rfl⟩ := hA
  exact ⟨hf, hn, (addOrderOf_eq_prime h0 (WeierstrassCurve.Affine.Point.some_ne_zero _)).trans hN.symm⟩

/-! ### Witnesses: for each statement with hypotheses a concrete state and operands that meet them all -/

/-- `machine toy19` with the command word `w` in execution and the next step its end. -/
def running (w : Word32) : State := { (machine toy19 [] []).accept w with busyLeft := 0 }

theorem prime_19 : Nat.Prime 19 := by norm_num

theorem prime_17 : Nat.Prime 17 := by norm_num

theorem prime_13 : Nat.Prime 13 := by norm_num

theorem fact_19 : Fact (Nat.Prime 19) := ⟨prime_19⟩

theorem fact_13 : Fact (Nat.Prime 13) := ⟨prime_13⟩

/-- `(1, 2)` of TOY13 has the order 3: its tangent has the slope 4. -/
theorem toy13_wf : toy13.wf :=
  ⟨prime_13, by decide, by decide, by decide, by decide, by decide, by decide,
    orderIsN_three prime_13 rfl (by decide) (by decide) (l := 4) (by decide) (by decide)⟩

theorem toy13_fits : toy13.Fits 192 := ⟨by decide, by decide, by decide⟩

/-- The curve of TOY17 with the base point `(11, 5)`, three times its `(1, 2)`, of the order 3: a set with a point of
`y = 0`. -/
def toy17three : CurveParams := { P := 17, N := 3, B := 3, Gx := 11, Gy := 5, bitSize := 5 }

theorem toy17three_wf : toy17three.wf :=
  ⟨prime_17, by decide, by decide, by decide, by decide, by decide, by decide,
    orderIsN_three prime_17 rfl (by decide) (by decide) (l := 4) (by decide) (by decide)⟩

theorem hardware_sizes : Config.hardware.SizesOk ∧ Config.hardware.Addressable := by
  unfold Config.SizesOk Config.Addressable; decide

/-- A machine of the hardware's sizes is sized, whatever its set, registers and bytes; so are its variants that only
differ in what `State.Sized` does not speak of. -/
theorem sized_machine (c : CurveParams) (regs : List (Nat × Nat)) (bytes : List Byte) : (machine c regs bytes).Sized := by
  have h0 : ∀ s : State, s.Sized → (regs.foldl (fun s r => s.setReg r.1 r.2) s).Sized := by
    intro s hs
    induction regs generalizing s with
    | nil => exact hs
    | cons r rest ih => exact ih _ (hs.setReg r.1 r.2)
  refine h0 _ ⟨hardware_sizes.1, hardware_sizes.2, rfl, fun v hv => ?_⟩
  rw [List.eq_of_mem_replicate hv]
  exact Nat.two_pow_pos _

theorem reset_sized : State.reset.Sized := sized_machine s112 [] []

/-- A running machine meets the invariant: an accepted word, nothing else changed since reset. -/
theorem running_inv (w : Word32) : (running w).Inv :=
  ⟨sized_machine toy19 [] [], rfl, fun _ => ⟨rfl, rfl, rfl, rfl, rfl, rfl, rfl⟩,
    ⟨nofun, fun h => absurd rfl h⟩, Nat.zero_le 7, nofun, (by decide : (0#2 : BitVec 2) ≠ 0b10#2)⟩

theorem isSquareMod_witness {P a : Nat} (r : Nat) (h : r * r % P = a % P) : IsSquareMod P a := ⟨r, h⟩

theorem not_isSquareMod_of {P a : Nat} (h : ∀ r : Fin (P + 1), r.val * r.val % P ≠ a % P) (hP : 0 < P) :
    ¬ IsSquareMod P a := by
  rintro ⟨r, hr⟩
  have hlt := Nat.mod_lt r hP
  exact h ⟨r % P, by omega⟩ (by simpa [Nat.mul_mod] using hr)

theorem witness_DecodeOfEncodeIsInstr : (Instr.jadd 13 13 13).wf = true ∧ (Instr.ldparam 15 5).wf = true := by decide

theorem witness_LegalWordIsItsEncoding : decode 0x40F00500#32 = .ok (.ldparam 15 5) := by decide

/-- The three premises on the host's next action, each met alone. -/
theorem witness_StepRunsDecodedInstruction :
    ((running 0x01201000).status.busy = true ∧ decode (running 0x01201000).cmd = .ok (.modmul 2 0 1) ∧
      (running 0x01201000).busyLeft = 0) ∧
    ({ running 0x01201000 with host := [.reset] } : State).busyLeft = 0 ∧
    ({ running 0x01201000 with busyLeft := 9 } : State).host = [] ∧
    ({ running 0x01201000 with busyLeft := 9, host := [.wait] } : State).host.head? = some .wait := by decide +kernel

theorem witness_IllegalWordFaultsIllegal :
    decode 0x05000000#32 = .error .unknownOpcode ∧ decode 0x01312001#32 = .error .unusedFieldNonzero ∧
    decode 0x40000600#32 = .error .operandOutOfRange ∧
    ({ State.reset with host := [.write 32 (0 + 0x008) 0x05000000, .wait] } : State).status.busy = false ∧
    ({ State.reset with host := [.write 32 (0 + 0x008) 0x05000000, .wait] } : State).status.err = false := by decide

/-- One operand for each clause; `P = 1` and `P = 19` are the bounds of the second. -/
theorem witness_InverseExistsUniquely : Nat.gcd (38 % 19) 19 ≠ 1 ∧ Nat.gcd (3 % 9) 9 ≠ 1 ∧ Nat.gcd (0 % 1) 1 = 1 ∧
    Nat.gcd (18 % 19) 19 = 1 ∧ Nat.Prime 19 := ⟨by decide, by decide, by decide, by decide, prime_19⟩

theorem witness_ModmulWritesProduct :
    let s := machine toy19 [(0, 25), (1, 30)] []
    s.Sized ∧ 0 < s.P ∧ s.P ≤ 2 ^ s.cfg.W := ⟨sized_machine _ _ _, by decide +kernel, by decide +kernel⟩

theorem witness_MontgomeryComputesProduct :
    (2 ^ 192 - 1) % 2 = 1 ∧ 2 ^ 192 - 1 < 2 ^ 192 ∧ 2 ^ 192 - 2 < 2 ^ 192 - 1 ∧ 0 < 1 ∧ 19 % 2 = 1 ∧ 19 < 2 ^ 8 := by
  decide

theorem witness_ModinvWritesInverse :
    let s := machine toy19 [(0, 26)] []
    s.Sized ∧ 0 < s.P ∧ s.P ≤ 2 ^ s.cfg.W ∧ Nat.gcd (s.reg (0 : RegNum).toNat % s.P) s.P = 1 :=
  ⟨sized_machine _ _ _, by decide +kernel⟩

/-- One state for the four clauses; the first with `rd = 15`. -/
theorem witness_NotInvertibleFaults :
    let s := machine toy19 [(0, 38), (4, 1), (5, 2), (6, 19), (8, 1), (9, 2), (10, 20), (11, 3), (12, 5), (13, 19)] []
    1 < s.P ∧ Nat.gcd (s.reg (0 : RegNum).toNat % s.P) s.P ≠ 1 ∧ pairOk 14 = true ∧
      (tripleOk 4 = true ∧ Nat.gcd (s.reg ((4 : RegNum).toNat + 2) % s.P) s.P ≠ 1) ∧
      (pairOk 8 = true ∧ pairOk 10 = true ∧ s.reg (8 : RegNum).toNat % s.P = s.reg (10 : RegNum).toNat % s.P) ∧
      (pairOk 12 = true ∧ s.reg ((12 : RegNum).toNat + 1) % s.P = 0) := by decide +kernel

theorem test_modinv_faults_into_x15 : after (machine toy19 [(0, 38), (15, 77)] []) 0x02F00000 [15] =
    some ([77], 0x20006) := by decide +kernel

theorem witness_LegendreWritesEulerValue :
    let s := machine toy19 [(1, 2)] []
    s.Sized ∧ 0 < s.P ∧ s.P ≤ 2 ^ s.cfg.W := ⟨sized_machine _ _ _, by decide +kernel⟩

theorem witness_LegendreFlagIsSymbol :
    let s := machine toy19 [(1, 2)] []
    s.Sized ∧ Nat.Prime s.P ∧ s.P ≠ 2 ∧ s.P ≤ 2 ^ s.cfg.W := ⟨sized_machine _ _ _, prime_19, by decide +kernel⟩

/-- A prime of each kind, and an operand for each clause: a square, none, a multiple of `P`. -/
theorem witness_SqrtFindsRootForPrime :
    (let s := machine toy17 [(1, 9)] []
     s.Sized ∧ Nat.Prime s.P ∧ s.P ≤ 2 ^ s.cfg.W ∧ IsSquareMod s.P (s.reg (1 : RegNum).toNat)) ∧
    (let s := machine toy19 [(1, 23)] []
     s.Sized ∧ Nat.Prime s.P ∧ s.P ≤ 2 ^ s.cfg.W ∧ s.P % 4 = 3 ∧ s.reg (1 : RegNum).toNat % s.P ≠ 0 ∧
      IsSquareMod s.P (s.reg (1 : RegNum).toNat)) ∧
    (¬ IsSquareMod 19 ((machine toy19 [(1, 2)] []).reg (1 : RegNum).toNat)) ∧
    (machine toy17 [(1, 17)] []).reg (1 : RegNum).toNat % (machine toy17 [(1, 17)] []).P = 0 :=
  ⟨⟨sized_machine _ _ _, prime_17, by decide +kernel, isSquareMod_witness 3 (by decide +kernel)⟩,
    ⟨sized_machine _ _ _, prime_19, by decide +kernel, by decide +kernel, by decide +kernel,
      isSquareMod_witness 17 (by decide +kernel)⟩,
    not_isSquareMod_of (by decide +kernel) (by decide), by decide +kernel⟩

theorem witness_LiftCopiesWithZOne : State.reset.Sized ∧ tripleOk 13 = true ∧ pairOk 14 = true :=
  ⟨reset_sized, by decide⟩

theorem witness_LowerDividesByZ :
    let s := machine toy19 [(0, 15), (1, 8), (2, 4)] []
    s.Sized ∧ pairOk 1 = true ∧ tripleOk 0 = true ∧ 0 < s.P ∧ s.P ≤ 2 ^ s.cfg.W ∧
      Nat.gcd (s.reg ((0 : RegNum).toNat + 2) % s.P) s.P = 1 := ⟨sized_machine _ _ _, by decide +kernel⟩

theorem witness_JaddWritesFormula :
    let s := machine toy19 [(0, 15), (1, 8), (2, 4), (4, 1), (5, 2), (6, 1)] []
    s.Sized ∧ tripleOk 8 = true ∧ tripleOk 0 = true ∧ tripleOk 4 = true ∧ 0 < s.P ∧ s.P ≤ 2 ^ s.cfg.W :=
  ⟨sized_machine _ _ _, by decide +kernel⟩

/-- A doubling (`R = 0`), an opposite pair (`R ≠ 0`), and a prime. -/
theorem witness_JaddDegenerateCases :
    0 < 19 ∧ 1 * 1 ^ 2 % 19 = 1 * 1 ^ 2 % 19 ∧ ((2 : Int) * 1 ^ 3 - 2 * 1 ^ 3) % 19 = 0 ∧
      ((17 : Int) * 1 ^ 3 - 2 * 1 ^ 3) % 19 ≠ 0 ∧ Nat.Prime 19 :=
  ⟨by decide, rfl, by decide, by decide, prime_19⟩

theorem witness_JdblWritesFormula :
    let s := machine toy19 [(0, 15), (1, 8), (2, 4)] []
    s.Sized ∧ tripleOk 4 = true ∧ tripleOk 0 = true ∧ 0 < s.P ∧ s.P ≤ 2 ^ s.cfg.W :=
  ⟨sized_machine _ _ _, by decide +kernel⟩

theorem witness_JdblZeroZExactly : Nat.Prime 17 ∧ 17 ≠ 2 := ⟨prime_17, by decide⟩

theorem witness_PaddWritesChordSum :
    let s := machine toy19 [(0, 1), (1, 2), (2, 14), (3, 12)] []
    s.Sized ∧ pairOk 1 = true ∧ pairOk 0 = true ∧ pairOk 2 = true ∧ Nat.Prime s.P ∧ s.P ≤ 2 ^ s.cfg.W ∧
      s.reg (0 : RegNum).toNat % s.P ≠ s.reg (2 : RegNum).toNat % s.P :=
  ⟨sized_machine _ _ _, by decide, by decide, by decide, prime_19, by decide +kernel, by decide +kernel⟩

theorem witness_PdblWritesTangentDouble :
    let s := machine toy19 [(0, 1), (1, 2)] []
    s.Sized ∧ pairOk 2 = true ∧ pairOk 0 = true ∧ Nat.Prime s.P ∧ s.P ≠ 2 ∧ s.P ≤ 2 ^ s.cfg.W ∧
      s.reg ((0 : RegNum).toNat + 1) % s.P ≠ 0 :=
  ⟨sized_machine _ _ _, by decide, by decide, prime_19, by decide +kernel, by decide +kernel, by decide +kernel⟩

theorem witness_OncurveSetsPredicate : pairOk 14 = true := by decide

theorem witness_ZeroScalarGivesInfinity :
    let e := machine toy19 [] []
    let z := machine toy19 [] (List.replicate 64 0)
    pairOk 14 = true ∧ (e.Sized ∧ e.len.toNat ≤ e.cfg.BUFSZ ∧ beInt e.bufString = 0) ∧ z.Sized ∧
      z.len.toNat ≤ z.cfg.BUFSZ ∧ z.len = 64 ∧ beInt z.bufString = 0 :=
  ⟨by decide, ⟨sized_machine _ _ _, by decide +kernel⟩, sized_machine _ _ _, by decide +kernel⟩

/-- One state for each end: too long, degenerate, complete with an accumulator, complete without one. -/
theorem witness_SmulEndsByDegeneracy :
    let s := machine toy19 [(0, 1), (1, 2)] [0x05]
    let d := machine toy19 [(0, 1), (1, 2)] [0x0D]
    let z := machine toy19 [(0, 1), (1, 2)] [0x00]
    (s.Sized ∧ d.Sized ∧ z.Sized) ∧ Nat.Prime s.P ∧ pairOk 2 = true ∧ pairOk 0 = true ∧ s.P ≠ 2 ∧ s.P ≤ 2 ^ s.cfg.W ∧
      ({ s with len := 65 } : State).len.toNat > s.cfg.BUFSZ ∧
      (scalarOps d.P (liftPt (d.aff 0)) none (scanBits d.bufString)).any (ScalarOp.degenerate d.P) = true ∧
      (scalarOps s.P (liftPt (s.aff 0)) none (scanBits s.bufString)).any (ScalarOp.degenerate s.P) = false ∧
      scalarLoop s.P (liftPt (s.aff 0)) (scanBits s.bufString) = some { X := 13, Y := 11, Z := 13 } ∧
      scalarLoop z.P (liftPt (z.aff 0)) (scanBits z.bufString) = none :=
  ⟨⟨sized_machine _ _ _, sized_machine _ _ _, sized_machine _ _ _⟩, prime_19, by decide +kernel⟩

theorem witness_SbmulEndsByDegeneracy :
    let s := machine toy19 [] [0x05]
    let d := machine toy19 [] [0x0D]
    (s.Sized ∧ d.Sized) ∧ Nat.Prime s.P ∧ pairOk 14 = true ∧ s.P ≠ 2 ∧ s.P ≤ 2 ^ s.cfg.W ∧
      ({ s with len := 65 } : State).len.toNat > s.cfg.BUFSZ ∧
      (scalarOps 19 (liftPt { px := 1, py := 2 }) none (scanBits d.bufString)).any (ScalarOp.degenerate 19) = true ∧
      (scalarOps 19 (liftPt { px := 1, py := 2 }) none (scanBits s.bufString)).any (ScalarOp.degenerate 19) = false ∧
      scalarLoop 19 (liftPt { px := 1, py := 2 }) (scanBits s.bufString) = some { X := 13, Y := 11, Z := 13 } :=
  ⟨⟨sized_machine _ _ _, sized_machine _ _ _⟩, prime_19, by decide +kernel⟩

theorem witness_SbmulIsSmulOfBasePoint :
    let s := machine toy19 [(14, 1), (15, 2)] [0x05]
    pairOk 14 = true ∧ s.reg (14 : RegNum).toNat = s.params.Gx ∧ s.reg ((14 : RegNum).toNat + 1) = s.params.Gy := by
  decide +kernel

theorem witness_ScalarValueDecides : beInt [0x05] = beInt [0x00, 0x00, 0x05] := by decide

theorem witness_CompressWritesHeaderAndX : State.reset.Sized ∧ pairOk 14 = true := ⟨reset_sized, by decide⟩

/-- The two forms of the second coordinate: below `P`, and the literal `P - 0` of a zero root. -/
theorem witness_DecompressRecoversPoint :
    (let s := machine toy13 [] [3, 14]
     pairOk 0 = true ∧ s.Sized ∧ s.params.wf ∧ s.params.Fits s.cfg.W ∧ s.len.toNat = 1 + byteLen s.params.bitSize ∧
      s.bufString = 3#8 :: [14#8] ∧ IsSquareMod s.P (beInt [14#8] ^ 3 + s.params.B)) ∧
    (let s := machine toy17three [] [3, 10]
     s.Sized ∧ s.params.wf ∧ s.params.Fits s.cfg.W ∧ s.len.toNat = 1 + byteLen s.params.bitSize ∧
      s.bufString = 3#8 :: [10#8] ∧ IsSquareMod s.P (beInt [10#8] ^ 3 + s.params.B) ∧
      (beInt [10#8] ^ 3 + s.params.B) % s.P = 0) :=
  ⟨⟨by decide, sized_machine _ _ _, toy13_wf, toy13_fits, by decide +kernel, by decide +kernel,
      isSquareMod_witness 2 (by decide +kernel)⟩,
    ⟨sized_machine _ _ _, toy17three_wf, ⟨by decide, by decide, by decide⟩, by decide +kernel, by decide +kernel,
      isSquareMod_witness 0 (by decide +kernel), by decide +kernel⟩⟩

/-- One state for each end, at the bounds `LEN = 65`, `0`, `1`. -/
theorem witness_DecompressDispatchesInOrder :
    pairOk 14 = true ∧ (machine toy13 [] []).params.wf ∧
      ({ machine toy13 [] [] with len := 65 } : State).len.toNat > (machine toy13 [] []).cfg.BUFSZ ∧
      (machine toy13 [] []).len = 0 ∧ (machine toy13 [] [4]).buf.byteAt 0 = 0x04#8 ∧
      (machine toy13 [] [5]).buf.byteAt 0 = 5#8 ∧ (machine toy13 [] [2]).len.toNat ≠ 1 + byteLen toy13.bitSize ∧
      ¬ IsSquareMod 13 (beInt (machine toy13 [] [2, 2]).bufString.tail ^ 3 + 3) :=
  ⟨by decide, toy13_wf, by decide +kernel, by decide +kernel, by decide +kernel, by decide +kernel, by decide +kernel,
    not_isSquareMod_of (by decide +kernel) (by decide)⟩

/-- An `x` of full length, one byte on TOY13, and the shorter `x = 0`. -/
theorem witness_CompressDecompressRoundTrip :
    (let s := machine toy13 [(0, 1), (1, 2)] []
     pairOk 2 = true ∧ pairOk 0 = true ∧ s.Sized ∧ s.params.wf ∧ s.reg (0 : RegNum).toNat < s.P ∧
      s.reg ((0 : RegNum).toNat + 1) < s.P ∧
      s.reg ((0 : RegNum).toNat + 1) ^ 2 % s.P = (s.reg (0 : RegNum).toNat ^ 3 + s.params.B) % s.P ∧
      8 * (byteLen s.params.bitSize - 1) < bitlen (s.reg (0 : RegNum).toNat)) ∧
    (let s := machine toy13 [(0, 0), (1, 4)] []
     s.Sized ∧ s.params.wf ∧ s.reg (0 : RegNum).toNat < s.P ∧ s.reg ((0 : RegNum).toNat + 1) < s.P ∧
      s.reg ((0 : RegNum).toNat + 1) ^ 2 % s.P = (s.reg (0 : RegNum).toNat ^ 3 + s.params.B) % s.P ∧
      ¬ 8 * (byteLen s.params.bitSize - 1) < bitlen (s.reg (0 : RegNum).toNat)) :=
  ⟨⟨by decide, by decide, sized_machine _ _ _, toy13_wf, by decide +kernel⟩, sized_machine _ _ _, toy13_wf,
    by decide +kernel⟩

/-- A value of each set, the selection spelled out. -/
theorem witness_LdparamReadsRom :
    State.reset.Sized ∧ s112.N < 2 ^ State.reset.cfg.W ∧
      (let set := if State.reset.ctrl.curve then State.reset.cfg.set1 else State.reset.cfg.set0
       [set.P, set.N, set.B, set.Gx, set.Gy, set.bitSize][(1 : ParamIdx).toNat]? = some s112.N) ∧
      (let s := { State.reset with ctrl := { curve := true, ie := false } }
       let set := if s.ctrl.curve then s.cfg.set1 else s.cfg.set0
       [set.P, set.N, set.B, set.Gx, set.Gy, set.bitSize][(5 : ParamIdx).toNat]? = some 160) :=
  ⟨reset_sized, by decide +kernel⟩

theorem witness_CommandsEndAndKeepHostSide : ∃ t, exec (.modmul 2 0 1) (machine toy19 [(0, 25), (1, 30)] []) = .next t :=
  ⟨_, rfl⟩

theorem witness_FaultsArePrecise : (machine toy19 [(0, 19)] []).status.err = false ∧
    ∃ t, exec (.modinv 1 0) (machine toy19 [(0, 19)] []) = .next t ∧ t.status.err = true :=
  ⟨by decide +kernel, _, rfl, by decide +kernel⟩

/-- The premises of its second clause, on an accepted word that faults. -/
theorem witness_FaultsArePrecise_accepted : (running 0x02100000).status.busy = true ∧ (running 0x02100000).Inv ∧
    ∃ t, exec (.modinv 1 0) (running 0x02100000) = .next t ∧ t.status.err = true :=
  ⟨by decide +kernel, running_inv _, _, rfl, by decide +kernel⟩

theorem witness_WritesOnlyItsDestinations : writesBuf (.padd 4 0 2) = false ∧
    ∃ t, exec (.padd 4 0 2) (machine toy19 [(0, 1), (1, 2), (2, 14), (3, 12)] []) = .next t := ⟨by decide, _, rfl⟩

theorem witness_ResultFlagsOnlyFromOwner : ∃ t, exec (.sqrt 2 1) (machine toy19 [(1, 2)] []) = .next t ∧
    t.status.noroot ≠ (machine toy19 [(1, 2)] []).status.noroot := ⟨_, rfl, by decide +kernel⟩

theorem witness_FaultsOnlyAsListed : (Instr.modinv 1 0).wf = true ∧ (machine toy13 [(0, 13)] []).params.wf ∧
    (machine toy13 [(0, 13)] []).status.err = false ∧
    (∃ t, exec (.modinv 1 0) (machine toy13 [(0, 13)] []) = .next t ∧ t.status.err = true) :=
  ⟨by decide, toy13_wf, by decide +kernel, ⟨_, rfl, by decide +kernel⟩⟩

/-- Two states that differ in a register MODMUL does not read; and two that differ in a byte beyond `LEN`. -/
theorem witness_ReadsOnlyItsSources :
    (let s := machine toy19 [(0, 3), (1, 4)] []
     let s' := machine toy19 [(0, 3), (1, 4), (9, 7)] []
     (s.Sized ∧ s'.Sized) ∧ s.cfg.W = s'.cfg.W ∧ s.cfg.BUFSZ = s'.cfg.BUFSZ ∧ s.params = s'.params ∧
      s.status = s'.status ∧ (∀ j ∈ readRegs (.modmul 2 0 1), s.reg j = s'.reg j) ∧ s ≠ s' ∧
      readsBuf (.modmul 2 0 1) = false) ∧
    (let s := { machine toy19 [] [5, 6] with len := 1 }
     let s' := machine toy19 [] [5]
     (s.Sized ∧ s'.Sized) ∧ s.cfg.W = s'.cfg.W ∧ s.cfg.BUFSZ = s'.cfg.BUFSZ ∧ s.params = s'.params ∧
      s.status = s'.status ∧ readRegs (.sbmul 0) = [] ∧ s.len = s'.len ∧
      (∀ a : Fin 1, s.buf.byteAt a = s'.buf.byteAt a) ∧ s ≠ s') :=
  ⟨⟨⟨sized_machine _ _ _, sized_machine _ _ _⟩, by decide +kernel⟩,
    ⟨sized_machine toy19 [] [5, 6], sized_machine _ _ _⟩, by decide +kernel⟩

theorem witness_OrderAndCoefficientUnread :
    (∃ t, exec (.smul 2 0) (machine toy19 [(0, 1), (1, 2)] [5]) = .next t) ∧
    (∀ rd idx, Instr.smul 2 0 ≠ .ldparam rd idx) ∧ (∀ ra, Instr.smul 2 0 ≠ .oncurve ra) ∧
    ∀ rd, Instr.smul 2 0 ≠ .decompress rd :=
  ⟨⟨_, rfl⟩, nofun, nofun, nofun⟩

theorem witness_InvariantKeptByStep : State.reset.Inv ∧ ∃ t, step State.reset = .next t :=
  ⟨⟨reset_sized, by decide⟩, _, rfl⟩

theorem witness_EveryStepGoesOn : State.reset.Sized := reset_sized

theorem witness_EveryCommandEnds : (running 0x01201000).Sized ∧ (running 0x01201000).status.busy = true :=
  ⟨(running_inv _).1, by decide +kernel⟩

theorem witness_RomNeverWritten : ∃ t, step State.reset = .next t := ⟨_, rfl⟩

/-- A write to `CMD` for each of the two clauses. -/
theorem witness_CmdWriteAcceptedOrDropped :
    let s := { State.reset with host := [.write 32 (0 + 0x008) 0x01201000] }
    let d := { s with status := Status.zero.faulted .illegal }
    s.status.busy = false ∧ s.host = .write 32 (s.cfg.BASE + 0x008) 0x01201000 :: [] ∧ s.status.err = false ∧
      d.status.busy = false ∧ d.status.err = true := by decide

/-- An idle state with an action of the host, and a running one whose `STATUS` word is 1. -/
theorem witness_ControlRegisterLayout :
    let s := { State.reset with host := [.write 32 (0 + 0x00C) 7] }
    s.status.busy = false ∧ s.host = .write 32 (s.cfg.BASE + 0x00C) 7 :: [] ∧ (running 0x21000000).status.bits = 1 := by
  decide +kernel

/-- The lowest and the highest offset, with each of the four actions in turn. -/
theorem witness_BusyAccessesHaveNoEffect :
    let s (a : HostAction) : State := { running 0x21000000 with busyLeft := 1, host := [a] }
    (∀ a, (s a).status.busy = true ∧ (s a).busyLeft ≠ 0 ∧ (s a).Inv ∧ (s a).cfg.BASE = 0 ∧ (s a).host = a :: []) ∧
      0x000 % 4 = 0 ∧ 0x3FC % 4 = 0 ∧ 0x3FC < 0x400 :=
  ⟨fun _ => ⟨rfl, Nat.one_ne_zero, running_inv 0x21000000, rfl, rfl⟩, by decide⟩

theorem witness_StatusWriteAcknowledges : State.reset.status.busy = false ∧ (running 0x21000000).status.busy = true := by
  decide +kernel

/-- While idle, and while a command runs. -/
theorem witness_ResetAtAnyTime :
    ({ State.reset with host := [.reset] } : State).status.busy = false ∧
      ({ running 0x21000000 with host := [.reset], busyLeft := 1 } : State).busyLeft ≠ 0 := by decide

theorem witness_InterruptFollowsDone :
    (∃ t, exec (.modmul 2 0 1) { State.reset with ctrl := { curve := false, ie := true } } = .next t ∧ t.irq = true) ∧
    State.reset.status.busy = false ∧ (2 : Word32).getLsbD 1 = true ∧ (1 : Word32).getLsbD 1 = false :=
  ⟨⟨_, rfl, by decide +kernel⟩, by decide, by decide, by decide⟩

theorem witness_RegisterWordWindow : State.reset.Sized ∧ State.reset.status.busy = false ∧ 15 < 16 ∧
    5 < State.reset.cfg.W / 32 ∧ (State.reset.hostWrite 32 (0x100 + 0x20 * 15 + 4 * 5) 1).reg 15 / 2 ^ 160 = 1 :=
  ⟨reset_sized, by decide +kernel⟩

theorem witness_BufferWordWindow : State.reset.Sized ∧ State.reset.status.busy = false ∧ 15 < State.reset.cfg.BUFSZ / 4 ∧
    (State.reset.hostWrite 32 (0x300 + 4 * 15) 0x01000000).buf.byteAt 63 = 1 := ⟨reset_sized, by decide +kernel⟩

theorem witness_ReadsAndRefusalsChangeNothing : State.reset.Sized ∧ (16 ≠ 32 ∧ 0x102 % 4 ≠ 0 ∧ 0x400 ≤ 0x400) ∧
    (0x0FC % 4 = 0 ∧ 0x0FC < 0x100) ∧
    (0x118 % 4 = 0 ∧ State.reset.cfg.W / 32 ≤ 0x118 / 4 % 8 ∧ State.reset.cfg.W / 32 ≤ 0x2FC / 4 % 8) ∧
    0x340 % 4 = 0 ∧ 0x300 + State.reset.cfg.BUFSZ ≤ 0x340 ∧ 0x3FC < 0x400 ∧
    0x3FFC < (State.resetOf { Config.hardware with BASE := 0x4000 }).cfg.BASE := ⟨reset_sized, by decide +kernel⟩

/-! ### Witnesses on the curve: `(1, 2)` on TOY19 and on TOY13 -/

theorem witness_PaddIsGroupSum :
    let s := machine toy19 [(0, 1), (1, 2), (2, 14), (3, 12)] []
    s.Sized ∧ s.P = 19 ∧ 19 ≤ 2 ^ s.cfg.W ∧ pairOk 1 = true ∧ pairOk 0 = true ∧ pairOk 2 = true ∧
      s.reg (0 : RegNum).toNat % 19 ≠ s.reg (2 : RegNum).toNat % 19 ∧
      ∃ (_ : Fact (Nat.Prime 19)) (A C : (curveMod 19 s.params.B).Point), (s.aff 0).IsPoint A ∧ (s.aff 2).IsPoint C := by
  refine ⟨sized_machine _ _ _, by decide +kernel, by decide, by decide, by decide, by decide, by decide +kernel, fact_19, ?_⟩
  have := fact_19
  obtain ⟨A, hA⟩ := isPoint_of (p := 19) (B := 3) { px := 1, py := 2 } (by decide) (by decide)
  obtain ⟨C, hC⟩ := isPoint_of (p := 19) (B := 3) { px := 14, py := 12 } (by decide) (by decide)
  exact ⟨A, C, hA, hC⟩

theorem witness_PdblIsGroupDouble :
    let s := machine toy19 [(0, 1), (1, 2)] []
    s.Sized ∧ s.P = 19 ∧ 19 ≠ 2 ∧ 19 ≤ 2 ^ s.cfg.W ∧
      pairOk 2 = true ∧ pairOk 0 = true ∧ s.reg ((0 : RegNum).toNat + 1) % 19 ≠ 0 ∧
      ∃ (_ : Fact (Nat.Prime 19)) (A : (curveMod 19 s.params.B).Point), (s.aff 0).IsPoint A := by
  refine ⟨sized_machine _ _ _, by decide +kernel, by decide, by decide, by decide, by decide, by decide +kernel, fact_19, ?_⟩
  have := fact_19
  exact isPoint_of (p := 19) (B := 3) { px := 1, py := 2 } (by decide) (by decide)

/-- The scalar 2 on `(1, 2)` of TOY19. -/
theorem witness_SmulIsScalarMultiple :
    let s := machine toy19 [(0, 1), (1, 2)] [0x02]
    s.Sized ∧ s.P = 19 ∧ 19 ≤ 2 ^ s.cfg.W ∧
      pairOk 2 = true ∧ pairOk 0 = true ∧ s.len.toNat ≤ s.cfg.BUFSZ ∧ beInt s.bufString = 2 ∧
      ∃ (_ : Fact (Nat.Prime 19)) (A : (curveMod 19 s.params.B).Point), (s.aff 0).IsPoint A ∧
        ∀ j, 0 < j → j ≤ 2 → j • A ≠ 0 := by
  refine ⟨sized_machine _ _ _, by decide +kernel, by decide, by decide, by decide, by decide +kernel, by decide +kernel,
    fact_19, ?_⟩
  have := fact_19
  obtain ⟨A, hA⟩ := isPoint_of (p := 19) (B := 3) { px := 1, py := 2 } (by decide) (by decide)
  exact ⟨A, hA, small_nsmul_ne_zero hA (by decide)⟩

/-- `(1, 2)` of TOY13 has the odd order 3: its tangent has the slope 4. The scalar 3 has the degenerate prefix 1 (`2 *
1 = 3 - 1`), the scalar 4 has none. -/
theorem witness_SmulFaultsExactlyAtDegeneratePrefix :
    let s := machine toy13 [(0, 1), (1, 2)] [0x03]
    let u := machine toy13 [(0, 1), (1, 2)] [0x04]
    (s.Sized ∧ u.Sized) ∧
    (s.P = 13 ∧ 13 ≤ 2 ^ s.cfg.W ∧ pairOk 2 = true ∧ pairOk 0 = true ∧ s.len.toNat ≤ s.cfg.BUFSZ ∧ 0 < beInt s.bufString ∧
      s.params.B = 3 ∧ s.aff 0 = { px := 1, py := 2 } ∧
      (beInt s.bufString / 2 ^ 0 % 2 = 1 ∧ 0 < beInt s.bufString / 2 ^ (0 + 1) ∧
        2 * (beInt s.bufString / 2 ^ (0 + 1)) % 3 = 3 - 1)) ∧
    (u.P = 13 ∧ u.len.toNat ≤ u.cfg.BUFSZ ∧ u.params.B = 3 ∧ u.aff 0 = { px := 1, py := 2 } ∧ beInt u.bufString = 4 ∧
      ¬ ∃ j, 4 / 2 ^ j % 2 = 1 ∧ 0 < 4 / 2 ^ (j + 1)) ∧
    ∃ (_ : Fact (Nat.Prime 13)) (A : (curveMod 13 3).Point), ({ px := 1, py := 2 } : Aff).IsPoint A ∧
      addOrderOf A = 3 ∧ addOrderOf A % 2 = 1 := by
  refine ⟨⟨sized_machine _ _ _, sized_machine _ _ _⟩, by decide +kernel, ⟨by decide +kernel, by decide +kernel,
    by decide +kernel, by decide +kernel, by decide +kernel, ?_⟩, fact_13, ?_⟩
  · rintro ⟨j, h1, h2⟩
    have hj : j < 3 := by
      by_contra hge
      have : 8 ≤ 2 ^ j := by
        calc 8 = 2 ^ 3 := rfl
          _ ≤ 2 ^ j := Nat.pow_le_pow_right (by decide) (by omega)
      rw [Nat.div_eq_of_lt (by omega)] at h1
      omega
    interval_cases j <;> omega
  · have := fact_13
    have : Fact (Nat.Prime 3) := ⟨Nat.prime_three⟩
    obtain ⟨A, hA⟩ := isPoint_of (p := 13) (B := 3) { px := 1, py := 2 } (by decide) (by decide)
    have h3 : addOrderOf A = 3 := by
      refine addOrderOf_eq_prime (three_nsmul_eq_zero hA (by decide) (l := 4) (by decide) (by decide)) ?_
      obtain ⟨hn, rfl⟩ := hA
      exact WeierstrassCurve.Affine.Point.some_ne_zero _
    exact ⟨A, hA, h3, by rw [h3]⟩

end Sys2Proof.Tests
end

section
/-! PROOFS. The arithmetic primitives of 00_scope.md: the power of R9 and the inverse of R10. -/

namespace Sys2Proof.Machine

/-! ### Powers (R9) -/

theorem expP_zero (P a : Nat) : expP P a 0 = 1 % P := by rw [expP_eq, pow_zero]

theorem expP_succ (P a e : Nat) : expP P a (e + 1) = mulP P (expP P a e) a := by
  rw [expP_eq, expP_eq, mulP, Nat.mod_mul_mod, pow_succ]

/-- Settles O6: square-and-multiply meets the recurrence because both are the power modulo `P`. -/
theorem powerFollowsRecurrence : Obligations.PowerFollowsRecurrence := fun P a e =>
  ⟨expP_zero P a, expP_succ P a e, expP_eq P a e, expP_zero P 0⟩

/-! ### Inverses (R10) -/

/-- `mulP` reduces its right operand itself. -/
theorem mulP_mod_right (P a b : Nat) : mulP P a (b % P) = mulP P a b := Nat.mul_mod_mod a b P

/-- A factor coprime to `P` cancels from a product of reduced operands. -/
theorem mulP_right_cancel {P c u v : Nat} (hc : Nat.gcd c P = 1) (hu : u < P) (hv : v < P)
    (h : mulP P u c = mulP P v c) : u = v := by
  have hmod : u ≡ v [MOD P] := Nat.ModEq.cancel_right_of_coprime (Nat.gcd_comm c P ▸ hc) h
  exact hmod.eq_of_lt_of_lt hu hv

/-- `invP` raises `NotInvertible` in no other case than the one R10 names. -/
theorem invP_error_iff {P a : Nat} (hP : 0 < P) :
    invP P a = .error .notInvertible ↔ Nat.gcd (a % P) P ≠ 1 := by
  refine ⟨fun herr hgcd => ?_, invP_error⟩
  obtain ⟨u, hok, -⟩ := invP_ok hP hgcd
  simp [hok] at herr

/-- For a prime `P` the operands without an inverse are the multiples of `P`. -/
theorem invP_error_iff_of_prime {P a : Nat} (hP : Nat.Prime P) :
    invP P a = .error .notInvertible ↔ a % P = 0 := by
  rw [invP_error_iff hP.pos, Ne, gcd_mod_prime hP, not_not]

/-- The inverse that `invP` answers is the only one below `P`: two of them have the same product with the operand, which
cancels. -/
theorem invP_unique {P a : Nat} (hP : 0 < P) (h : Nat.gcd (a % P) P = 1) :
    ∃ u, invP P a = .ok u ∧ u < P ∧ mulP P u (a % P) = 1 % P ∧
      ∀ v, v < P → mulP P v (a % P) = 1 % P → v = u := by
  obtain ⟨u, hok, hlt, hinv⟩ := invP_ok hP h
  have hu : mulP P u (a % P) = 1 % P := (mulP_mod_right P u a).trans hinv
  exact ⟨u, hok, hlt, hu, fun v hv hvinv => mulP_right_cancel h hv hlt (hvinv.trans hu.symm)⟩

/-- Settles O7: whether an inverse exists, that it is the only one, and what a prime `P` makes of the condition. -/
theorem inverseExistsUniquely : Obligations.InverseExistsUniquely := fun _ _ hP =>
  ⟨invP_error, invP_unique hP, invP_error_iff_of_prime⟩

end Sys2Proof.Machine
end

section
/-! PROOFS. Writes of the host port (R41, R46, R47) and the acknowledgement behind a write to `STATUS` (R167). -/

namespace Sys2Proof.Machine

/-! ### A write that the port accepts (R46) -/

/-- While a command runs an accepted write is dropped, whatever its location (R186). -/
theorem State.hostWrite_of_busy {s : State} {bits off : Nat} (v : Word32) (hok : accessOk bits off = true)
    (hbusy : s.status.busy = true) : s.hostWrite bits off v = s.answer .ack := by
  rw [State.hostWrite, if_pos hok, if_pos hbusy]

/-- While the core is idle an accepted write has the effect of its location (R47). -/
theorem State.hostWrite_of_idle {s : State} {bits off : Nat} (v : Word32) (hok : accessOk bits off = true)
    (hidle : s.status.busy = false) : s.hostWrite bits off v = (s.writeLoc v (locate s.cfg off)).answer .ack := by
  rw [State.hostWrite, if_pos hok, if_neg (ne_true_of_eq_false hidle)]

/-! ### A write to `STATUS` (R167) -/

/-- `STATUS` is at 0x004 for every configuration (R42). -/
theorem locate_status (cfg : Config) : locate cfg 0x004 = .status := rfl

theorem accessOk_status : accessOk 32 0x004 = true := by decide

/-- Write 1 to clear: the `and` with the complement that `acknowledge` computes is a choice by the written bit. -/
theorem and_not_eq_ite (flag bit : Bool) : (flag && !bit) = if bit then false else flag := by
  cases bit
  · exact Bool.and_true flag
  · exact Bool.and_false flag

/-- `acknowledge` with each of its three fields as a choice by the written bit. -/
theorem State.acknowledge_eq (s : State) (v : Word32) :
    s.acknowledge v =
      { s with
        status :=
          { s.status with
            done := if v.getLsbD 1 then false else s.status.done
            err := if v.getLsbD 2 then false else s.status.err
            errcode := if v.getLsbD 2 then 0 else s.status.errcode } } := by
  rw [State.acknowledge, and_not_eq_ite, and_not_eq_ite]

theorem State.hostWrite_status_of_idle {s : State} (v : Word32) (hidle : s.status.busy = false) :
    s.hostWrite 32 0x004 v = (s.acknowledge v).answer .ack := by
  rw [State.hostWrite_of_idle v accessOk_status hidle, locate_status, State.writeLoc]

/-- Settles O55: an idle write to `STATUS` is the acknowledgement, a write while busy is dropped, and `.clrerr` is one of
these writes. -/
theorem statusWriteAcknowledges : Obligations.StatusWriteAcknowledges := fun s v => by
  refine ⟨fun hidle => ?idle, fun hbusy => ?busy, ?clrerr⟩
  case idle => rw [State.hostWrite_status_of_idle v hidle, State.acknowledge_eq, State.answer]
  case busy => exact State.hostWrite_of_busy v accessOk_status hbusy
  case clrerr => rfl

end Sys2Proof.Machine
end

section
/-! PROOFS. The command encoding (R60 to R69): a command word as its fields, decoding an encoding, and encoding what was
decoded. -/

namespace Sys2Proof

/-! ### A command word is its fields (R60) -/

/-- The command word with the given fields, bits 31:24 first; bits 7:0 are the `zero` field (R60). -/
def commandWord (op : Byte) (rd ra rb : RegNum) (idx : ParamIdx) (zero : Byte) : Word32 :=
  op ++ rd ++ ra ++ rb ++ idx ++ zero

/-- An append as a number: the left operand above the bits of the right one. -/
theorem toNat_append_eq_add {m n : Nat} (x : BitVec m) (y : BitVec n) :
    (x ++ y).toNat = x.toNat * 2 ^ n + y.toNat := by
  rw [BitVec.toNat_append, ← Nat.shiftLeft_add_eq_or_of_lt y.isLt, Nat.shiftLeft_eq]

theorem toNat_commandWord (op : Byte) (rd ra rb : RegNum) (idx : ParamIdx) (zero : Byte) :
    (commandWord op rd ra rb idx zero).toNat =
      op.toNat * 2 ^ 24 + rd.toNat * 2 ^ 20 + ra.toNat * 2 ^ 16 + rb.toNat * 2 ^ 12 + idx.toNat * 2 ^ 8 + zero.toNat := by
  unfold commandWord
  rw [toNat_append_eq_add, toNat_append_eq_add, toNat_append_eq_add, toNat_append_eq_add, toNat_append_eq_add]
  ring

section
variable (op : Byte) (rd ra rb : RegNum) (idx : ParamIdx) (zero : Byte)

@[simp] theorem fieldOp_commandWord : fieldOp (commandWord op rd ra rb idx zero) = op := by
  apply BitVec.eq_of_toNat_eq
  rw [fieldOp, BitVec.extractLsb'_toNat, toNat_commandWord, Nat.shiftRight_eq_div_pow]
  omega

@[simp] theorem fieldRd_commandWord : fieldRd (commandWord op rd ra rb idx zero) = rd := by
  apply BitVec.eq_of_toNat_eq
  rw [fieldRd, BitVec.extractLsb'_toNat, toNat_commandWord, Nat.shiftRight_eq_div_pow]
  omega

@[simp] theorem fieldRa_commandWord : fieldRa (commandWord op rd ra rb idx zero) = ra := by
  apply BitVec.eq_of_toNat_eq
  rw [fieldRa, BitVec.extractLsb'_toNat, toNat_commandWord, Nat.shiftRight_eq_div_pow]
  omega

@[simp] theorem fieldRb_commandWord : fieldRb (commandWord op rd ra rb idx zero) = rb := by
  apply BitVec.eq_of_toNat_eq
  rw [fieldRb, BitVec.extractLsb'_toNat, toNat_commandWord, Nat.shiftRight_eq_div_pow]
  omega

@[simp] theorem fieldIdx_commandWord : fieldIdx (commandWord op rd ra rb idx zero) = idx := by
  apply BitVec.eq_of_toNat_eq
  rw [fieldIdx, BitVec.extractLsb'_toNat, toNat_commandWord, Nat.shiftRight_eq_div_pow]
  omega

/-- The `zero` field of a word, bits 7:0 (R60). -/
def fieldZero (w : Word32) : Byte := w.extractLsb' 0 8

@[simp] theorem fieldZero_commandWord : fieldZero (commandWord op rd ra rb idx zero) = zero := by
  apply BitVec.eq_of_toNat_eq
  rw [fieldZero, BitVec.extractLsb'_toNat, toNat_commandWord, Nat.shiftRight_eq_div_pow]
  omega

/-- Masking works field by field. -/
theorem commandWord_and (op' : Byte) (rd' ra' rb' : RegNum) (idx' : ParamIdx) (zero' : Byte) :
    commandWord op rd ra rb idx zero &&& commandWord op' rd' ra' rb' idx' zero' =
      commandWord (op &&& op') (rd &&& rd') (ra &&& ra') (rb &&& rb') (idx &&& idx') (zero &&& zero') := by
  unfold commandWord
  rw [BitVec.and_append, BitVec.and_append, BitVec.and_append, BitVec.and_append, BitVec.and_append]

end

/-- Every word is the command word of its fields. -/
theorem commandWord_fields (w : Word32) :
    commandWord (fieldOp w) (fieldRd w) (fieldRa w) (fieldRb w) (fieldIdx w) (fieldZero w) = w := by
  apply BitVec.eq_of_toNat_eq
  simp only [toNat_commandWord, fieldOp, fieldRd, fieldRa, fieldRb, fieldIdx, fieldZero, BitVec.extractLsb'_toNat,
    Nat.shiftRight_eq_div_pow]
  omega

/-- Command words with equal bits have equal fields. -/
theorem commandWord_inj {op op' : Byte} {rd rd' ra ra' rb rb' : RegNum} {idx idx' : ParamIdx} {zero zero' : Byte} :
    commandWord op rd ra rb idx zero = commandWord op' rd' ra' rb' idx' zero' ↔
      op = op' ∧ rd = rd' ∧ ra = ra' ∧ rb = rb' ∧ idx = idx' ∧ zero = zero' := by
  refine ⟨fun h => ?_, fun ⟨hop, hrd, hra, hrb, hidx, hzero⟩ => by rw [hop, hrd, hra, hrb, hidx, hzero]⟩
  have hop := congrArg fieldOp h
  have hrd := congrArg fieldRd h
  have hra := congrArg fieldRa h
  have hrb := congrArg fieldRb h
  have hidx := congrArg fieldIdx h
  have hzero := congrArg fieldZero h
  simp only [fieldOp_commandWord, fieldRd_commandWord, fieldRa_commandWord, fieldRb_commandWord, fieldIdx_commandWord,
    fieldZero_commandWord] at hop hrd hra hrb hidx hzero
  exact ⟨hop, hrd, hra, hrb, hidx, hzero⟩

/-! ### Formats and match words (R61) -/

/-- The word of a format: the operands it uses, 0 in its other fields (R61, R65). -/
def Format.word (f : Format) (op : Byte) (rd ra rb : RegNum) (idx : ParamIdx) : Word32 :=
  match f with
  | .f3 => commandWord op rd ra rb 0 0
  | .f2 => commandWord op rd ra 0 0 0
  | .f1d => commandWord op rd 0 0 0 0
  | .f1a => commandWord op 0 ra 0 0 0
  | .fp => commandWord op rd 0 0 idx 0

/-- The match word is the command word with no operand. -/
theorem matchWord_eq (i : Instr) : i.matchWord = commandWord i.opcode 0 0 0 0 0 := by
  apply BitVec.eq_of_toNat_eq
  rw [toNat_commandWord, Instr.matchWord, toNat_append_eq_add]
  simp

/-- The bits a format fixes (R61), field by field. -/
def Format.fixedFields : Format → Word32
  | .f3 => commandWord 0xFF 0 0 0 0xF 0xFF
  | .f2 => commandWord 0xFF 0 0 0xF 0xF 0xFF
  | .f1d => commandWord 0xFF 0 0xF 0xF 0xF 0xFF
  | .f1a => commandWord 0xFF 0xF 0 0xF 0xF 0xFF
  | .fp => commandWord 0xFF 0 0xF 0xF 0 0xFF

theorem Format.mask_eq_fixedFields (f : Format) : f.mask = f.fixedFields := by
  apply BitVec.eq_of_toNat_eq
  cases f <;> rw [Format.fixedFields, toNat_commandWord] <;> rfl

theorem and_ones_byte (x : Byte) : x &&& 0xFF = x := BitVec.and_allOnes

theorem and_ones_nibble (x : BitVec 4) : x &&& 0xF = x := BitVec.and_allOnes

/-- A word whose fixed bits read as the opcode `op` is the word of its format with its own fields as operands: the mask
leaves no other field free. -/
theorem Format.word_of_masked {f : Format} {w : Word32} {op : Byte} (h : w &&& f.mask = commandWord op 0 0 0 0 0) :
    f.word op (fieldRd w) (fieldRa w) (fieldRb w) (fieldIdx w) = w := by
  have hw := commandWord_fields w
  rw [← hw, Format.mask_eq_fixedFields] at h
  refine Eq.trans ?_ hw
  cases f <;> simp only [Format.fixedFields, commandWord_and, commandWord_inj, and_ones_byte, and_ones_nibble] at h <;>
    simp only [Format.word, h]

/-- The word of a format has the match word of its opcode under the format's mask. -/
theorem Format.word_masked (f : Format) (op : Byte) (rd ra rb : RegNum) (idx : ParamIdx) :
    f.word op rd ra rb idx &&& f.mask = commandWord op 0 0 0 0 0 := by
  rw [Format.mask_eq_fixedFields]
  cases f <;> simp only [Format.word, Format.fixedFields, commandWord_and, and_ones_byte] <;> simp

/-! ### Decoding an encoding (R68) -/

/-- The register fields and the parameter index an instruction has, 0 for those it does not use. -/
def Instr.operands : Instr → RegNum × RegNum × RegNum × ParamIdx
  | .modmul rd ra rb | .jadd rd ra rb | .padd rd ra rb => (rd, ra, rb, 0)
  | .modinv rd ra | .legendre rd ra | .sqrt rd ra | .lift rd ra | .lower rd ra | .jdbl rd ra | .pdbl rd ra
  | .smul rd ra => (rd, ra, 0, 0)
  | .oncurve ra | .compress ra => (0, ra, 0, 0)
  | .sbmul rd | .decompress rd => (rd, 0, 0, 0)
  | .ldparam rd idx => (rd, 0, 0, idx)

/-- The encoding is the word of the instruction's format with its opcode and operands. -/
theorem encode_eq_word (i : Instr) :
    encode i = i.format.word i.opcode i.operands.1 i.operands.2.1 i.operands.2.2.1 i.operands.2.2.2 := by
  cases i <;> rfl

theorem encode_masked (i : Instr) : encode i &&& i.format.mask = i.matchWord := by
  rw [matchWord_eq, encode_eq_word, Format.word_masked]

/-- The opcode field of an encoding names its instruction, and the fields are its operands. -/
theorem ofOpcode_encode (i : Instr) : ofOpcode (encode i) = some i := by
  rw [encode_eq_word]
  cases i <;> simp [ofOpcode, Instr.format, Instr.opcode, Instr.operands, Format.word]

/-- What `decode` answers where the opcode names an instruction. -/
theorem decode_eq_ok_iff (w : Word32) (i : Instr) :
    decode w = .ok i ↔ ofOpcode w = some i ∧ w &&& i.format.mask = i.matchWord ∧ i.wf = true := by
  unfold decode
  constructor
  · intro h
    split at h
    · cases h
    · split_ifs at h with hmask hwf
      cases h
      exact ⟨‹_›, hmask, hwf⟩
  · rintro ⟨hop, hmask, hwf⟩
    simp only [hop, hmask, hwf, if_true]

/-- Settles O1: the opcode of an encoding names the instruction, the fixed bits match, and the operands are in range. -/
theorem decodeOfEncodeIsInstr : Obligations.DecodeOfEncodeIsInstr := fun i hwf =>
  (decode_eq_ok_iff (encode i) i).2 ⟨ofOpcode_encode i, encode_masked i, hwf⟩

/-! ### Encoding what was decoded (R65, R66) -/

/-- An instruction that `ofOpcode` answers is encoded with the fields of its word. -/
theorem encode_of_ofOpcode {w : Word32} {i : Instr} (h : ofOpcode w = some i) :
    encode i = i.format.word i.opcode (fieldRd w) (fieldRa w) (fieldRb w) (fieldIdx w) := by
  unfold ofOpcode at h
  split at h <;> cases h <;> rfl

/-- Settles O2: the fixed bits of a legal word leave free only the operands that `encode` writes back. -/
theorem legalWordIsItsEncoding : Obligations.LegalWordIsItsEncoding := fun w i h => by
  obtain ⟨hop, hmask, hwf⟩ := (decode_eq_ok_iff w i).1 h
  have hword := Format.word_of_masked (hmask.trans (matchWord_eq i))
  exact ⟨(encode_of_ofOpcode hop).trans hword, hwf, hmask⟩

/-- Settles O3: the listed words, each decoded by evaluation. -/
theorem sampleWordsDecode : Obligations.SampleWordsDecode := by
  unfold Obligations.SampleWordsDecode
  decide

end Sys2Proof
end

section
/-! PROOFS. A command as two halves: what it computes from its sources (`outcome`), and what it then writes (`Effect.apply`). Every
statement about all instructions is proved from these two (R31, R161, R164, R165). -/

namespace Sys2Proof.Machine

/-! ### The two halves of a command -/

/-- What an instruction that completes writes (R31), one constructor per form of result. -/
inductive Effect where
  /-- one register -/
  | single (rd : RegNum) (v : Nat)
  /-- the Euler value, and its symbol in `LEG` (R140) -/
  | euler (rd : RegNum) (v : Nat)
  /-- a root or the sentinel, and `NOROOT` (R141) -/
  | root (rd : RegNum) (v : Nat) (found : Bool)
  /-- an affine pair -/
  | pair (rd : RegNum) (a : Aff)
  /-- a Jacobian triple -/
  | triple (rd : RegNum) (j : Jac)
  /-- a scalar multiple, and `INF` (R120) -/
  | multiple (rd : RegNum) (r : Option Aff)
  /-- `ONCURVE` (R91) -/
  | oncurve (b : Bool)
  /-- `UNCOMP` (R132) -/
  | uncomp
  /-- a byte string in `BUF`, its length in `LEN` (R130) -/
  | bytes (bs : List Byte)

/-- The state an effect leaves, before `BUSY` and `DONE`. -/
def Effect.apply (s : State) : Effect → State
  | .single rd v => s.setSingle rd v
  | .euler rd v => (s.setSingle rd v).setLeg (legBits v)
  | .root rd v found => (s.setSingle rd v).setNoroot (!found)
  | .pair rd a => s.setAff rd a
  | .triple rd j => s.setJac rd j
  | .multiple rd r => s.setMultiple rd r
  | .oncurve b => s.setOncurve b
  | .uncomp => s.setUncomp true
  | .bytes bs => (s.setBuf (s.buf.setBytes 0 bs)).setLen bs.length

/-- Whether the bytes an effect writes have room in a buffer of `size` bytes (R55). -/
def Effect.fits (size : Nat) : Effect → Bool
  | .bytes bs => bs.length ≤ size
  | _ => true

/-- What DECOMPRESS writes of what it decoded (R132). -/
def Decompressed.effect (rd : RegNum) : Decompressed → Effect
  | .point px py => .pair rd { px := px, py := py }
  | .uncompressed => .uncomp

/-- The base point of a parameter set (R5). -/
def basePoint (c : CurveParams) : Aff := { px := c.Gx, py := c.Gy }

/-- What the rule of a legal instruction computes from its sources; the byte string is in range. -/
def ruleOf (s : State) : Instr → Except Cause Effect
  | .modmul rd ra rb => .ok (.single rd (mulP s.P (s.single ra) (s.single rb)))
  | .modinv rd ra => (invP s.P (s.single ra)).map (.single rd)
  | .legendre rd ra => .ok (.euler rd (Machine.euler s.P (s.single ra)))
  | .sqrt rd ra => (sqrtP s.P (s.single ra)).map fun r => .root rd r.1 r.2
  | .lift rd ra => .ok (.triple rd (liftPt (s.aff ra)))
  | .lower rd ra => (lowerPt s.P (s.jac ra)).map (.pair rd)
  | .jadd rd ra rb => .ok (.triple rd (Machine.jadd s.P (s.jac ra) (s.jac rb)))
  | .jdbl rd ra => .ok (.triple rd (Machine.jdbl s.P (s.jac ra)))
  | .padd rd ra rb => (affAdd s.P (s.aff ra) (s.aff rb)).map (.pair rd)
  | .pdbl rd ra => (affDbl s.P (s.aff ra)).map (.pair rd)
  | .oncurve ra => .ok (.oncurve (isOnCurve s.params (s.aff ra)))
  | .smul rd ra => (scalarMult s.P (s.aff ra) s.bufString).map (.multiple rd)
  | .sbmul rd => (scalarMult s.P (basePoint s.params) s.bufString).map (.multiple rd)
  | .compress ra => .ok (.bytes (compressBytes (s.aff ra).px (s.aff ra).py))
  | .decompress rd => (decompressBytes s.params s.bufString).map (Decompressed.effect rd)
  | .ldparam rd idx => .ok (.single rd (paramAt s.params idx))

/-- What an instruction computes: the operand ranges (R66), then the bound of `LEN` (R55), then its rule. -/
def outcome (i : Instr) (s : State) : Except Cause Effect :=
  if i.wf = false then .error .illegal
  else if readsBuf i = true ∧ s.cfg.BUFSZ < s.len.toNat then .error .bufLen
  else ruleOf s i

/-- The end of a command with a given outcome: the effect and completion, or the fault (R161, R165). -/
def State.finish (s : State) : Except Cause Effect → Result
  | .ok e => if e.fits s.cfg.BUFSZ then .next (e.apply s).complete else .fault .outsideBuf
  | .error c => .next (s.raise c)


/-! ### Every instruction is its outcome, finished -/

/-- The outcome of an instruction that reads `BUF`. -/
theorem outcome_of_readsBuf {i : Instr} (s : State) (h : readsBuf i = true) :
    outcome i s =
      if i.wf = false then .error .illegal
      else if s.cfg.BUFSZ < s.len.toNat then .error .bufLen else ruleOf s i := by
  simp [outcome, h]

/-- The outcome of an instruction that does not. -/
theorem outcome_of_not_readsBuf {i : Instr} (s : State) (h : readsBuf i = false) :
    outcome i s = if i.wf = false then .error .illegal else ruleOf s i := by
  simp [outcome, h]

/-- An effect that is not a byte string has room in every buffer. -/
theorem State.finish_ok {s : State} {e : Effect} (h : e.fits s.cfg.BUFSZ = true) :
    s.finish (.ok e) = .next (e.apply s).complete := if_pos h

theorem State.finish_error (s : State) (c : Cause) : s.finish (.error c) = .next (s.raise c) := rfl

/-- An instruction of the form "range check, then a value written by `f`" is its outcome, finished. -/
theorem State.legally_conclude_map {α : Type} (s : State) (ok : Bool) (x : Except Cause α) (f : α → Effect)
    (hf : ∀ a, (f a).fits s.cfg.BUFSZ = true) :
    s.legally ok (s.conclude (x.map fun a => (f a).apply s)) =
      s.finish (if ok = false then .error .illegal else x.map f) := by
  cases ok with
  | false => rfl
  | true =>
    cases x with
    | error c => rfl
    | ok a => exact (State.finish_ok (hf a)).symm

/-- An instruction of the form "range check, bound of `LEN`, then a value written by `f`" is its outcome, finished. -/
theorem State.legally_withBuf_map {α : Type} (s : State) (ok : Bool) (x : List Byte → Except Cause α) (f : α → Effect)
    (hf : ∀ a, (f a).fits s.cfg.BUFSZ = true) :
    s.legally ok (s.withBuf fun k => s.conclude ((x k).map fun a => (f a).apply s)) =
      s.finish (if ok = false then .error .illegal
        else if s.cfg.BUFSZ < s.len.toNat then .error .bufLen else (x s.bufString).map f) := by
  cases ok with
  | false => rfl
  | true =>
    rw [State.legally_true, State.withBuf_eq]
    by_cases hlen : s.cfg.BUFSZ < s.len.toNat
    · simp [hlen, State.finish_error]
    · rw [if_neg (by omega), if_neg (by decide), if_neg hlen]
      exact s.legally_conclude_map true (x s.bufString) f hf

theorem Decompressed.apply_effect (s : State) (rd : RegNum) (d : Decompressed) :
    (d.effect rd).apply s = s.setDecompressed rd d := by cases d <;> rfl

theorem Decompressed.fits_effect (size : Nat) (rd : RegNum) (d : Decompressed) : (d.effect rd).fits size = true := by
  cases d <;> rfl

/-- The meaning of an instruction is its outcome, finished. -/
theorem exec_eq_finish (i : Instr) (s : State) : exec i s = s.finish (outcome i s) := by
  cases i with
  | modmul rd ra rb => rfl
  | legendre rd ra => rfl
  | modinv rd ra => exact s.legally_conclude_map true _ (.single rd) fun _ => rfl
  | sqrt rd ra => 
    exact s.legally_conclude_map true (sqrtP s.P (s.single ra)) (fun r => .root rd r.1 r.2) fun _ => rfl
  | lift rd ra => exact s.legally_conclude_map _ (.ok _) (.triple rd) fun _ => rfl
  | lower rd ra => exact s.legally_conclude_map _ _ (.pair rd) fun _ => rfl
  | jadd rd ra rb => exact s.legally_conclude_map _ (.ok _) (.triple rd) fun _ => rfl
  | jdbl rd ra => exact s.legally_conclude_map _ (.ok _) (.triple rd) fun _ => rfl
  | padd rd ra rb => exact s.legally_conclude_map _ _ (.pair rd) fun _ => rfl
  | pdbl rd ra => exact s.legally_conclude_map _ _ (.pair rd) fun _ => rfl
  | oncurve ra => exact s.legally_conclude_map _ (.ok _) .oncurve fun _ => rfl
  | ldparam rd idx => exact s.legally_conclude_map _ (.ok _) (.single rd) fun _ => rfl
  | smul rd ra =>
    rw [outcome_of_readsBuf s rfl]
    exact s.legally_withBuf_map _ (scalarMult s.P (s.aff ra)) (.multiple rd) fun _ => rfl
  | sbmul rd =>
    rw [outcome_of_readsBuf s rfl]
    exact s.legally_withBuf_map _ (scalarMult s.P (basePoint s.params)) (.multiple rd) fun _ => rfl
  | decompress rd =>
    have h := s.legally_withBuf_map (pairOk rd) (decompressBytes s.params) (Decompressed.effect rd)
      (Decompressed.fits_effect _ rd)
    simp only [Decompressed.apply_effect] at h
    rw [outcome_of_readsBuf s rfl]
    exact h
  | compress ra =>
    cases hok : pairOk ra with
    | false => simp [exec, execCompress, outcome, Instr.wf, hok, State.legally_false, State.finish_error]
    | true =>
      by_cases hfit : (compressBytes (s.aff ra).px (s.aff ra).py).length ≤ s.cfg.BUFSZ
      · simp [exec, execCompress, outcome, Instr.wf, hok, readsBuf, ruleOf, State.legally_true, State.finish, Effect.fits,
          Effect.apply, Memory.writeBytes, hfit, State.conclude_ok]
      · simp [exec, execCompress, outcome, Instr.wf, hok, readsBuf, ruleOf, State.legally_true, State.finish, Effect.fits,
          Memory.writeBytes, hfit]

/-- Everything an instruction can answer: completion after its effect, a fault of the spec, or the model's guard of `BUF`. -/
theorem exec_cases (i : Instr) (s : State) :
    (∃ e, outcome i s = .ok e ∧ e.fits s.cfg.BUFSZ = true ∧ exec i s = .next (e.apply s).complete) ∨
      (∃ e, outcome i s = .ok e ∧ e.fits s.cfg.BUFSZ = false ∧ exec i s = .fault .outsideBuf) ∨
      ∃ c, outcome i s = .error c ∧ exec i s = .next (s.raise c) := by
  rw [exec_eq_finish]
  cases h : outcome i s with
  | error c => exact .inr (.inr ⟨c, rfl, rfl⟩)
  | ok e =>
    cases hfit : e.fits s.cfg.BUFSZ with
    | true => exact .inl ⟨e, rfl, hfit, State.finish_ok hfit⟩
    | false => exact .inr (.inl ⟨e, rfl, hfit, by simp [State.finish, hfit]⟩)

/-- An instruction that answers a next state has completed or has faulted. -/
theorem exec_next {i : Instr} {s t : State} (h : exec i s = .next t) :
    (∃ e, outcome i s = .ok e ∧ t = (e.apply s).complete) ∨ ∃ c, outcome i s = .error c ∧ t = s.raise c := by
  obtain ⟨e, he, -, hn⟩ | ⟨e, -, -, hn⟩ | ⟨c, hc, hn⟩ := exec_cases i s
  · rw [hn] at h; cases h; exact .inl ⟨e, he, rfl⟩
  · rw [hn] at h; cases h
  · rw [hn] at h; cases h; exact .inr ⟨c, hc, rfl⟩

end Sys2Proof.Machine
end

section
/-! PROOFS. What an effect leaves, field by field, and the statements about all instructions (R13, R23, R31, R92, R161, R164, R165). -/

namespace Sys2Proof.Machine

/-! ### A list of register writes -/

/-- The registers written one after the other. -/
def State.setRegs (s : State) (ws : List (Nat × Nat)) : State := ws.foldl (fun s w => s.setReg w.1 w.2) s

@[simp] theorem State.setRegs_nil (s : State) : s.setRegs [] = s := rfl

@[simp] theorem State.setRegs_cons (s : State) (w : Nat × Nat) (ws : List (Nat × Nat)) :
    s.setRegs (w :: ws) = (s.setReg w.1 w.2).setRegs ws := rfl

/-- Register writes change the register file only. -/
theorem State.setRegs_eq (s : State) (ws : List (Nat × Nat)) : s.setRegs ws = { s with x := (s.setRegs ws).x } := by
  induction ws generalizing s with
  | nil => rfl
  | cons w ws ih => rw [State.setRegs_cons, ih]; rfl

/-- The written register file depends on the old one and the width, and on nothing else. -/
theorem State.setRegs_x_congr {s s' : State} (hx : s'.x = s.x) (hW : s'.cfg.W = s.cfg.W) (ws : List (Nat × Nat)) :
    (s'.setRegs ws).x = (s.setRegs ws).x := by
  induction ws generalizing s s' with
  | nil => exact hx
  | cons w ws ih => exact ih (by simp [hx, hW]) hW

theorem State.setRegs_kept (s : State) (ws : List (Nat × Nat)) : RegsKept s (s.setRegs ws) (ws.map Prod.fst) := by
  induction ws generalizing s with
  | nil => exact ⟨rfl, fun _ _ => rfl⟩
  | cons w ws ih =>
    obtain ⟨hlen, hreg⟩ := ih (s.setReg w.1 w.2)
    refine ⟨hlen.trans (State.length_setReg _ _ _), fun i hi => ?_⟩
    rw [List.map_cons, List.mem_cons, not_or] at hi
    exact (hreg i hi.2).trans (State.reg_setReg_other s hi.1 w.2)

theorem State.Sized.setRegs {s : State} (hs : s.Sized) (ws : List (Nat × Nat)) : (s.setRegs ws).Sized := by
  induction ws generalizing s with
  | nil => exact hs
  | cons w ws ih => exact ih (hs.setReg w.1 w.2)

/-- Two machines of one size agree on every written register, whatever they held. -/
theorem State.setRegs_reg_congr {s s' : State} (hlen : s'.x.length = s.x.length) (hW : s'.cfg.W = s.cfg.W)
    (ws : List (Nat × Nat)) {j : Nat} (hj : j ∈ ws.map Prod.fst ∨ s'.reg j = s.reg j) :
    (s'.setRegs ws).reg j = (s.setRegs ws).reg j := by
  induction ws generalizing s s' with
  | nil => simpa using hj
  | cons w ws ih =>
    refine ih (by simpa using hlen) hW ?_
    by_cases hw : j = w.1
    · right
      subst hw
      simp only [State.reg, State.setReg_x, List.getElem?_set_self', hW]
      by_cases hlt : w.1 < s.x.length
      · rw [List.getElem?_eq_getElem hlt, List.getElem?_eq_getElem (hlen ▸ hlt)]; rfl
      · rw [List.getElem?_eq_none (by omega), List.getElem?_eq_none (by omega)]
    · rw [State.reg_setReg_other s' hw, State.reg_setReg_other s hw]
      rw [List.map_cons, List.mem_cons] at hj
      exact (or_iff_right hw).1 (or_assoc.1 hj)

/-! ### An effect, field by field -/

namespace Effect

/-- The registers an effect writes, with their values. -/
def writes : Effect → List (Nat × Nat)
  | single rd v | euler rd v | root rd v _ => [(rd.toNat, v)]
  | pair rd a | multiple rd (some a) => [(rd.toNat, a.px), (rd.toNat + 1, a.py)]
  | multiple rd none => [(rd.toNat, 0), (rd.toNat + 1, 0)]
  | triple rd j => [(rd.toNat, j.X), (rd.toNat + 1, j.Y), (rd.toNat + 2, j.Z)]
  | oncurve _ | uncomp | bytes _ => []

/-- `STATUS` after an effect, before `BUSY` and `DONE`. -/
def status (st : Status) : Effect → Status
  | euler _ v => { st with leg := legBits v }
  | root _ _ found => { st with noroot := !found }
  | multiple _ r => { st with inf := r.isNone }
  | oncurve b => { st with oncurve := b }
  | uncomp => { st with uncomp := true }
  | single _ _ | pair _ _ | triple _ _ | bytes _ => st

/-- The byte string an effect puts in `BUF`, if it does. -/
def string : Effect → Option (List Byte)
  | bytes bs => some bs
  | _ => none

/-- `BUF` after an effect. -/
def buf (m : Memory) (e : Effect) : Memory := e.string.elim m (m.setBytes 0)

/-- `LEN` after an effect. -/
def len (n : Byte) (e : Effect) : Byte := e.string.elim n fun bs => BitVec.ofNat 8 bs.length

/-- The numbers of the registers an effect writes. -/
def dests (e : Effect) : List Nat := e.writes.map Prod.fst

/-- An effect writes registers, `STATUS`, `BUF` and `LEN`, and nothing else. -/
theorem apply_eq (e : Effect) (s : State) :
    e.apply s = { s with x := (s.setRegs e.writes).x, status := e.status s.status, buf := e.buf s.buf, len := e.len s.len } := by
  cases e with
  | multiple rd r => cases r <;> rfl
  | _ => rfl

section
variable (e : Effect) (s : State)

@[simp] theorem apply_x : (e.apply s).x = (s.setRegs e.writes).x := by rw [apply_eq]
@[simp] theorem apply_status : (e.apply s).status = e.status s.status := by rw [apply_eq]
@[simp] theorem apply_buf : (e.apply s).buf = e.buf s.buf := by rw [apply_eq]
@[simp] theorem apply_len : (e.apply s).len = e.len s.len := by rw [apply_eq]
@[simp] theorem apply_cfg : (e.apply s).cfg = s.cfg := by rw [apply_eq]

theorem apply_hostSide : HostSideKept s (e.apply s) := by
  rw [apply_eq]
  exact ⟨rfl, rfl, rfl, rfl, rfl, rfl, rfl⟩

theorem apply_reg (i : Nat) : (e.apply s).reg i = (s.setRegs e.writes).reg i := State.reg_congr (e.apply_x s) i

theorem apply_regsKept : RegsKept s (e.apply s) e.dests := by
  obtain ⟨hlen, hreg⟩ := s.setRegs_kept e.writes
  exact ⟨by rw [apply_x, hlen], fun i hi => (e.apply_reg s i).trans (hreg i hi)⟩

/-- No effect touches `ERR` and `ERRCODE`. -/
@[simp] theorem status_err (st : Status) : (e.status st).err = st.err := by cases e <;> rfl

@[simp] theorem status_errcode (st : Status) : (e.status st).errcode = st.errcode := by cases e <;> rfl

end

end Effect

/-! ### The form of effect each instruction has -/

/-- The effects an instruction can have, by its form of result. -/
def Yields (e : Effect) : Instr → Prop
  | .modmul rd _ _ | .modinv rd _ | .ldparam rd _ => ∃ v, e = .single rd v
  | .legendre rd _ => ∃ v, e = .euler rd v
  | .sqrt rd _ => ∃ v found, e = .root rd v found
  | .lift rd _ | .jadd rd _ _ | .jdbl rd _ => ∃ j, e = .triple rd j
  | .lower rd _ | .padd rd _ _ | .pdbl rd _ => ∃ a, e = .pair rd a
  | .oncurve _ => ∃ b, e = .oncurve b
  | .smul rd _ | .sbmul rd => ∃ r, e = .multiple rd r
  | .compress _ => ∃ bs, e = .bytes bs
  | .decompress rd => (∃ a, e = .pair rd a) ∨ e = .uncomp

/-- A mapped computation that answers a value has computed one. -/
theorem Except.map_eq_ok {ε α β : Type} {f : α → β} {x : Except ε α} {b : β} (h : x.map f = .ok b) :
    ∃ a, x = .ok a ∧ f a = b := by
  cases x with
  | error c => cases h
  | ok a => cases h; exact ⟨a, rfl, rfl⟩

/-- A mapped computation raises what the computation raises. -/
theorem Except.map_eq_error {ε α β : Type} {f : α → β} {x : Except ε α} {c : ε} (h : x.map f = .error c) :
    x = .error c := by
  cases x with
  | error d => cases h; rfl
  | ok a => cases h

theorem outcome_eq_ok {i : Instr} {s : State} {e : Effect} (h : outcome i s = .ok e) : i.wf = true ∧ ruleOf s i = .ok e := by
  unfold outcome at h
  split at h
  · cases h
  · split at h
    · cases h
    · exact ⟨by simpa using ‹¬ i.wf = false›, h⟩

theorem yields_of_ruleOf {i : Instr} {s : State} {e : Effect} (h : ruleOf s i = .ok e) : Yields e i := by
  cases i with
  | modmul | legendre | lift | jadd | jdbl | oncurve | compress | ldparam => cases h; exact ⟨_, rfl⟩
  | modinv | lower | padd | pdbl | smul | sbmul =>
    obtain ⟨a, -, rfl⟩ := Except.map_eq_ok h
    exact ⟨_, rfl⟩
  | sqrt =>
    obtain ⟨r, -, rfl⟩ := Except.map_eq_ok h
    exact ⟨_, _, rfl⟩
  | decompress =>
    obtain ⟨d, -, rfl⟩ := Except.map_eq_ok h
    cases d with
    | point px py => exact .inl ⟨_, rfl⟩
    | uncompressed => exact .inr rfl

theorem yields_of_outcome {i : Instr} {s : State} {e : Effect} (h : outcome i s = .ok e) : Yields e i :=
  yields_of_ruleOf (outcome_eq_ok h).2

/-- The registers an effect writes are the destinations of its instruction, none for DECOMPRESS of header 0x04. -/
theorem Yields.dests_eq {e : Effect} {i : Instr} (h : Yields e i) : e.dests = writeRegs i ∨ e = .uncomp := by
  cases i with
  | modmul | modinv | ldparam | legendre | lift | jadd | jdbl | lower | padd | pdbl | oncurve | compress =>
    obtain ⟨v, rfl⟩ := h
    exact .inl rfl
  | sqrt =>
    obtain ⟨v, found, rfl⟩ := h
    exact .inl rfl
  | smul | sbmul =>
    obtain ⟨r, rfl⟩ := h
    cases r <;> exact .inl rfl
  | decompress =>
    obtain ⟨a, rfl⟩ | rfl := h
    · exact .inl rfl
    · exact .inr rfl

/-- Only COMPRESS writes a byte string. -/
theorem Yields.string_eq_none {e : Effect} {i : Instr} (h : Yields e i) (hbuf : writesBuf i = false) : e.string = none := by
  cases i with
  | modmul | modinv | ldparam | legendre | lift | jadd | jdbl | lower | padd | pdbl | oncurve | smul | sbmul =>
    obtain ⟨v, rfl⟩ := h
    rfl
  | sqrt =>
    obtain ⟨v, found, rfl⟩ := h
    rfl
  | compress => cases hbuf
  | decompress => obtain ⟨a, rfl⟩ | rfl := h <;> rfl

end Sys2Proof.Machine
end

section
/-! PROOFS. The statements about all instructions: how they end, what they write and read, and which flags they own. -/

namespace Sys2Proof.Machine

/-! ### How a command ends (R161, R164, R165) -/

/-- Completion and fault both end the command and leave the host side alone. -/
theorem exec_ends {i : Instr} {s t : State} (h : exec i s = .next t) :
    t.status.busy = false ∧ t.status.done = true ∧ HostSideKept s t := by
  obtain ⟨e, -, rfl⟩ | ⟨c, -, rfl⟩ := exec_next h
  · exact ⟨rfl, rfl, e.apply_hostSide s⟩
  · exact ⟨rfl, rfl, rfl, rfl, rfl, rfl, rfl, rfl, rfl⟩

/-- Settles O39: both ends of a command. -/
theorem commandsEndAndKeepHostSide : Obligations.CommandsEndAndKeepHostSide := fun _ _ _ h => exec_ends h

/-- An instruction that leaves `ERR` set where it was clear has faulted: an effect does not touch `ERR`. -/
theorem exec_faulted {i : Instr} {s t : State} (h : exec i s = .next t) (hs : s.status.err = false)
    (ht : t.status.err = true) : ∃ c, outcome i s = .error c ∧ t = s.raise c := by
  obtain ⟨e, -, rfl⟩ | hfault := exec_next h
  · simp [hs] at ht
  · exact hfault

/-- While a command runs the invariant leaves only `BUSY` set. -/
theorem State.Inv.status_of_busy {s : State} (hs : s.Inv) (hbusy : s.status.busy = true) :
    s.status = { Status.zero with busy := true } := by
  obtain ⟨-, -, hrun, herr, -, -, -⟩ := hs
  obtain ⟨hdone, herr0, hinf, hnoroot, honcurve, huncomp, hleg⟩ := hrun hbusy
  have hcode : s.status.errcode = 0 := by
    by_contra hne
    exact absurd (herr.2 hne) (by simp [herr0])
  cases hst : s.status
  simp_all [Status.zero]

/-- Settles O40: a fault is `raise`, which writes `STATUS` alone; while a command runs the invariant has the flags 0. -/
theorem faultsArePrecise : Obligations.FaultsArePrecise := fun i s t h hs ht => by
  obtain ⟨c, -, rfl⟩ := exec_faulted h hs ht
  refine ⟨c, State.raise_eq_faulted s c, fun hbusy hinv => ?_⟩
  rw [State.raise_status, hinv.status_of_busy hbusy]
  rfl

/-! ### What a command writes (R13, R31) -/

/-- Settles O42: an effect writes registers among the destinations, and no byte string unless the instruction is COMPRESS. -/
theorem writesOnlyItsDestinations : Obligations.WritesOnlyItsDestinations := fun i s t h => by
  obtain ⟨e, he, rfl⟩ | ⟨c, -, rfl⟩ := exec_next h
  · have hy := yields_of_outcome he
    obtain ⟨hlen, hreg⟩ := e.apply_regsKept s
    refine ⟨⟨hlen, fun j hj => hreg j ?_⟩, fun hbuf => ?_⟩
    · obtain hd | rfl := hy.dests_eq
      · rwa [hd]
      · exact List.not_mem_nil
    · have hnone := hy.string_eq_none hbuf
      simp [BufKeptFrom, Effect.buf, Effect.len, hnone]
  · exact ⟨⟨rfl, fun _ _ => rfl⟩, fun _ => ⟨fun _ _ => rfl, rfl⟩⟩

/-! ### The flags (R23) -/

/-- Settles O44: the form of its effect decides which flag an instruction writes. -/
theorem resultFlagsOnlyFromOwner : Obligations.ResultFlagsOnlyFromOwner := fun i s t h => by
  obtain ⟨e, he, rfl⟩ | ⟨c, -, rfl⟩ := exec_next h
  · have hy := yields_of_outcome he
    rw [State.complete_status, Effect.apply_status]
    cases i with
    | modmul | modinv | lift | lower | jadd | jdbl | padd | pdbl | compress | ldparam =>
      obtain ⟨v, rfl⟩ := hy
      exact ⟨.inl rfl, .inl rfl, .inl rfl, .inl rfl, .inl rfl⟩
    | legendre rd ra =>
      obtain ⟨v, rfl⟩ := hy
      exact ⟨.inl rfl, .inl rfl, .inl rfl, .inl rfl, .inr ⟨rd, ra, rfl⟩⟩
    | sqrt rd ra =>
      obtain ⟨v, found, rfl⟩ := hy
      exact ⟨.inl rfl, .inr ⟨rd, ra, rfl⟩, .inl rfl, .inl rfl, .inl rfl⟩
    | oncurve ra =>
      obtain ⟨b, rfl⟩ := hy
      exact ⟨.inl rfl, .inl rfl, .inr ⟨ra, rfl⟩, .inl rfl, .inl rfl⟩
    | smul rd ra =>
      obtain ⟨r, rfl⟩ := hy
      exact ⟨.inr (.inl ⟨rd, ra, rfl⟩), .inl rfl, .inl rfl, .inl rfl, .inl rfl⟩
    | sbmul rd =>
      obtain ⟨r, rfl⟩ := hy
      exact ⟨.inr (.inr ⟨rd, rfl⟩), .inl rfl, .inl rfl, .inl rfl, .inl rfl⟩
    | decompress rd =>
      obtain ⟨a, rfl⟩ | rfl := hy <;> exact ⟨.inl rfl, .inl rfl, .inl rfl, .inr ⟨rd, rfl⟩, .inl rfl⟩
  · exact ⟨.inl rfl, .inl rfl, .inl rfl, .inl rfl, .inl rfl⟩

/-! ### What a command reads (R31, R92) -/

/-- Two machines agree on what the instruction `i` reads (R31, R92): its registers, the bytes below `LEN`, and of the selected set
only the values it uses. -/
structure SourcesAgree (i : Instr) (s s' : State) : Prop where
  size : s'.cfg.BUFSZ = s.cfg.BUFSZ
  regs : ∀ j ∈ readRegs i, s'.reg j = s.reg j
  len : readsBuf i = true → s'.len = s.len
  bytes : readsBuf i = true → s'.bufString = s.bufString
  modulus : readsParams i = true → s'.P = s.P
  base : ∀ rd, i = .sbmul rd → basePoint s'.params = basePoint s.params
  curve : ∀ ra, i = .oncurve ra → s'.params.B = s.params.B
  codec : ∀ rd, i = .decompress rd → s'.params.B = s.params.B ∧ s'.params.bitSize = s.params.bitSize
  param : ∀ rd idx, i = .ldparam rd idx → s'.params = s.params

theorem isOnCurve_congr {c c' : CurveParams} (hP : c'.P = c.P) (hB : c'.B = c.B) (a : Aff) : isOnCurve c' a = isOnCurve c a := by
  unfold isOnCurve
  rw [hP, hB]

theorem decompressBytes_congr {c c' : CurveParams} (hP : c'.P = c.P) (hB : c'.B = c.B) (hbits : c'.bitSize = c.bitSize)
    (k : List Byte) : decompressBytes c' k = decompressBytes c k := by
  unfold decompressBytes
  rw [hP, hB, hbits]

/-- A rule computes the same from the same sources. -/
theorem ruleOf_congr {i : Instr} {s s' : State} (h : SourcesAgree i s s') : ruleOf s' i = ruleOf s i := by
  have hsingle {r : RegNum} (hr : r.toNat ∈ readRegs i) : s'.single r = s.single r := h.regs _ hr
  have haff {r : RegNum} (h0 : r.toNat ∈ readRegs i) (h1 : r.toNat + 1 ∈ readRegs i) : s'.aff r = s.aff r := by
    rw [State.aff, State.aff, h.regs _ h0, h.regs _ h1]
  have hjac {r : RegNum} (h0 : r.toNat ∈ readRegs i) (h1 : r.toNat + 1 ∈ readRegs i) (h2 : r.toNat + 2 ∈ readRegs i) :
      s'.jac r = s.jac r := by
    rw [State.jac, State.jac, h.regs _ h0, h.regs _ h1, h.regs _ h2]
  cases i with
  | modmul rd ra rb => rw [ruleOf, ruleOf, h.modulus rfl, hsingle (by simp [readRegs]), hsingle (by simp [readRegs])]
  | modinv rd ra | legendre rd ra | sqrt rd ra => rw [ruleOf, ruleOf, h.modulus rfl, hsingle (by simp [readRegs])]
  | lift rd ra | compress ra => rw [ruleOf, ruleOf, haff (by simp [readRegs]) (by simp [readRegs])]
  | lower rd ra | jdbl rd ra =>
    rw [ruleOf, ruleOf, h.modulus rfl, hjac (by simp [readRegs]) (by simp [readRegs]) (by simp [readRegs])]
  | jadd rd ra rb =>
    rw [ruleOf, ruleOf, h.modulus rfl, hjac (r := ra) (by simp [readRegs]) (by simp [readRegs]) (by simp [readRegs]),
      hjac (r := rb) (by simp [readRegs]) (by simp [readRegs]) (by simp [readRegs])]
  | padd rd ra rb =>
    rw [ruleOf, ruleOf, h.modulus rfl, haff (r := ra) (by simp [readRegs]) (by simp [readRegs]),
      haff (r := rb) (by simp [readRegs]) (by simp [readRegs])]
  | pdbl rd ra => rw [ruleOf, ruleOf, h.modulus rfl, haff (by simp [readRegs]) (by simp [readRegs])]
  | oncurve ra =>
    rw [ruleOf, ruleOf, isOnCurve_congr (h.modulus rfl) (h.curve ra rfl), haff (by simp [readRegs]) (by simp [readRegs])]
  | smul rd ra => rw [ruleOf, ruleOf, h.modulus rfl, h.bytes rfl, haff (by simp [readRegs]) (by simp [readRegs])]
  | sbmul rd => rw [ruleOf, ruleOf, h.modulus rfl, h.bytes rfl, h.base rd rfl]
  | decompress rd =>
    obtain ⟨hB, hbits⟩ := h.codec rd rfl
    rw [ruleOf, ruleOf, h.bytes rfl, decompressBytes_congr (h.modulus rfl) hB hbits]
  | ldparam rd idx => rw [ruleOf, ruleOf, h.param rd idx rfl]

/-- The outcome of an instruction depends on its sources only. -/
theorem outcome_congr {i : Instr} {s s' : State} (h : SourcesAgree i s s') : outcome i s' = outcome i s := by
  cases hbuf : readsBuf i with
  | true => rw [outcome_of_readsBuf s' hbuf, outcome_of_readsBuf s hbuf, h.size, h.len hbuf, ruleOf_congr h]
  | false => rw [outcome_of_not_readsBuf s' hbuf, outcome_of_not_readsBuf s hbuf, ruleOf_congr h]

/-- The string below `LEN` is decided by `LEN` and the bytes below it. -/
theorem bufString_congr {s s' : State} (hlen : s'.len = s.len)
    (hbytes : ∀ a, a < s.len.toNat → s'.buf.byteAt a = s.buf.byteAt a) : s'.bufString = s.bufString := by
  unfold State.bufString
  rw [hlen]
  exact List.map_congr_left fun a ha => hbytes a (List.mem_range.1 ha)

/-- The premises of R31's noninterference say that the sources agree. -/
theorem sourcesAgree_of_equal {i : Instr} {s s' : State} (hsize : s.cfg.BUFSZ = s'.cfg.BUFSZ)
    (hparams : readsParams i = true → s.params = s'.params) (hregs : ∀ j ∈ readRegs i, s.reg j = s'.reg j)
    (hbuf : readsBuf i = true → s.len = s'.len ∧ ∀ a, a < s.len.toNat → s.buf.byteAt a = s'.buf.byteAt a) :
    SourcesAgree i s s' where
  size := hsize.symm
  regs j hj := (hregs j hj).symm
  len h := (hbuf h).1.symm
  bytes h := bufString_congr (hbuf h).1.symm fun a ha => ((hbuf h).2 a ha).symm
  modulus h := congrArg CurveParams.P (hparams h).symm
  base rd h := by rw [hparams (h ▸ rfl)]
  curve ra h := by rw [hparams (h ▸ rfl)]
  codec rd h := by rw [hparams (h ▸ rfl)]; exact ⟨rfl, rfl⟩
  param rd idx h := (hparams (h ▸ rfl)).symm

/-- The bytes below the new `LEN` after a byte string was written are those of the string. -/
theorem Effect.bytes_below_len {bs : List Byte} (m : Memory) {a : Nat} (h : a < (BitVec.ofNat 8 bs.length).toNat) :
    (m.setBytes 0 bs).byteAt a = bs[a]?.getD 0 := by
  rw [BitVec.toNat_ofNat] at h
  have := Nat.mod_le bs.length (2 ^ 8)
  rw [Memory.byteAt_setBytes, if_pos (by omega), Nat.sub_zero]

/-- Settles O43: equal sources give one outcome, which writes the same values into both machines. -/
theorem readsOnlyItsSources : Obligations.ReadsOnlyItsSources :=
  fun i s s' t t' hs hs' hW hsize hparams hstatus hregs hbuf h h' => by
  have hout := outcome_congr (sourcesAgree_of_equal hsize hparams hregs hbuf)
  obtain ⟨e, he, rfl⟩ | ⟨c, hc, rfl⟩ := exec_next h <;> obtain ⟨e', he', rfl⟩ | ⟨c', hc', rfl⟩ := exec_next h'
  · obtain rfl : e' = e := Except.ok.inj (he'.symm.trans (hout.trans he))
    refine ⟨by simp [hstatus], fun _ huncomp => ⟨fun j hj => ?_, fun hw => ?_⟩⟩
    · have hd : j ∈ e'.dests := by
        obtain hd | rfl := (yields_of_outcome he).dests_eq
        · rwa [hd]
        · simp [Effect.status] at huncomp
      rw [State.reg_complete, State.reg_complete, Effect.apply_reg, Effect.apply_reg]
      exact State.setRegs_reg_congr (hs.length.trans hs'.length.symm) hW _ (.inl hd)
    · cases i with
      | compress ra =>
        obtain ⟨bs, rfl⟩ := yields_of_outcome he
        exact ⟨rfl, fun a ha => (Effect.bytes_below_len s.buf ha).trans (Effect.bytes_below_len s'.buf ha).symm⟩
      | _ => cases hw
  · simp [hout, he] at hc'
  · simp [hout, hc] at he'
  · obtain rfl : c' = c := Except.error.inj (hc'.symm.trans (hout.trans hc))
    exact ⟨by simp [hstatus], by simp⟩

/-! ### The group order and the curve coefficient (R92) -/

/-- An effect writes the same into a machine that differs in a configuration of the same width. -/
theorem Effect.apply_withCfg (e : Effect) (s : State) {c : Config} (hW : c.W = s.cfg.W) :
    e.apply { s with cfg := c } = { e.apply s with cfg := c } := by
  rw [Effect.apply_eq, Effect.apply_eq, State.setRegs_x_congr (s := s) (s' := { s with cfg := c }) rfl hW]

/-- An instruction answers the same in a machine with another configuration of the same sizes, if its sources agree. -/
theorem exec_withCfg {i : Instr} {s t : State} {c : Config} (hW : c.W = s.cfg.W)
    (hsrc : SourcesAgree i s { s with cfg := c }) (h : exec i s = .next t) :
    exec i { s with cfg := c } = .next { t with cfg := c } := by
  have hout := outcome_congr hsrc
  rw [exec_eq_finish] at h ⊢
  rw [hout]
  cases ho : outcome i s with
  | error cause => rw [ho] at h; cases h; rfl
  | ok e =>
    rw [ho, State.finish] at h
    split at h
    · cases h
      rw [State.finish_ok (by rw [hsrc.size]; assumption), Effect.apply_withCfg e s hW]
      rfl
    · cases h

theorem params_withOrders (s : State) (n0 n1 : Nat) :
    ({ s with cfg := withOrders s.cfg n0 n1 } : State).params = { s.params with N := if s.ctrl.curve then n1 else n0 } := by
  unfold State.params
  cases s.ctrl.curve <;> rfl

theorem params_withCoefficients (s : State) (b0 b1 : Nat) :
    ({ s with cfg := withCoefficients s.cfg b0 b1 } : State).params =
      { s.params with B := if s.ctrl.curve then b1 else b0 } := by
  unfold State.params
  cases s.ctrl.curve <;> rfl

/-- LDPARAM alone reads the group order. -/
theorem sourcesAgree_withOrders {i : Instr} (s : State) (n0 n1 : Nat) (hld : ∀ rd idx, i ≠ .ldparam rd idx) :
    SourcesAgree i s { s with cfg := withOrders s.cfg n0 n1 } where
  size := rfl
  regs _ _ := rfl
  len _ := rfl
  bytes _ := rfl
  modulus _ := by rw [State.P, params_withOrders]; rfl
  base _ _ := by rw [params_withOrders]; rfl
  curve _ _ := by rw [params_withOrders]
  codec _ _ := by rw [params_withOrders]; exact ⟨rfl, rfl⟩
  param rd idx hi := absurd hi (hld rd idx)

/-- ONCURVE, DECOMPRESS and LDPARAM alone read the curve coefficient. -/
theorem sourcesAgree_withCoefficients {i : Instr} (s : State) (b0 b1 : Nat) (hld : ∀ rd idx, i ≠ .ldparam rd idx)
    (honcurve : ∀ ra, i ≠ .oncurve ra) (hdecompress : ∀ rd, i ≠ .decompress rd) :
    SourcesAgree i s { s with cfg := withCoefficients s.cfg b0 b1 } where
  size := rfl
  regs _ _ := rfl
  len _ := rfl
  bytes _ := rfl
  modulus _ := by rw [State.P, params_withCoefficients]; rfl
  base _ _ := by rw [params_withCoefficients]; rfl
  curve ra hi := absurd hi (honcurve ra)
  codec rd hi := absurd hi (hdecompress rd)
  param rd idx hi := absurd hi (hld rd idx)

/-- Settles O45: the values that the two changed configurations share are all that the instructions in question read. -/
theorem orderAndCoefficientUnread : Obligations.OrderAndCoefficientUnread := fun _ s _ a b hld h =>
  ⟨exec_withCfg rfl (sourcesAgree_withOrders s a b hld) h, fun honcurve hdecompress =>
    exec_withCfg rfl (sourcesAgree_withCoefficients s a b hld honcurve hdecompress) h⟩

end Sys2Proof.Machine
end

section
/-! PROOFS. Byte strings and their values (R7, R11), and Montgomery multiplication (R81). -/

namespace Sys2Proof.Machine

/-! ### Byte strings (R11) -/

@[simp] theorem beInt_nil : beInt [] = 0 := rfl

theorem beInt_singleton (b : Byte) : beInt [b] = b.toNat := by simp [beInt]

theorem beInt_cons (b : Byte) (bs : List Byte) : beInt (b :: bs) = b.toNat * 256 ^ bs.length + beInt bs := by
  rw [← beInt_singleton b, ← beInt_append]
  rfl

/-- A string of `n` bytes has a value below `256^n`. -/
theorem beInt_lt (bs : List Byte) : beInt bs < 256 ^ bs.length := by
  induction bs with
  | nil => simp
  | cons b bs ih =>
    have hb : b.toNat + 1 ≤ 256 := b.isLt
    calc beInt (b :: bs) < b.toNat * 256 ^ bs.length + 256 ^ bs.length := by rw [beInt_cons]; omega
      _ = (b.toNat + 1) * 256 ^ bs.length := by ring
      _ ≤ 256 * 256 ^ bs.length := Nat.mul_le_mul_right _ hb
      _ = 256 ^ (b :: bs).length := by rw [List.length_cons, pow_succ']

/-- `bitlen(v) ≤ n` says that `v` has at most `n` bits (R7). -/
theorem bitlen_le_iff {v n : Nat} : bitlen v ≤ n ↔ v < 2 ^ n := by
  unfold bitlen
  by_cases h : v = 0
  · simp [h]
  · rw [if_neg h, Nat.succ_le_iff, Nat.log2_lt h]

theorem pow_256_eq (n : Nat) : 256 ^ n = 2 ^ (8 * n) := by rw [pow_mul]; rfl

/-- The minimal string has `ceil(bitlen(v) / 8)` bytes: so many hold `v`, and fewer do not. -/
theorem beMinBytes_length (v : Nat) : (beMinBytes v).length = (bitlen v + 7) / 8 := by
  have hle : (beMinBytes v).length ≤ (bitlen v + 7) / 8 := by
    apply beMinBytes_length_le
    rw [pow_256_eq, ← bitlen_le_iff]
    omega
  have hge : bitlen v ≤ 8 * (beMinBytes v).length := by
    rw [bitlen_le_iff, ← pow_256_eq]
    simpa [beInt_beMinBytes] using beInt_lt (beMinBytes v)
  omega

/-- Settles O8: a string with the value `v` has room for `v`, so it is no shorter than the minimal one. -/
theorem minimalBytesAreShortest : Obligations.MinimalBytesAreShortest := fun v =>
  ⟨beInt_beMinBytes v, beMinBytes_length v, fun bs hbs => beMinBytes_length_le (hbs ▸ beInt_lt bs), rfl⟩

/-- COMPRESS emits the header and `ceil(bitlen(x) / 8)` bytes. -/
theorem compressBytes_length (px py : Nat) : (compressBytes px py).length = 1 + (bitlen px + 7) / 8 := by
  rw [compressBytes, List.length_cons, beMinBytes_length, Nat.add_comm]

/-- What COMPRESS emits for a register of a sized machine fits into `BUF` (R55). -/
theorem compressBytes_fits {s : State} (hs : s.Sized) (i : Nat) (py : Nat) :
    (compressBytes (s.reg i) py).length ≤ s.cfg.BUFSZ := by
  have hbits := bitlen_le_iff.2 (hs.reg_lt i)
  obtain ⟨⟨-, hW, -, hbuf, -⟩, -⟩ := hs
  rw [compressBytes_length]
  omega

/-! ### Montgomery multiplication (R81) -/

/-- `Pinv * P ≡ -1 (mod 2^w)` for an odd `P`. -/
theorem montPinv_spec {w P : Nat} (hP : P % 2 = 1) : 2 ^ w ∣ montPinv w P * P + 1 := by
  have hpos : 0 < 2 ^ w := Nat.two_pow_pos w
  have hcop : Nat.gcd (P % 2 ^ w) (2 ^ w) = 1 := by
    rw [← Nat.gcd_rec]
    exact Nat.Coprime.pow_left w (Nat.coprime_two_left.2 (Nat.odd_iff.2 hP))
  obtain ⟨u, hu, hlt, hinv⟩ := invP_ok hpos hcop
  have hcast : ((montPinv w P : Nat) : ZMod (2 ^ w)) = -(u : ZMod (2 ^ w)) := by
    rw [montPinv, hu, ZMod.natCast_mod, Nat.cast_sub hlt.le, ZMod.natCast_self, zero_sub]
  have hone : (u : ZMod (2 ^ w)) * P = 1 := by
    have := (ZMod.natCast_eq_natCast_iff' (u * P) 1 (2 ^ w)).2 hinv
    simpa using this
  rw [← ZMod.natCast_eq_zero_iff]
  push_cast [hcast]
  linear_combination -hone

/-- `REDC(T) * 2^w ≡ T (mod P)`, and it is reduced for `T < 2^w * P`. -/
theorem redc_spec {w P T : Nat} (hP : P % 2 = 1) (hT : T < 2 ^ w * P) :
    redc w P T < P ∧ ((redc w P T : Nat) : ZMod P) * 2 ^ w = T := by
  have hpos : 0 < 2 ^ w := Nat.two_pow_pos w
  set m := T % 2 ^ w * montPinv w P % 2 ^ w with hm
  have hdvd : 2 ^ w ∣ T + m * P := by
    have hspec := (ZMod.natCast_eq_zero_iff _ _).2 (montPinv_spec (w := w) hP)
    rw [← ZMod.natCast_eq_zero_iff, hm]
    push_cast [ZMod.natCast_mod] at hspec ⊢
    linear_combination (T : ZMod (2 ^ w)) * hspec
  obtain ⟨t, ht⟩ := hdvd
  have hmlt : m < 2 ^ w := Nat.mod_lt _ hpos
  have htlt : t < 2 * P := by
    have h1 : m * P < 2 ^ w * P := Nat.mul_lt_mul_of_pos_right hmlt (by omega)
    have h2 : 2 ^ w * t < 2 ^ w * (2 * P) := by rw [← ht]; linarith
    exact Nat.lt_of_mul_lt_mul_left h2
  have hcast : (t : ZMod P) * 2 ^ w = T := by
    have h := congrArg (Nat.cast (R := ZMod P)) ht
    push_cast [ZMod.natCast_self] at h
    linear_combination -h
  have hredc : redc w P T = if t ≥ P then t - P else t := by
    simp only [redc]
    rw [← hm, ht, Nat.mul_div_cancel_left _ hpos]
  rw [hredc]
  split
  · refine ⟨by omega, ?_⟩
    rw [Nat.cast_sub (by assumption), ZMod.natCast_self, sub_zero, hcast]
  · exact ⟨by omega, hcast⟩

/-- Settles O10: the first reduction leaves `a * b` divided by `2^w`, the second multiplies that by `2^w` again. -/
theorem montgomeryComputesProduct : Obligations.MontgomeryComputesProduct := fun w P a b hP hPw ha hb => by
  have hpos : 0 < P := by omega
  have hab : a * b < 2 ^ w * P := Nat.mul_lt_mul'' (ha.trans hPw) hb
  obtain ⟨h1lt, h1⟩ := redc_spec hP hab
  have hR2 : montR2 w P < P := Nat.mod_lt _ hpos
  have h2T : redc w P (a * b) * montR2 w P < 2 ^ w * P := Nat.mul_lt_mul'' (h1lt.trans hPw) hR2
  obtain ⟨h2lt, h2⟩ := redc_spec hP h2T
  apply eq_of_cast_eq h2lt (mulP_lt hpos a b)
  have hunit : IsUnit ((2 : ZMod P) ^ w) := by
    have := (ZMod.isUnit_iff_coprime 2 P).2 (Nat.coprime_two_left.2 (Nat.odd_iff.2 hP))
    exact this.pow w
  apply hunit.mul_right_cancel
  have hR2cast : ((montR2 w P : Nat) : ZMod P) = 2 ^ w * 2 ^ w := by
    rw [montR2, ZMod.natCast_mod]
    push_cast
    rfl
  calc ((montMul w P a b : Nat) : ZMod P) * 2 ^ w = redc w P (a * b) * montR2 w P := by rw [montMul, h2, Nat.cast_mul]
    _ = (redc w P (a * b) * 2 ^ w) * 2 ^ w := by rw [hR2cast]; ring
    _ = (mulP P a b : Nat) * 2 ^ w := by rw [h1, mulP_cast, Nat.cast_mul]

end Sys2Proof.Machine
end

section
/-! PROOFS. The host port and the step: what a host action can do, what a step can do, and the statements about every step (R28, R41
to R48, R160 to R168, R180 to R190). -/

namespace Sys2Proof.Machine

/-! ### Accesses of the host (R41, R46, R47) -/

/-- The port accepts aligned 32-bit accesses inside the window. -/
theorem accessOk_iff (bits off : Nat) : accessOk bits off = true ↔ bits = 32 ∧ off % 4 = 0 ∧ off < 0x400 := by
  simp [accessOk, and_assoc]

theorem accessOk_of {off : Nat} (halign : off % 4 = 0) (hoff : off < 0x400) : accessOk 32 off = true :=
  (accessOk_iff 32 off).2 ⟨rfl, halign, hoff⟩

theorem State.hostRead_of_refused {s : State} {bits off : Nat} (h : accessOk bits off = false) :
    s.hostRead bits off = s.answer .refused := by
  rw [State.hostRead, if_neg (ne_true_of_eq_false h)]

theorem State.hostWrite_of_refused {s : State} {bits off : Nat} (v : Word32) (h : accessOk bits off = false) :
    s.hostWrite bits off v = s.answer .refused := by
  rw [State.hostWrite, if_neg (ne_true_of_eq_false h)]

/-- While the core is idle an accepted read answers the contents of its location. -/
theorem State.hostRead_of_idle {s : State} {bits off : Nat} (hok : accessOk bits off = true) (hidle : s.status.busy = false) :
    s.hostRead bits off = s.answer (.data (s.readLoc (locate s.cfg off))) := by
  simp [State.hostRead, hok, hidle]

/-- `STATUS`, `CMD` and the reserved offsets are read exactly at any time (R46, R186). -/
theorem State.hostRead_of_exact {s : State} {bits off : Nat} (hok : accessOk bits off = true)
    (hexact : (locate s.cfg off).exactWhileBusy = true) :
    s.hostRead bits off = s.answer (.data (s.readLoc (locate s.cfg off))) := by
  simp [State.hostRead, hok, hexact]

/-- A read changes nothing but the counter of free values and the port's reply (R47). -/
theorem State.hostRead_changes (s : State) (bits off : Nat) :
    ∃ (n : Nat) (r : HostReply), s.hostRead bits off = { s with fresh := n, reply := some r } := by
  unfold State.hostRead
  split
  · split
    · exact ⟨_, _, rfl⟩
    · exact ⟨_, _, rfl⟩
  · exact ⟨_, _, rfl⟩

/-- The registers and bytes a location of the window can name (R42). -/
def Location.InRange (cfg : Config) : Location → Prop
  | .regWord i j => i < cfg.NREG ∧ j < cfg.W / 32
  | .bufWord q => 4 * q < cfg.BUFSZ
  | _ => True

theorem locate_inRange (cfg : Config) (off : Nat) : (locate cfg off).InRange cfg := by
  unfold locate
  split_ifs with _ _ _ _ hreg hword hbuf
  · exact True.intro
  · exact True.intro
  · exact True.intro
  · exact True.intro
  · exact ⟨by omega, hword⟩
  · exact True.intro
  · exact (by omega : 4 * ((off - 0x300) / 4) < cfg.BUFSZ)
  · exact True.intro

/-- What a write of the host can do: answer only, or the effect of an idle core's location (R47, R186). -/
theorem State.hostWrite_cases (s : State) (bits off : Nat) (v : Word32) :
    (∃ r, s.hostWrite bits off v = s.answer r) ∨
      s.status.busy = false ∧ s.hostWrite bits off v = (s.writeLoc v (locate s.cfg off)).answer .ack := by
  cases hok : accessOk bits off with
  | false => exact .inl ⟨_, State.hostWrite_of_refused v hok⟩
  | true =>
    cases hbusy : s.status.busy with
    | true => exact .inl ⟨_, State.hostWrite_of_busy v hok hbusy⟩
    | false => exact .inr ⟨rfl, State.hostWrite_of_idle v hok hbusy⟩

/-- Everything an action of the host can do: leave all but the counter of free values and the reply, write a location of an idle
core, or reset. -/
theorem State.hostAct_cases (s : State) (a : HostAction) :
    (∃ n r, s.hostAct a = { s with fresh := n, reply := r }) ∨
      (∃ v loc, s.status.busy = false ∧ loc.InRange s.cfg ∧ s.hostAct a = (s.writeLoc v loc).answer .ack) ∨
      a = .reset := by
  cases a with
  | read bits addr =>
    left
    rw [State.hostAct]
    split
    · exact ⟨_, _, rfl⟩
    · obtain ⟨n, r, h⟩ := s.hostRead_changes bits (addr - s.cfg.BASE)
      exact ⟨n, some r, h⟩
  | write bits addr v =>
    rw [State.hostAct]
    split
    · exact .inl ⟨_, _, rfl⟩
    · obtain ⟨r, h⟩ | ⟨hidle, h⟩ := s.hostWrite_cases bits (addr - s.cfg.BASE) v
      · exact .inl ⟨s.fresh, some r, h⟩
      · exact .inr (.inl ⟨v, _, hidle, locate_inRange _ _, h⟩)
  | reset => exact .inr (.inr rfl)
  | wait => exact .inl ⟨s.fresh, s.reply, rfl⟩

/-! ### What a step can do (R165, R186) -/

theorem step_of_idle {s : State} (h : s.status.busy = false) : step s = .next s.hostStep := by simp [step, h]

theorem step_of_lands {s : State} (h : s.hostLands = true) : step s = .next s.hostStep := by simp [step, h]

/-- While a command runs and no host action lands, the step is the command. -/
theorem step_of_running {s : State} (hbusy : s.status.busy = true) (h : s.hostLands = false) : step s = s.runCommand := by
  simp [step, hbusy, h]

/-- The state in which the next host action acts: the action is taken, and counts as landed while a command runs. -/
def State.taken (s : State) (rest : List HostAction) : State :=
  { s with host := rest, busyLeft := if s.status.busy then s.busyLeft - 1 else s.busyLeft }

theorem State.hostStep_cons {s : State} {a : HostAction} {rest : List HostAction} (h : s.host = a :: rest) :
    s.hostStep = (s.taken rest).hostAct a := by
  rw [State.hostStep, h]
  rfl

theorem State.hostStep_nil {s : State} (h : s.host = []) : s.hostStep = s := by rw [State.hostStep, h]

/-- Everything a step can do: run the command to its end, stay, or perform the host's next action. -/
theorem step_cases (s : State) :
    (s.status.busy = true ∧ s.hostLands = false ∧ step s = s.runCommand) ∨ step s = .next s ∨
      ∃ a rest, s.host = a :: rest ∧ step s = .next ((s.taken rest).hostAct a) := by
  have hhost : step s = .next s.hostStep → step s = .next s ∨
      ∃ a rest, s.host = a :: rest ∧ step s = .next ((s.taken rest).hostAct a) := by
    intro h
    cases hh : s.host with
    | nil => exact .inl (by rw [h, State.hostStep_nil hh])
    | cons a rest => exact .inr ⟨a, rest, rfl, by rw [h, State.hostStep_cons hh]⟩
  cases hbusy : s.status.busy with
  | false => exact .inr (hhost (step_of_idle hbusy))
  | true =>
    cases hlands : s.hostLands with
    | true => exact .inr (hhost (step_of_lands hlands))
    | false => exact .inl ⟨rfl, rfl, step_of_running hbusy hlands⟩

/-- A running command ends by the rule of its instruction or as an illegal word (R67). -/
theorem State.runCommand_cases (s : State) :
    (∃ i, decode s.cmd = .ok i ∧ s.runCommand = exec i s) ∨
      (∃ e, decode s.cmd = .error e) ∧ s.runCommand = .next (s.raise .illegal) := by
  unfold State.runCommand State.fetch
  cases h : decode s.cmd with
  | ok i => exact .inl ⟨i, rfl, rfl⟩
  | error e => exact .inr ⟨⟨e, rfl⟩, rfl⟩

/-- No host action lands where none is pending, none is left, or the host waits (R183, R188). -/
theorem State.hostLands_eq_false {s : State} (h : s.busyLeft = 0 ∨ s.host = [] ∨ s.host.head? = some .wait) :
    s.hostLands = false := by
  unfold State.hostLands
  cases hh : s.host with
  | nil => rfl
  | cons a rest => cases a <;> simp_all

/-- Settles O4: no host action lands, so the step runs the command, whose fetch finds the instruction. -/
theorem stepRunsDecodedInstruction : Obligations.StepRunsDecodedInstruction := fun s i hbusy hhost hdec => by
  rw [step_of_running hbusy (State.hostLands_eq_false hhost), State.runCommand, State.fetch, hdec]

/-! ### Registers and sizes through a step -/

/-- The sizes speak of the register file and the configuration only. -/
theorem State.Sized.congr {s t : State} (hs : s.Sized) (hx : t.x = s.x) (hc : t.cfg = s.cfg) : t.Sized := by
  unfold State.Sized
  rw [hx, hc]
  exact hs

theorem Effect.sized_apply {s : State} (hs : s.Sized) (e : Effect) : (e.apply s).Sized :=
  (hs.setRegs e.writes).congr (e.apply_x s) (by rw [e.apply_cfg, State.setRegs_eq])

/-- A command keeps the sizes. -/
theorem exec_sized {i : Instr} {s t : State} (hs : s.Sized) (h : exec i s = .next t) : t.Sized := by
  obtain ⟨e, -, rfl⟩ | ⟨c, -, rfl⟩ := exec_next h
  · exact (e.sized_apply hs).congr rfl rfl
  · exact hs.congr rfl rfl

/-- On a sized machine every effect of an instruction fits: only COMPRESS writes bytes. -/
theorem fits_of_outcome {i : Instr} {s : State} {e : Effect} (hs : s.Sized) (h : outcome i s = .ok e) :
    e.fits s.cfg.BUFSZ = true := by
  have hy := yields_of_outcome h
  cases i with
  | compress ra =>
    cases (outcome_eq_ok h).2
    exact decide_eq_true (compressBytes_fits hs ra.toNat _)
  | modmul | modinv | ldparam | legendre | lift | jadd | jdbl | lower | padd | pdbl | oncurve | smul | sbmul =>
    obtain ⟨v, rfl⟩ := hy
    rfl
  | sqrt =>
    obtain ⟨v, found, rfl⟩ := hy
    rfl
  | decompress => obtain ⟨a, rfl⟩ | rfl := hy <;> rfl

/-- Every instruction goes on from a sized state. -/
theorem exec_goesOn {s : State} (hs : s.Sized) (i : Instr) : GoesOn (exec i s) := by
  obtain ⟨e, -, -, h⟩ | ⟨e, ho, hfit, -⟩ | ⟨c, -, h⟩ := exec_cases i s
  · exact ⟨_, h⟩
  · rw [fits_of_outcome hs ho] at hfit
    cases hfit
  · exact ⟨_, h⟩

theorem State.runCommand_goesOn {s : State} (hs : s.Sized) : GoesOn s.runCommand := by
  obtain ⟨i, -, h⟩ | ⟨-, h⟩ := s.runCommand_cases
  · exact h ▸ exec_goesOn hs i
  · exact ⟨_, h⟩

/-- Settles O49: a host action always answers a state, and a command goes on. -/
theorem everyStepGoesOn : Obligations.EveryStepGoesOn := fun s hs => by
  obtain ⟨-, -, h⟩ | h | ⟨a, rest, -, h⟩ := step_cases s
  · exact h ▸ State.runCommand_goesOn hs
  · exact ⟨_, h⟩
  · exact ⟨_, h⟩

/-! ### The parameter ROM (R28) -/

theorem State.writeLoc_cfg (s : State) (v : Word32) (loc : Location) : (s.writeLoc v loc).cfg = s.cfg := by
  cases loc with
  | cmd => rw [State.writeLoc, State.writeCmd]; split <;> rfl
  | _ => rfl

theorem State.hostAct_cfg (s : State) (a : HostAction) : (s.hostAct a).cfg = s.cfg := by
  obtain ⟨n, r, h⟩ | ⟨v, loc, -, -, h⟩ | rfl := s.hostAct_cases a
  · rw [h]
  · rw [h, State.answer_cfg, State.writeLoc_cfg]
  · rfl

/-- The end of a running command leaves the host side alone and `BUSY` clear. -/
theorem State.runCommand_ends {s t : State} (h : s.runCommand = .next t) : t.status.busy = false ∧ HostSideKept s t := by
  obtain ⟨i, -, hr⟩ | ⟨-, hr⟩ := s.runCommand_cases <;> rw [hr] at h
  · obtain ⟨hbusy, -, hkept⟩ := exec_ends h
    exact ⟨hbusy, hkept⟩
  · cases h
    exact ⟨rfl, rfl, rfl, rfl, rfl, rfl, rfl, rfl⟩

/-- Settles O51: a command, a host action and reset each keep the configuration. -/
theorem romNeverWritten : Obligations.RomNeverWritten := fun s t h => by
  obtain ⟨-, -, hr⟩ | hr | ⟨a, rest, -, hr⟩ := step_cases s <;> rw [hr] at h
  · obtain ⟨-, -, -, hcfg, -⟩ := State.runCommand_ends h
    exact hcfg
  · cases h; rfl
  · cases h; exact State.hostAct_cfg _ a

end Sys2Proof.Machine
end

section
/-! PROOFS. The invariant of registers, `STATUS` and `BUF` (R20, R23, R25, R160, R161, R165), and that every command ends (R188). -/

namespace Sys2Proof.Machine

/-! ### `STATUS` (R23, R25, R160) -/

/-- The clauses of the invariant that speak of `STATUS`. -/
def Status.Ok (st : Status) : Prop :=
  (st.busy = true →
      st.done = false ∧ st.err = false ∧ st.inf = false ∧ st.noroot = false ∧ st.oncurve = false ∧ st.uncomp = false ∧
        st.leg = 0) ∧
    (st.err = true ↔ st.errcode ≠ 0) ∧ st.errcode.toNat ≤ 7 ∧
    (st.err = true → st.inf = false ∧ st.noroot = false ∧ st.oncurve = false ∧ st.uncomp = false ∧ st.leg = 0) ∧
    st.leg ≠ 0b10#2

/-- The invariant: the sizes, the form of `BUF`, and `STATUS`. -/
theorem State.inv_iff (s : State) : s.Inv ↔ s.Sized ∧ s.buf.wf s.cfg.BUFSZ = true ∧ s.status.Ok := Iff.rfl

theorem legBits_ne (e : Nat) : legBits e ≠ 0b10#2 := by
  unfold legBits
  split_ifs <;> decide

theorem Status.ok_zero : Status.zero.Ok :=
  ⟨nofun, ⟨nofun, fun h => absurd rfl h⟩, Nat.zero_le 7, nofun, by decide⟩

/-- `STATUS` without `BUSY`, `ERR` and `ERRCODE` is in order whatever the flags, as long as `LEG` is. -/
theorem Status.ok_of_clear {st : Status} (hbusy : st.busy = false) (herr : st.err = false) (hcode : st.errcode = 0)
    (hleg : st.leg ≠ 0b10#2) : st.Ok :=
  ⟨fun h => by simp [hbusy] at h, by simp [herr, hcode], by simp [hcode], fun h => by simp [herr] at h, hleg⟩

/-- Completion of a running command: `ERR` was 0, and the effect writes a symbol to `LEG` or leaves it 0. -/
theorem Status.ok_complete (e : Effect) :
    ({ e.status { Status.zero with busy := true } with busy := false, done := true } : Status).Ok := by
  refine Status.ok_of_clear rfl (e.status_err _) (e.status_errcode _) ?_
  cases e with
  | euler rd v => exact legBits_ne v
  | single | root | pair | triple | multiple | oncurve | uncomp | bytes => exact (by decide : (0#2 : BitVec 2) ≠ 0b10#2)

/-- A fault of a running command: `ERR` and its code together, the flags still 0. -/
theorem Status.ok_fault (c : Cause) : ({ Status.zero with busy := true } : Status).faulted c |>.Ok :=
  ⟨nofun, ⟨fun _ => c.code_ne_zero, fun _ => rfl⟩, c.code_le_seven, fun _ => ⟨rfl, rfl, rfl, rfl, rfl⟩,
    (by decide : (0#2 : BitVec 2) ≠ 0b10#2)⟩

/-- The acknowledgement clears `ERR` and `ERRCODE` together (R167). -/
theorem Status.ok_acknowledge {s : State} (h : s.status.Ok) (hidle : s.status.busy = false) (v : Word32) :
    (s.acknowledge v).status.Ok := by
  obtain ⟨-, herr, hcode, hflags, hleg⟩ := h
  rw [State.acknowledge_eq]
  refine ⟨fun hb => by simp [hidle] at hb, ?_, ?_, fun he => hflags ?_, hleg⟩
  · cases v.getLsbD 2
    · exact herr
    · simp
  · show BitVec.toNat (if v.getLsbD 2 then 0 else s.status.errcode) ≤ 7
    split
    · exact Nat.zero_le 7
    · exact hcode
  · revert he
    cases v.getLsbD 2 <;> simp

/-- Acceptance needs `ERR = 0` and clears the flags (R26, R165). -/
theorem Status.ok_writeCmd {s : State} (h : s.status.Ok) (v : Word32) : (s.writeCmd v).status.Ok := by
  rw [State.writeCmd]
  split
  · exact h
  · obtain ⟨-, herr, hcode, -, -⟩ := h
    have hne : s.status.err = false := by simpa using ‹¬ s.status.err = true›
    exact ⟨fun _ => ⟨rfl, hne, rfl, rfl, rfl, rfl, rfl⟩, herr, hcode, fun he => absurd (hne.symm.trans he) (by decide),
      (by decide : (0#2 : BitVec 2) ≠ 0b10#2)⟩

/-! ### A register with one word replaced (R43) -/

/-- The bits of a register after a word write: those of the word at its place, the others as before. -/
theorem withWord_testBit (v j : Nat) (w : Word32) (k : Nat) :
    (withWord v j w).testBit k =
      if 32 * j ≤ k ∧ k < 32 * j + 32 then w.toNat.testBit (k - 32 * j) else v.testBit k := by
  have hform : withWord v j w =
      2 ^ (32 * j) * (2 ^ 32 * (v / 2 ^ (32 * j + 32)) + w.toNat) + v % 2 ^ (32 * j) := by
    unfold withWord
    rw [pow_add]
    ring
  rw [hform, Nat.testBit_two_pow_mul_add _ (Nat.mod_lt _ (Nat.two_pow_pos _)), Nat.testBit_two_pow_mul_add _ w.isLt]
  by_cases hlow : k < 32 * j
  · rw [if_pos hlow, if_neg (by omega), Nat.testBit_mod_two_pow, decide_eq_true hlow, Bool.true_and]
  · rw [if_neg hlow]
    by_cases hword : k - 32 * j < 32
    · rw [if_pos hword, if_pos (by omega)]
    · rw [if_neg hword, if_neg (by omega), Nat.testBit_div_two_pow]
      congr 1
      omega

/-- A word write inside the width keeps the width. -/
theorem withWord_lt {v j W : Nat} (w : Word32) (hv : v < 2 ^ W) (hj : 32 * j + 32 ≤ W) : withWord v j w < 2 ^ W := by
  apply Nat.lt_pow_two_of_testBit
  intro k hk
  rw [withWord_testBit, if_neg (by omega), Nat.testBit_lt_two_pow (hv.trans_le (Nat.pow_le_pow_right (by omega) hk))]

/-- A word write through the window keeps the sizes (R20, R43). -/
theorem State.Sized.setRegWord {s : State} (hs : s.Sized) (i : Nat) {j : Nat} (hj : j < s.cfg.W / 32) (w : Word32) :
    (s.setRegWord i j w).Sized := by
  have hlt : withWord (s.reg i) j w < 2 ^ s.cfg.W := withWord_lt w (hs.reg_lt i) (by omega)
  obtain ⟨hsizes, haddr, hlen, hreg⟩ := hs
  refine ⟨hsizes, haddr, by simpa [State.setRegWord] using hlen, fun u hu => ?_⟩
  rcases List.mem_or_eq_of_mem_set hu with hm | rfl
  · exact hreg u hm
  · exact hlt

/-! ### The invariant through a step -/

/-- The invariant speaks of the registers, `BUF`, `STATUS` and the configuration only. -/
theorem State.Inv.congr {s t : State} (hs : s.Inv) (hx : t.x = s.x) (hc : t.cfg = s.cfg) (hb : t.buf = s.buf)
    (hst : t.status = s.status) : t.Inv := by
  obtain ⟨hsized, hbuf, hstatus⟩ := s.inv_iff.1 hs
  exact t.inv_iff.2 ⟨hsized.congr hx hc, by rw [hb, hc]; exact hbuf, by rw [hst]; exact hstatus⟩

/-- The state after reset meets the invariant if the configuration has the sizes of R4. -/
theorem State.inv_resetOf {cfg : Config} (hsizes : cfg.SizesOk) (haddr : cfg.Addressable) : (State.resetOf cfg).Inv :=
  (State.inv_iff _).2 ⟨⟨hsizes, haddr, List.length_replicate, fun v hv => by
    rw [List.eq_of_mem_replicate hv]
    exact Nat.two_pow_pos _⟩, State.resetOf_buf_wf cfg, Status.ok_zero⟩

/-- A byte string that has room keeps the canonical form of `BUF`. -/
theorem Effect.wf_buf {m : Memory} {size : Nat} (hm : m.wf size = true) {e : Effect} (hfit : e.fits size = true) :
    (e.buf m).wf size = true := by
  cases e with
  | bytes bs => exact Memory.wf_setBytes hm (by simpa [Effect.fits] using hfit)
  | single | euler | root | pair | triple | multiple | oncurve | uncomp => exact hm

/-- A running command ends in a state that meets the invariant. -/
theorem exec_inv {i : Instr} {s t : State} (hs : s.Inv) (hbusy : s.status.busy = true) (h : exec i s = .next t) : t.Inv := by
  have hst := hs.status_of_busy hbusy
  obtain ⟨hsized, hbuf, -⟩ := s.inv_iff.1 hs
  obtain ⟨e, ho, rfl⟩ | ⟨c, -, rfl⟩ := exec_next h
  · refine (State.inv_iff _).2 ⟨exec_sized hsized h, ?_, ?_⟩
    · rw [State.complete_buf, State.complete_cfg, e.apply_buf, e.apply_cfg]
      exact Effect.wf_buf hbuf (fits_of_outcome hsized ho)
    · rw [State.complete_status, e.apply_status, hst]
      exact Status.ok_complete e
  · refine (State.inv_iff _).2 ⟨exec_sized hsized h, hbuf, ?_⟩
    rw [State.raise_eq_faulted, hst]
    exact Status.ok_fault c

/-- The same of an illegal word, whose fault is that of an operand out of range. -/
theorem State.raise_inv {s : State} (hs : s.Inv) (hbusy : s.status.busy = true) (c : Cause) : (s.raise c).Inv := by
  obtain ⟨hsized, hbuf, -⟩ := s.inv_iff.1 hs
  refine (State.inv_iff _).2 ⟨hsized.congr rfl rfl, hbuf, ?_⟩
  rw [State.raise_eq_faulted, hs.status_of_busy hbusy]
  exact Status.ok_fault c

/-- A write of the host to an idle core keeps the invariant. -/
theorem State.writeLoc_inv {s : State} (hs : s.Inv) (hidle : s.status.busy = false) (v : Word32) {loc : Location}
    (hloc : loc.InRange s.cfg) : (s.writeLoc v loc).Inv := by
  obtain ⟨hsized, hbuf, hst⟩ := s.inv_iff.1 hs
  cases loc with
  | ctrl | len => exact hs.congr rfl rfl rfl rfl
  | reserved => exact hs
  | status => exact (State.inv_iff _).2 ⟨hsized.congr rfl rfl, hbuf, Status.ok_acknowledge hst hidle v⟩
  | cmd =>
    refine (State.inv_iff _).2 ⟨hsized.congr ?_ (s.writeLoc_cfg v .cmd), ?_, Status.ok_writeCmd hst v⟩
    · rw [State.writeLoc, State.writeCmd]; split <;> rfl
    · rw [State.writeLoc_cfg, State.writeLoc, State.writeCmd]; split <;> exact hbuf
  | regWord i j =>
    obtain ⟨-, hj⟩ := hloc
    exact (State.inv_iff _).2 ⟨hsized.setRegWord i hj v, hbuf, hst⟩
  | bufWord q =>
    refine (State.inv_iff _).2 ⟨hsized.congr rfl rfl, Memory.wf_setBytes hbuf ?_, hst⟩
    obtain ⟨⟨-, -, hBUF, -, -⟩, -⟩ := hsized
    have hq : 4 * q < s.cfg.BUFSZ := hloc
    simp only [List.length_cons, List.length_nil]
    omega

/-- An action of the host keeps the invariant. -/
theorem State.hostAct_inv {s : State} (hs : s.Inv) (a : HostAction) : (s.hostAct a).Inv := by
  obtain ⟨n, r, h⟩ | ⟨v, loc, hidle, hloc, h⟩ | rfl := s.hostAct_cases a
  · exact h ▸ hs.congr rfl rfl rfl rfl
  · exact h ▸ (State.writeLoc_inv hs hidle v hloc).congr rfl rfl rfl rfl
  · obtain ⟨⟨hsizes, haddr, -⟩, -⟩ := hs
    exact (State.inv_resetOf hsizes haddr).congr rfl rfl rfl rfl

/-- Settles O46: the command that runs, the core that stays as it is, and the host's action each keep the invariant. -/
theorem invariantKeptByStep : Obligations.InvariantKeptByStep := fun s t hs h => by
  obtain ⟨hbusy, -, hr⟩ | hr | ⟨a, rest, -, hr⟩ := step_cases s <;> rw [hr] at h
  · obtain ⟨i, -, hi⟩ | ⟨-, hi⟩ := s.runCommand_cases <;> rw [hi] at h
    · exact exec_inv hs hbusy h
    · cases h; exact State.raise_inv hs hbusy .illegal
  · cases h; exact hs
  · cases h
    exact State.hostAct_inv (s := s.taken rest) (hs.congr rfl rfl rfl rfl) a

/-! ### Reset (R32) -/

theorem hardware_sizesOk : Config.hardware.SizesOk := by unfold Config.SizesOk; decide

theorem hardware_addressable : Config.hardware.Addressable := by unfold Config.Addressable; decide

/-- Settles O48: the hardware's configuration has the sizes that `inv_resetOf` asks for. -/
theorem resetMeetsInvariant : Obligations.ResetMeetsInvariant := State.inv_resetOf hardware_sizesOk hardware_addressable

/-- Every register reads 0 after reset, inside the register file and beyond it. -/
theorem State.reg_resetOf (cfg : Config) (i : Nat) : (State.resetOf cfg).reg i = 0 := by
  show ((List.replicate cfg.NREG 0)[i]?).getD 0 = 0
  rw [List.getElem?_replicate]
  split <;> rfl

/-- Settles O47: every field of the reset state is its zero by definition, and every register reads 0. -/
theorem resetIsAllZero : Obligations.ResetIsAllZero :=
  ⟨State.reg_resetOf Config.hardware, List.length_replicate, fun _ => rfl, rfl, rfl, by decide, rfl, by decide, rfl, rfl, rfl⟩

/-! ### Every command ends (R188) -/

/-- A host action that lands is the next one, is not the host's waiting, and is one of those left. -/
theorem State.of_hostLands {s : State} (h : s.hostLands = true) :
    ∃ a rest, s.host = a :: rest ∧ a ≠ .wait ∧ s.busyLeft ≠ 0 := by
  unfold State.hostLands at h
  cases hh : s.host with
  | nil => simp [hh] at h
  | cons a rest => cases a <;> simp_all

/-- While a command runs a host action either resets the core or leaves the command running, with one action less to land. -/
theorem State.hostAct_while_busy {s : State} (hbusy : s.status.busy = true) (a : HostAction) :
    (s.hostAct a).status.busy = false ∨
      (s.hostAct a).status.busy = true ∧ (s.hostAct a).busyLeft = s.busyLeft ∧ (s.hostAct a).x = s.x ∧
        (s.hostAct a).cfg = s.cfg := by
  obtain ⟨n, r, h⟩ | ⟨v, loc, hidle, -, -⟩ | rfl := s.hostAct_cases a
  · rw [h]
    exact .inr ⟨hbusy, rfl, rfl, rfl⟩
  · simp [hbusy] at hidle
  · exact .inl rfl

/-- One step of a sized machine that runs a command: it ends, or a host action has landed. -/
theorem step_of_busy {s : State} (hs : s.Sized) (hbusy : s.status.busy = true) :
    ∃ t, step s = .next t ∧
      (t.status.busy = false ∨ t.status.busy = true ∧ t.Sized ∧ t.busyLeft + 1 = s.busyLeft) := by
  cases hlands : s.hostLands with
  | false =>
    obtain ⟨t, ht⟩ := State.runCommand_goesOn hs
    exact ⟨t, (step_of_running hbusy hlands).trans ht, .inl (State.runCommand_ends ht).1⟩
  | true =>
    obtain ⟨a, rest, hhost, -, hleft⟩ := State.of_hostLands hlands
    refine ⟨_, (step_of_lands hlands).trans (by rw [State.hostStep_cons hhost]), ?_⟩
    obtain hend | ⟨hb, hl, hx, hc⟩ := State.hostAct_while_busy (s := s.taken rest) hbusy a
    · exact .inl hend
    · refine .inr ⟨hb, hs.congr hx hc, ?_⟩
      rw [hl, State.taken, if_pos hbusy]
      exact Nat.succ_pred_eq_of_ne_zero hleft

theorem runSteps_succ {s t : State} (h : step s = .next t) (k : Nat) : runSteps (k + 1) s = runSteps k t := by
  rw [runSteps, h]

/-- Settles O50, by induction on the number of host actions that can still land. -/
theorem everyCommandEnds : Obligations.EveryCommandEnds := by
  suffices H : ∀ (n : Nat) (s : State), s.busyLeft = n → s.Sized → s.status.busy = true →
      ∃ k t, k ≤ n + 1 ∧ runSteps k s = some t ∧ t.status.busy = false from fun s => H _ s rfl
  intro n
  induction n with
  | zero =>
    intro s hn hs hbusy
    obtain ⟨t, ht, hend | ⟨-, -, hleft⟩⟩ := step_of_busy hs hbusy
    · exact ⟨1, t, le_rfl, runSteps_succ ht 0, hend⟩
    · omega
  | succ n ih =>
    intro s hn hs hbusy
    obtain ⟨t, ht, hend | ⟨hb, hts, hleft⟩⟩ := step_of_busy hs hbusy
    · exact ⟨1, t, by omega, runSteps_succ ht 0, hend⟩
    · obtain ⟨k, u, hk, hrun, hu⟩ := ih t (by omega) hts hb
      exact ⟨k + 1, u, by omega, (runSteps_succ ht k).trans hrun, hu⟩

end Sys2Proof.Machine
end

section
/-! PROOFS. The registers of the host window (R24 to R27, R42 to R48), accesses while a command runs (R186), reset at any time (R181)
and the interrupt output (R168). -/

namespace Sys2Proof.Machine

/-! ### Where the offsets of the window lie (R42) -/

theorem locate_ctrl (cfg : Config) : locate cfg 0x000 = .ctrl := rfl

theorem locate_cmd (cfg : Config) : locate cfg 0x008 = .cmd := rfl

theorem locate_len (cfg : Config) : locate cfg 0x00C = .len := rfl

/-- Word `j` of `x[i]`; a register has at most eight words. -/
theorem locate_regWord {cfg : Config} {i j : Nat} (hi : i < cfg.NREG) (hj : j < cfg.W / 32) (hW : cfg.W ≤ 256) :
    locate cfg (0x100 + 0x20 * i + 4 * j) = .regWord i j := by
  have hword : (0x100 + 0x20 * i + 4 * j - 0x100) % 0x20 / 4 = j := by omega
  have hnum : (0x100 + 0x20 * i + 4 * j - 0x100) / 0x20 = i := by omega
  unfold locate
  rw [if_neg (by omega), if_neg (by omega), if_neg (by omega), if_neg (by omega), if_pos (by omega), hword, hnum, if_pos hj]

/-- The buffer words begin above the sixteen registers. -/
theorem locate_bufWord {cfg : Config} {q : Nat} (hN : cfg.NREG = 16) (hq : 4 * q < cfg.BUFSZ) :
    locate cfg (0x300 + 4 * q) = .bufWord q := by
  have hnum : (0x300 + 4 * q - 0x300) / 4 = q := by omega
  unfold locate
  rw [if_neg (by omega), if_neg (by omega), if_neg (by omega), if_neg (by omega), if_neg (by omega), if_pos (by omega), hnum]

/-- The reserved offsets: below the registers, above the words of a register, above the buffer (R46). -/
theorem locate_reserved {cfg : Config} {off : Nat} (hN : cfg.NREG = 16) (halign : off % 4 = 0)
    (h : (0x010 ≤ off ∧ off < 0x100) ∨ (0x100 ≤ off ∧ off < 0x300 ∧ cfg.W / 32 ≤ off / 4 % 8) ∨
      (0x300 + cfg.BUFSZ ≤ off ∧ off < 0x400)) : locate cfg off = .reserved := by
  unfold locate
  rw [if_neg (by omega), if_neg (by omega), if_neg (by omega), if_neg (by omega)]
  by_cases hreg : 0x100 ≤ off ∧ off < 0x100 + 0x20 * cfg.NREG
  · rw [if_pos hreg, if_neg (by omega)]
  · rw [if_neg hreg, if_neg (by omega)]

/-! ### The words of `STATUS`, `CTRL` and `LEN` (R24, R25, R27) -/

theorem toNat_bit32 (b : Bool) : (bit32 b).toNat = b.toNat := by cases b <;> rfl

/-- A field put above the bits of a word adds to it. -/
theorem or_shiftLeft_toNat {x y : Word32} {k n m : Nat} (hx : x.toNat = n) (hy : y.toNat = m) (hlt : n < 2 ^ k)
    (hfit : 2 ^ k * m < 2 ^ 32) : (x ||| y <<< k).toNat = n + 2 ^ k * m := by
  rw [BitVec.toNat_or, BitVec.toNat_shiftLeft, hx, hy, Nat.shiftLeft_eq, Nat.mul_comm m, Nat.mod_eq_of_lt hfit, Nat.or_comm,
    ← Nat.two_pow_add_eq_or_of_lt hlt, Nat.add_comm]

theorem toNat_le_one (b : Bool) : b.toNat ≤ 1 := Bool.toNat_le b

/-- `STATUS` reads as the sum of its fields, each at its place (R25). -/
theorem Status.word_eq (st : Status) : st.word = BitVec.ofNat 32 st.bits := by
  have hbusy := toNat_le_one st.busy
  have hdone := toNat_le_one st.done
  have herr := toNat_le_one st.err
  have hinf := toNat_le_one st.inf
  have hnoroot := toNat_le_one st.noroot
  have honcurve := toNat_le_one st.oncurve
  have huncomp := toNat_le_one st.uncomp
  have hleg : st.leg.toNat < 4 := st.leg.isLt
  have hcode : st.errcode.toNat < 16 := st.errcode.isLt
  have hlegw : (st.leg.setWidth 32).toNat = st.leg.toNat := by rw [BitVec.toNat_setWidth]; omega
  have hcodew : (st.errcode.setWidth 32).toNat = st.errcode.toNat := by rw [BitVec.toNat_setWidth]; omega
  have h1 := or_shiftLeft_toNat (k := 1) (toNat_bit32 st.busy) (toNat_bit32 st.done) (by omega) (by omega)
  have h2 := or_shiftLeft_toNat (k := 2) h1 (toNat_bit32 st.err) (by omega) (by omega)
  have h4 := or_shiftLeft_toNat (k := 4) h2 (toNat_bit32 st.inf) (by omega) (by omega)
  have h5 := or_shiftLeft_toNat (k := 5) h4 (toNat_bit32 st.noroot) (by omega) (by omega)
  have h6 := or_shiftLeft_toNat (k := 6) h5 (toNat_bit32 st.oncurve) (by omega) (by omega)
  have h7 := or_shiftLeft_toNat (k := 7) h6 (toNat_bit32 st.uncomp) (by omega) (by omega)
  have h8 := or_shiftLeft_toNat (k := 8) h7 hlegw (by omega) (by omega)
  have h16 := or_shiftLeft_toNat (k := 16) h8 hcodew (by omega) (by omega)
  apply BitVec.eq_of_toNat_eq
  rw [Status.word, h16, BitVec.toNat_ofNat, Status.bits]
  omega

/-- `BUSY` is bit 0 of `STATUS`. -/
theorem Status.bits_mod_two (st : Status) : st.bits % 2 = st.busy.toNat := by
  have := toNat_le_one st.busy
  unfold Status.bits
  omega

theorem Ctrl.word_eq (c : Ctrl) : c.word = BitVec.ofNat 32 (c.curve.toNat + 2 * c.ie.toNat) := by
  have hcurve := toNat_le_one c.curve
  have hie := toNat_le_one c.ie
  apply BitVec.eq_of_toNat_eq
  rw [Ctrl.word, or_shiftLeft_toNat (k := 1) (toNat_bit32 c.curve) (toNat_bit32 c.ie) (by omega) (by omega),
    BitVec.toNat_ofNat]
  omega

/-- A write of `CTRL` takes the two low bits of the word (R24). -/
theorem Ctrl.ofWord_eq (v : Word32) : Ctrl.ofWord v = { curve := v.toNat % 2 == 1, ie := v.toNat / 2 % 2 == 1 } := by
  unfold Ctrl.ofWord BitVec.getLsbD
  rw [Nat.testBit_zero, Nat.testBit_succ, Nat.testBit_zero]
  rfl

/-! ### The port at the control registers (R24 to R27, R41, R48) -/

theorem State.hostRead_status (s : State) : s.hostRead 32 0x004 = s.answer (.data (BitVec.ofNat 32 s.status.bits)) := by
  rw [State.hostRead_of_exact accessOk_status rfl, locate_status, State.readLoc, Status.word_eq]

theorem State.hostRead_cmd (s : State) : s.hostRead 32 0x008 = s.answer (.data s.cmd) :=
  State.hostRead_of_exact (by decide) rfl

/-- An address of the window reaches the port less `BASE` (R41). -/
theorem State.hostAct_read (s : State) (bits off : Nat) :
    s.hostAct (.read bits (s.cfg.BASE + off)) = s.hostRead bits off := by
  rw [State.hostAct, if_neg (by omega), Nat.add_sub_cancel_left]

theorem State.hostAct_write (s : State) (bits off : Nat) (v : Word32) :
    s.hostAct (.write bits (s.cfg.BASE + off) v) = s.hostWrite bits off v := by
  rw [State.hostAct, if_neg (by omega), Nat.add_sub_cancel_left]

/-- While the core is idle a host action is taken and nothing else happens. -/
theorem State.taken_of_idle {s : State} (h : s.status.busy = false) (rest : List HostAction) :
    s.taken rest = { s with host := rest } := by
  simp [State.taken, h]

theorem State.taken_of_busy {s : State} (h : s.status.busy = true) (rest : List HostAction) :
    s.taken rest = { s with host := rest, busyLeft := s.busyLeft - 1 } := by
  simp [State.taken, h]

/-- A step of an idle core performs the host's next action (R48). -/
theorem step_idle_cons {s : State} {a : HostAction} {rest : List HostAction} (hidle : s.status.busy = false)
    (hhost : s.host = a :: rest) : step s = .next ({ s with host := rest }.hostAct a) := by
  rw [step_of_idle hidle, State.hostStep_cons hhost, State.taken_of_idle hidle]

/-- Settles O53: each control register through the port, and the step of an idle core. -/
theorem controlRegisterLayout : Obligations.ControlRegisterLayout := fun s v => by
  refine ⟨⟨s.hostRead_status, s.hostRead_cmd⟩, fun hidle => ⟨fun a rest => step_idle_cons hidle, fun bits off =>
    ⟨s.hostAct_read bits off, s.hostAct_write bits off v⟩, ?ctrlWrite, ?lenWrite, ?ctrlRead, ?lenRead⟩⟩
  case ctrlWrite =>
    rw [State.hostWrite_of_idle v (by decide) hidle, locate_ctrl, State.writeLoc, Ctrl.ofWord_eq]
    rfl
  case lenWrite =>
    rw [State.hostWrite_of_idle v (by decide) hidle, locate_len]
    rfl
  case ctrlRead =>
    rw [State.hostRead_of_idle (by decide) hidle, locate_ctrl, State.readLoc, Ctrl.word_eq]
    rfl
  case lenRead =>
    rw [State.hostRead_of_idle (by decide) hidle, locate_len, State.readLoc, ← BitVec.ofNat_toNat]
    rfl

/-- Settles O52: the idle step performs the write, which `writeCmd` accepts or drops. -/
theorem cmdWriteAcceptedOrDropped : Obligations.CmdWriteAcceptedOrDropped := fun s w rest hidle hhost => by
  refine ⟨_, step_idle_cons hidle hhost, ?_⟩
  rw [State.hostAct_write { s with host := rest } 32 0x008 w, State.hostWrite_of_idle w (by decide) (by exact hidle), locate_cmd,
    State.writeLoc, State.writeCmd]
  cases herr : s.status.err with
  | true => exact ⟨rfl, rfl, rfl, rfl, rfl, fun _ => ⟨rfl, rfl⟩, nofun⟩
  | false =>
    refine ⟨rfl, rfl, rfl, rfl, rfl, nofun, fun _ => ⟨rfl, ?_⟩⟩
    simp [Status.zero, herr]

/-- Settles O5: the word is accepted by the idle core, and the host that waits lets the command end at once. -/
theorem illegalWordFaultsIllegal : Obligations.IllegalWordFaultsIllegal := fun s w e rest hdec hidle herr hhost => by
  obtain ⟨t, hstep, hhost', hx, hbuf, hlen, hctrl, -, hacc⟩ := cmdWriteAcceptedOrDropped s w (.wait :: rest) hidle hhost
  obtain ⟨hcmd, hst⟩ := hacc herr
  have hbusy : t.status.busy = true := by rw [hst]
  have hend : step t = .next (t.raise .illegal) := by
    rw [step_of_running hbusy (State.hostLands_eq_false (.inr (.inr (by rw [hhost']; rfl)))), State.runCommand, State.fetch,
      hcmd, hdec]
  refine ⟨t.raise .illegal, (runSteps_succ hstep 1).trans (runSteps_succ hend 0), hcmd, ?_, hx, hbuf, hlen, hctrl,
    romNeverWritten s t hstep, hhost'⟩
  rw [State.raise_status, hst]
  rfl

/-! ### While a command runs (R186) -/

theorem State.hostLands_of_access {s : State} {a : HostAction} {rest : List HostAction} (hhost : s.host = a :: rest)
    (ha : a ≠ .wait) (hleft : s.busyLeft ≠ 0) : s.hostLands = true := by
  unfold State.hostLands
  rw [hhost]
  cases a <;> simp_all

/-- A host action that lands while a command runs is performed, and one less is left. -/
theorem step_busy_cons {s : State} {a : HostAction} {rest : List HostAction} (hbusy : s.status.busy = true)
    (hleft : s.busyLeft ≠ 0) (hhost : s.host = a :: rest) (ha : a ≠ .wait) :
    step s = .next ({ s with host := rest, busyLeft := s.busyLeft - 1 }.hostAct a) := by
  rw [step_of_lands (State.hostLands_of_access hhost ha hleft), State.hostStep_cons hhost, State.taken_of_busy hbusy]

/-- Settles O54: an action that lands is dropped where it is a write, and a read has no effect. -/
theorem busyAccessesHaveNoEffect : Obligations.BusyAccessesHaveNoEffect := fun s rest off v hbusy hleft halign hoff => by
  have hok := accessOk_of halign hoff
  refine ⟨fun hhost => ?write, fun hhost => ⟨?status, ?bit, fun hinv => ?word⟩, fun hhost => ?cmd, fun hhost => ?read⟩
  case write =>
    rw [step_busy_cons hbusy hleft hhost nofun,
      State.hostAct_write { s with host := rest, busyLeft := s.busyLeft - 1 } 32 off v,
      State.hostWrite_of_busy v hok (by exact hbusy)]
    rfl
  case status =>
    rw [step_busy_cons hbusy hleft hhost nofun,
      State.hostAct_read { s with host := rest, busyLeft := s.busyLeft - 1 } 32 0x004, State.hostRead_status]
    rfl
  case bit => rw [Status.bits_mod_two, hbusy]; rfl
  case word => rw [hinv.status_of_busy hbusy]; rfl
  case cmd =>
    rw [step_busy_cons hbusy hleft hhost nofun,
      State.hostAct_read { s with host := rest, busyLeft := s.busyLeft - 1 } 32 0x008, State.hostRead_cmd]
    rfl
  case read =>
    rw [step_busy_cons hbusy hleft hhost nofun,
      State.hostAct_read { s with host := rest, busyLeft := s.busyLeft - 1 } 32 off, State.hostRead, if_pos hok]
    split
    · exact ⟨_, _, rfl⟩
    · exact ⟨_, s.fresh, rfl⟩

/-- Settles O60: the three forms of read, the refusals, and the reserved offsets. -/
theorem readsAndRefusalsChangeNothing : Obligations.ReadsAndRefusalsChangeNothing := fun s bits off v => by
  refine ⟨s.hostRead_changes bits off, fun hbad => ?refused, fun hs hbits halign hres => ?reserved, fun addr haddr => ?below⟩
  case refused =>
    have hno : accessOk bits off = false := by
      rw [← Bool.not_eq_true, accessOk_iff]
      omega
    exact ⟨State.hostRead_of_refused hno, State.hostWrite_of_refused v hno⟩
  case reserved =>
    subst hbits
    obtain ⟨⟨-, -, -, -, hBUF⟩, ⟨hN, -⟩, -⟩ := hs
    have hok := accessOk_of halign (by omega)
    have hloc := locate_reserved hN halign hres
    refine ⟨by rw [State.hostRead_of_exact hok (by rw [hloc]; rfl), hloc]; rfl, ?_⟩
    cases hbusy : s.status.busy with
    | true => exact State.hostWrite_of_busy v hok hbusy
    | false => rw [State.hostWrite_of_idle v hok hbusy, hloc]; rfl
  case below => exact ⟨if_pos haddr, if_pos haddr⟩

/-! ### Reset at any time (R180, R181) -/

/-- Settles O56: the reset lands as the host's next action, idle or busy. -/
theorem resetAtAnyTime : Obligations.ResetAtAnyTime := fun s rest hhost hleft => by
  have hstep : step s = .next ((s.taken rest).hostAct .reset) := by
    rw [← State.hostStep_cons hhost]
    cases hbusy : s.status.busy with
    | false => exact step_of_idle hbusy
    | true => exact step_of_lands (State.hostLands_of_access hhost nofun (hleft hbusy))
  exact ⟨_, hstep, rfl, rfl, rfl, rfl, rfl, rfl, rfl, rfl, rfl⟩

/-! ### The interrupt output (R168) -/

theorem State.irq_of_done {s : State} (h : s.status.done = false) : s.irq = false := by rw [State.irq, h, Bool.and_false]

/-- Settles O57: the end of a command sets `DONE`; each of the four other events clears `DONE` or `IE`. -/
theorem interruptFollowsDone : Obligations.InterruptFollowsDone := by
  refine ⟨fun _ => rfl, fun i s t h => ?ends, fun s v => ⟨State.irq_of_done rfl, State.irq_of_done rfl,
    fun hidle hv => ?acknowledged, fun hidle hv => ?disabled⟩⟩
  case ends =>
    obtain ⟨-, hdone, hctrl, -⟩ := exec_ends h
    rw [State.irq, hdone, hctrl, Bool.and_true]
  case acknowledged =>
    rw [State.hostWrite_status_of_idle v hidle, State.acknowledge_eq, hv]
    exact State.irq_of_done rfl
  case disabled =>
    rw [State.hostWrite_of_idle v (by decide) hidle, locate_ctrl, State.irq]
    show ((v.getLsbD 1) && _) = false
    rw [hv, Bool.false_and]

/-! ### Register words (R42, R43) -/

/-- Word `j'` of a register after a write of word `j`. -/
theorem withWord_word (v j j' : Nat) (w : Word32) :
    withWord v j w / 2 ^ (32 * j') % 2 ^ 32 = if j' = j then w.toNat else v / 2 ^ (32 * j') % 2 ^ 32 := by
  apply Nat.eq_of_testBit_eq
  intro k
  rw [Nat.testBit_mod_two_pow, Nat.testBit_div_two_pow, withWord_testBit]
  by_cases hk : k < 32
  · by_cases hj : j' = j
    · rw [if_pos (by omega), if_pos hj, decide_eq_true hk, Bool.true_and]
      congr 1
      omega
    · rw [if_neg (by omega), if_neg hj, Nat.testBit_mod_two_pow, Nat.testBit_div_two_pow]
  · have hw : w.toNat.testBit k = false :=
      Nat.testBit_lt_two_pow (w.isLt.trans_le (Nat.pow_le_pow_right (by omega) (by omega)))
    rw [decide_eq_false hk, Bool.false_and]
    split
    · exact hw.symm
    · rw [Nat.testBit_mod_two_pow, decide_eq_false hk, Bool.false_and]

/-- Read after a word write: the word replaced at its register, every other register as before. -/
theorem State.reg_setRegWord (s : State) {i : Nat} (hi : i < s.x.length) (j : Nat) (w : Word32) (i' : Nat) :
    (s.setRegWord i j w).reg i' = if i' = i then withWord (s.reg i) j w else s.reg i' := by
  by_cases h : i' = i
  · rw [if_pos h, h]
    show ((s.x.set i (withWord (s.reg i) j w))[i]?).getD 0 = _
    rw [List.getElem?_set_self hi, Option.getD_some]
  · rw [if_neg h]
    show ((s.x.set i (withWord (s.reg i) j w))[i']?).getD 0 = _
    rw [List.getElem?_set_ne (Ne.symm h)]
    rfl

/-- Settles O58: the offset names the word, and a word write changes the bits of that word alone. -/
theorem registerWordWindow : Obligations.RegisterWordWindow := fun s i j i' j' v hs hidle hi hj => by
  have hN : s.cfg.NREG = 16 := hs.2.1.1
  have hW : s.cfg.W ≤ 256 := hs.2.1.2
  have hok : accessOk 32 (0x100 + 0x20 * i + 4 * j) = true := accessOk_of (by omega) (by omega)
  have hloc := locate_regWord (cfg := s.cfg) (hN ▸ hi) hj hW
  have hwrite : s.hostWrite 32 (0x100 + 0x20 * i + 4 * j) v = (s.setRegWord i j v).answer .ack := by
    rw [State.hostWrite_of_idle v hok hidle, hloc, State.writeLoc]
  have hreg := s.reg_setRegWord (hs.length ▸ hi) j v i'
  have hread : s.hostRead 32 (0x100 + 0x20 * i + 4 * j) =
      { s with reply := some (.data (BitVec.ofNat 32 (s.reg i / 2 ^ (32 * j)))) } := by
    rw [State.hostRead_of_idle hok hidle, hloc]
    rfl
  simp only [hwrite]
  refine ⟨?_, rfl, by simp [State.setRegWord], ?_, hread⟩
  · rw [State.reg_congr (State.answer_x _ _), hreg]
    by_cases h : i' = i
    · rw [if_pos h, withWord_word, h]
      simp only [true_and]
    · rw [if_neg h, if_neg (fun hij => h hij.1)]
  · exact ((hs.setRegWord i hj v).congr (t := (s.setRegWord i j v).answer .ack) rfl rfl).reg_lt i'

/-! ### Buffer words (R42, R44) -/

/-- The byte lanes of a word, least significant first. -/
theorem byteLanes_getElem (v : Word32) {k : Nat} (hk : k < 4) :
    [v.extractLsb' 0 8, v.extractLsb' 8 8, v.extractLsb' 16 8, v.extractLsb' 24 8][k]?.getD 0 =
      BitVec.ofNat 8 (v.toNat / 2 ^ (8 * k)) := by
  rw [← Nat.shiftRight_eq_div_pow]
  interval_cases k <;> rfl

/-- A buffer word as the sum of its bytes at their lanes. -/
theorem State.bufWord_eq (s : State) (q : Nat) :
    s.bufWord q = BitVec.ofNat 32 ((s.buf.byteAt (4 * q)).toNat + (s.buf.byteAt (4 * q + 1)).toNat * 2 ^ 8 +
      (s.buf.byteAt (4 * q + 2)).toNat * 2 ^ 16 + (s.buf.byteAt (4 * q + 3)).toNat * 2 ^ 24) := by
  apply BitVec.eq_of_toNat_eq
  rw [State.bufWord, toNat_append_eq_add, toNat_append_eq_add, toNat_append_eq_add, BitVec.toNat_ofNat]
  omega

/-- Settles O59: the offset names the word, whose four bytes `setBytes` replaces. -/
theorem bufferWordWindow : Obligations.BufferWordWindow := fun s q a v hs hidle hq => by
  obtain ⟨⟨-, -, hmod, -, hBUF⟩, ⟨hN, -⟩, -⟩ := hs
  have hok : accessOk 32 (0x300 + 4 * q) = true := accessOk_of (by omega) (by omega)
  have hloc := locate_bufWord (cfg := s.cfg) (q := q) hN (by omega)
  have hwrite : s.hostWrite 32 (0x300 + 4 * q) v = (s.setBufWord q v).answer .ack := by
    rw [State.hostWrite_of_idle v hok hidle, hloc, State.writeLoc]
  have hread : s.hostRead 32 (0x300 + 4 * q) = s.answer (.data (s.bufWord q)) := by
    rw [State.hostRead_of_idle hok hidle, hloc, State.readLoc]
  simp only [hwrite]
  refine ⟨?_, rfl, by rw [hread, State.bufWord_eq]; rfl⟩
  rw [State.answer_buf, State.setBufWord, State.setBuf_buf, Memory.byteAt_setBytes]
  by_cases ha : 4 * q ≤ a ∧ a < 4 * q + 4
  · rw [if_pos (by exact ha), if_pos ha, byteLanes_getElem v (by omega)]
  · rw [if_neg (by exact ha), if_neg ha]

end Sys2Proof.Machine
end

section
/-! PROOFS. The instructions with one value each: MODMUL, MODINV, LEGENDRE, LIFT, LOWER, JADD, JDBL, PADD, PDBL, ONCURVE, LDPARAM (R80,
R82, R90, R91, R100 to R107, R140). -/

namespace Sys2Proof.Machine

/-! ### From the rule of an instruction to its end -/

/-- A legal instruction with its byte string in range ends as its rule says. -/
theorem exec_of_legal {i : Instr} {s : State} (hwf : i.wf = true) (hlen : readsBuf i = true → s.len.toNat ≤ s.cfg.BUFSZ) :
    exec i s = s.finish (ruleOf s i) := by
  rw [exec_eq_finish, outcome, if_neg (by simp [hwf]), if_neg fun h => absurd (hlen h.1) (by omega)]

/-- A legal instruction whose rule answers an effect completes with it. -/
theorem exec_of_ruleOf_ok {i : Instr} {s : State} {e : Effect} (hwf : i.wf = true)
    (hlen : readsBuf i = true → s.len.toNat ≤ s.cfg.BUFSZ) (h : ruleOf s i = .ok e) (hfit : e.fits s.cfg.BUFSZ = true) :
    exec i s = .next (e.apply s).complete := by
  rw [exec_of_legal hwf hlen, h, State.finish_ok hfit]

/-- A legal instruction whose rule raises a cause faults with it. -/
theorem faultsWith_of_ruleOf_error {i : Instr} {s : State} {c : Cause} (hwf : i.wf = true)
    (hlen : readsBuf i = true → s.len.toNat ≤ s.cfg.BUFSZ) (h : ruleOf s i = .error c) : FaultsWith (exec i s) s c := by
  rw [exec_of_legal hwf hlen, h]
  exact faultsWith_raise s c

/-- What a completed effect keeps, if it puts no byte string in `BUF`. -/
theorem Effect.completesKeeping {e : Effect} (s : State) (h : e.string = none) :
    CompletesKeeping s (e.apply s).complete e.dests (e.status s.status).ended := by
  obtain ⟨hlen, hreg⟩ := e.apply_regsKept s
  refine ⟨⟨hlen, hreg⟩, fun a _ => ?_, ?_, ?_, e.apply_hostSide s⟩
  · rw [State.complete_buf, e.apply_buf, Effect.buf, h, Option.elim_none]
  · rw [State.complete_len, e.apply_len, Effect.len, h, Option.elim_none]
  · rw [State.complete_status, e.apply_status]
    rfl

/-! ### MODMUL, MODINV, LEGENDRE, LDPARAM: one register (R80, R82, R90, R140) -/

/-- Settles O9: the product is reduced, so the register holds it. -/
theorem modmulWritesProduct : Obligations.ModmulWritesProduct := fun s rd ra rb hs hP hW => by
  obtain ⟨hreg, hkeep⟩ := completes_setSingle hs rd ((mulP_lt hP (s.single ra) (s.single rb)).trans_le hW)
  exact ⟨_, exec_of_ruleOf_ok rfl nofun rfl rfl, hreg, hkeep⟩

/-- Settles O11: the inverse that `invP` answers is what is written. -/
theorem modinvWritesInverse : Obligations.ModinvWritesInverse := fun s rd ra hs hP hW hgcd => by
  obtain ⟨u, hu, hlt, hinv⟩ := invP_ok hP hgcd
  have hrule : ruleOf s (.modinv rd ra) = .ok (.single rd u) := by
    rw [ruleOf, State.single, hu]
    rfl
  obtain ⟨hreg, hkeep⟩ := completes_setSingle hs rd (hlt.trans_le hW)
  exact ⟨_, exec_of_ruleOf_ok rfl nofun hrule rfl, by rw [Effect.apply, hreg]; exact hlt,
    by rw [Effect.apply, hreg]; exact hinv, hkeep⟩

/-- LEGENDRE completes with the Euler value in its register and the symbol of that value in `LEG`. -/
theorem exec_legendre {s : State} (hs : s.Sized) (rd ra : RegNum) (hP : 0 < s.P) (hW : s.P ≤ 2 ^ s.cfg.W) :
    ∃ t, exec (.legendre rd ra) s = .next t ∧ t.reg rd.toNat = euler s.P (s.reg ra.toNat) ∧
      CompletesKeeping s t [rd.toNat] { s.status.ended with leg := legBits (euler s.P (s.reg ra.toNat)) } := by
  obtain ⟨hreg, -⟩ := State.setSingle_spec hs rd ((expP_lt hP (s.reg ra.toNat) ((s.P - 1) / 2)).trans_le hW)
  exact ⟨_, exec_of_ruleOf_ok rfl nofun rfl rfl, hreg, Effect.completesKeeping (e := .euler rd _) s rfl⟩

/-- Settles O13: the Euler value is the power, and the symbol is read off the register. -/
theorem legendreWritesEulerValue : Obligations.LegendreWritesEulerValue := fun s rd ra hs hP hW => by
  obtain ⟨t, ht, hreg, hkeep⟩ := exec_legendre hs rd ra hP hW
  refine ⟨t, ht, hreg.trans (expP_eq _ _ _), ?_⟩
  rw [hreg]
  exact hkeep

/-- The parameter an index names, as an entry of the list of R90. -/
theorem paramAt_of_getElem {c : CurveParams} {idx : ParamIdx} {v : Nat}
    (h : [c.P, c.N, c.B, c.Gx, c.Gy, c.bitSize][idx.toNat]? = some v) : idxOk idx = true ∧ paramAt c idx = v := by
  have hidx : idx.toNat < 6 := by simpa using (List.getElem?_eq_some_iff.1 h).1
  refine ⟨(idxOk_iff idx).2 (by omega), ?_⟩
  unfold paramAt
  generalize idx.toNat = n at h hidx
  interval_cases n <;> simpa using h

/-- Settles O38: the entry of the list is the parameter that the index names. -/
theorem ldparamReadsRom : Obligations.LdparamReadsRom := fun s rd idx v hs hv => by
  intro set hset
  have hparams : s.params = set := rfl
  obtain ⟨hidx, hval⟩ := paramAt_of_getElem hset
  have hrule : ruleOf s (.ldparam rd idx) = .ok (.single rd v) := by rw [ruleOf, hparams, hval]
  obtain ⟨hreg, hkeep⟩ := completes_setSingle hs rd hv
  exact ⟨hparams, congrArg CurveParams.P hparams, _, exec_of_ruleOf_ok hidx nofun hrule rfl, hreg, hkeep⟩

/-! ### LIFT, JADD, JDBL: a triple (R100, R102, R104) -/

/-- Settles O16; the 1 fits because a register has at least one bit. -/
theorem liftCopiesWithZOne : Obligations.LiftCopiesWithZOne := fun s rd ra hs hrd hra => by
  have hone : 1 < 2 ^ s.cfg.W := Nat.one_lt_two_pow (by obtain ⟨⟨hpos, -⟩, -⟩ := hs; omega)
  have hwf : (Instr.lift rd ra).wf = true := by simp [Instr.wf, hrd, hra]
  obtain ⟨hX, hY, hZ, hkeep⟩ := completes_setJac (j := liftPt (s.aff ra)) hs hrd (hs.reg_lt _) (hs.reg_lt _) hone
  exact ⟨_, exec_of_ruleOf_ok hwf nofun rfl rfl, hX, hY, hZ, hkeep⟩

/-- Settles O18: the coordinates are reduced and have the classes of the exact integers. -/
theorem jaddWritesFormula : Obligations.JaddWritesFormula := fun s rd ra rb hs hrd hra hrb hP hW => by
  intro X1 Y1 Z1 X2 Y2 Z2 U1 H S1 R V X3
  have hwf : (Instr.jadd rd ra rb).wf = true := by simp [Instr.wf, hrd, hra, hrb]
  obtain ⟨hXlt, hYlt, hZlt⟩ := jadd_lt hP (s.jac ra) (s.jac rb)
  obtain ⟨hXc, hYc, hZc⟩ := jadd_cast hP (s.jac ra) (s.jac rb)
  obtain ⟨hX, hY, hZ, hkeep⟩ := completes_setJac hs hrd (hXlt.trans_le hW) (hYlt.trans_le hW) (hZlt.trans_le hW)
  refine ⟨_, exec_of_ruleOf_ok hwf nofun rfl rfl, ?_, ?_, ?_, hkeep⟩
  · rw [Effect.apply, hX]
    exact int_of_cast_eq hXlt (by rw [hXc]; simp only [State.jac, X3, V, R, S1, H, U1, X1, Y1, Z1, X2, Y2, Z2]; push_cast; ring)
  · rw [Effect.apply, hY]
    exact int_of_cast_eq hYlt (by rw [hYc]; simp only [State.jac, X3, V, R, S1, H, U1, X1, Y1, Z1, X2, Y2, Z2]; push_cast; ring)
  · rw [Effect.apply, hZ]
    exact int_of_cast_eq hZlt (by rw [hZc]; simp only [State.jac, H, U1, X1, Z1, X2, Z2]; push_cast; ring)

/-- Settles O20, as O18. -/
theorem jdblWritesFormula : Obligations.JdblWritesFormula := fun s rd ra hs hrd hra hP hW => by
  intro X1 Y1 Z1 D E X3
  have hwf : (Instr.jdbl rd ra).wf = true := by simp [Instr.wf, hrd, hra]
  obtain ⟨hXlt, hYlt, hZlt⟩ := jdbl_lt hP (s.jac ra)
  obtain ⟨hXc, hYc, hZc⟩ := jdbl_cast hP (s.jac ra)
  obtain ⟨hX, hY, hZ, hkeep⟩ := completes_setJac hs hrd (hXlt.trans_le hW) (hYlt.trans_le hW) (hZlt.trans_le hW)
  refine ⟨_, exec_of_ruleOf_ok hwf nofun rfl rfl, ?_, ?_, ?_, hkeep⟩
  · rw [Effect.apply, hX]
    exact int_of_cast_eq hXlt (by rw [hXc]; simp only [State.jac, X3, E, D, X1, Y1]; push_cast; ring)
  · rw [Effect.apply, hY]
    exact int_of_cast_eq hYlt (by rw [hYc]; simp only [State.jac, X3, E, D, X1, Y1]; push_cast; ring)
  · rw [Effect.apply, hZ]
    exact int_of_cast_eq hZlt (by rw [hZc]; simp only [State.jac, Y1, Z1]; push_cast; ring)

/-! ### Degenerate operands of JADD and JDBL (R103, R105) -/

theorem cast_eq_zero_iff (P a : Nat) : (a : ZMod P) = 0 ↔ a % P = 0 := by
  rw [ZMod.natCast_eq_zero_iff, Nat.dvd_iff_mod_eq_zero]

theorem cast_eq_cast_iff (P a b : Nat) : (a : ZMod P) = (b : ZMod P) ↔ a % P = b % P := ZMod.natCast_eq_natCast_iff' a b P

/-- A reduced natural is 0 exactly when its class is. -/
theorem cast_eq_zero_iff_of_lt {P a : Nat} (h : a < P) : (a : ZMod P) = 0 ↔ a = 0 := by
  rw [cast_eq_zero_iff, Nat.mod_eq_of_lt h]

/-- `H = 0` says that the first coordinates agree after the denominators are cleared. -/
theorem jadd_H_eq_zero_iff (P : Nat) (p q : Jac) :
    (q.X : ZMod P) * (p.Z : ZMod P) ^ 2 - p.X * (q.Z : ZMod P) ^ 2 = 0 ↔ p.X * q.Z ^ 2 % P = q.X * p.Z ^ 2 % P := by
  rw [sub_eq_zero, eq_comm, ← cast_eq_cast_iff]
  push_cast
  rfl

/-- `Z3 = 0` where `H = 0`, for every modulus (R103 item 2). -/
theorem jadd_Z_of_H {P : Nat} (hP : 0 < P) {p q : Jac} (h : p.X * q.Z ^ 2 % P = q.X * p.Z ^ 2 % P) : (jadd P p q).Z = 0 := by
  obtain ⟨-, -, hZlt⟩ := jadd_lt hP p q
  obtain ⟨-, -, hZ⟩ := jadd_cast hP p q
  rw [← cast_eq_zero_iff_of_lt hZlt, hZ, (jadd_H_eq_zero_iff P p q).2 h, mul_zero]

/-- For a prime `P` the `Z` of JADD is 0 in no other case (R103 item 3). -/
theorem jadd_Z_eq_zero_iff {P : Nat} (hP : Nat.Prime P) (p q : Jac) :
    (jadd P p q).Z = 0 ↔ p.Z % P = 0 ∨ q.Z % P = 0 ∨ p.X * q.Z ^ 2 % P = q.X * p.Z ^ 2 % P := by
  have : Fact P.Prime := ⟨hP⟩
  obtain ⟨-, -, hZlt⟩ := jadd_lt hP.pos p q
  obtain ⟨-, -, hZ⟩ := jadd_cast hP.pos p q
  rw [← cast_eq_zero_iff_of_lt hZlt, hZ, mul_eq_zero, mul_eq_zero, jadd_H_eq_zero_iff, cast_eq_zero_iff, cast_eq_zero_iff,
    or_assoc]

theorem Jac.eq_zero {j : Jac} (hX : j.X = 0) (hY : j.Y = 0) (hZ : j.Z = 0) : j = { X := 0, Y := 0, Z := 0 } := by
  cases j
  simp_all

/-- Settles O19: the coordinates with `H = 0` in the ring of integers modulo `P`, then the zeros of `Z` for a prime. -/
theorem jaddDegenerateCases : Obligations.JaddDegenerateCases := fun P p q hP => by
  refine ⟨fun h => ?_, fun hprime => jadd_Z_eq_zero_iff hprime p q⟩
  intro R
  obtain ⟨hXlt, hYlt, -⟩ := jadd_lt hP p q
  obtain ⟨hX, hY, -⟩ := jadd_cast hP p q
  have hH := (jadd_H_eq_zero_iff P p q).2 h
  have hR : ((R : Int) : ZMod P) = q.Y * (p.Z : ZMod P) ^ 3 - p.Y * (q.Z : ZMod P) ^ 3 := by simp only [R]; push_cast; rfl
  rw [hH, ← hR] at hX hY
  have hXR : ((jadd P p q).X : Int) = R ^ 2 % P := int_of_cast_eq hXlt (by rw [hX]; push_cast; ring)
  have hYR : ((jadd P p q).Y : Int) = -(R ^ 3) % P := int_of_cast_eq hYlt (by rw [hY]; push_cast; ring)
  have hZ := jadd_Z_of_H hP h
  refine ⟨hXR, hYR, hZ, fun hR0 => ?_⟩
  have hR0' : ((R : Int) : ZMod P) = 0 := (ZMod.intCast_zmod_eq_zero_iff_dvd R P).2 (Int.dvd_of_emod_eq_zero hR0)
  have hX0 : (jadd P p q).X = 0 := (cast_eq_zero_iff_of_lt hXlt).1 (by rw [hX, hR0']; ring)
  have hY0 : (jadd P p q).Y = 0 := (cast_eq_zero_iff_of_lt hYlt).1 (by rw [hY, hR0']; ring)
  exact Jac.eq_zero hX0 hY0 hZ

theorem two_ne_zero_of_odd_prime {P : Nat} (hP : Nat.Prime P) (h2 : P ≠ 2) : (2 : ZMod P) ≠ 0 := by
  have h := cast_eq_zero_iff P 2
  have hlt : 2 < P := lt_of_le_of_ne hP.two_le (Ne.symm h2)
  rw [Nat.mod_eq_of_lt hlt] at h
  exact fun h0 => absurd (h.1 (by exact_mod_cast h0)) (by decide)

/-- For an odd prime the `Z` of JDBL is 0 exactly when `Y` or `Z` is (R105 item 2). -/
theorem jdbl_Z_eq_zero_iff {P : Nat} (hP : Nat.Prime P) (h2 : P ≠ 2) (p : Jac) :
    (jdbl P p).Z = 0 ↔ p.Y % P = 0 ∨ p.Z % P = 0 := by
  have : Fact P.Prime := ⟨hP⟩
  obtain ⟨-, -, hZlt⟩ := jdbl_lt hP.pos p
  obtain ⟨-, -, hZ⟩ := jdbl_cast hP.pos p
  rw [← cast_eq_zero_iff_of_lt hZlt, hZ, mul_eq_zero, mul_eq_zero, cast_eq_zero_iff, cast_eq_zero_iff,
    or_iff_right (two_ne_zero_of_odd_prime hP h2)]

/-- Settles O21. -/
theorem jdblZeroZExactly : Obligations.JdblZeroZExactly := fun _ p hP h2 => jdbl_Z_eq_zero_iff hP h2 p

/-- `Z = 0` where `Y ≡ 0`, for every modulus. -/
theorem jdbl_Z_of_Y {P : Nat} (hP : 0 < P) {p : Jac} (h : p.Y % P = 0) : (jdbl P p).Z = 0 := by
  obtain ⟨-, -, hZlt⟩ := jdbl_lt hP p
  obtain ⟨-, -, hZ⟩ := jdbl_cast hP p
  rw [← cast_eq_zero_iff_of_lt hZlt, hZ, (cast_eq_zero_iff P p.Y).2 h, mul_zero, zero_mul]

/-! ### LOWER, PADD, PDBL: a pair, or no inverse (R101, R106, R107) -/

/-- Settles O17: the lowered pair, its equations read as congruences. -/
theorem lowerDividesByZ : Obligations.LowerDividesByZ := fun s rd ra hs hrd hra hP hW hgcd => by
  obtain ⟨a, ha, hxlt, hylt, hx, hy⟩ := lowerPt_ok (j := s.jac ra) hP hgcd
  have hwf : (Instr.lower rd ra).wf = true := by simp [Instr.wf, hrd, hra]
  have hrule : ruleOf s (.lower rd ra) = .ok (.pair rd a) := by rw [ruleOf, ha]; rfl
  obtain ⟨hregx, hregy, hkeep⟩ := completes_setAff hs hrd (hxlt.trans_le hW) (hylt.trans_le hW)
  refine ⟨_, exec_of_ruleOf_ok hwf nofun hrule rfl, ?_, ?_, ?_, ?_, hkeep⟩ <;> rw [Effect.apply]
  · rwa [hregx]
  · rwa [hregy]
  · rw [hregx, ← cast_eq_cast_iff]
    exact_mod_cast hx
  · rw [hregy, ← cast_eq_cast_iff]
    exact_mod_cast hy

theorem lowerPt_error_of_Z {P : Nat} (hP : 1 < P) {j : Jac} (h : j.Z = 0) : lowerPt P j = .error .notInvertible :=
  lowerPt_error (by rw [h, Nat.zero_mod, Nat.gcd_zero_left]; omega)

/-- Points with congruent first coordinates have `H = 0` (R106). -/
theorem affAdd_error {P : Nat} (hP : 1 < P) {a b : Aff} (h : a.px % P = b.px % P) : affAdd P a b = .error .notInvertible :=
  lowerPt_error_of_Z hP (jadd_Z_of_H (by omega) (by simpa [liftPt] using h))

theorem affDbl_error {P : Nat} (hP : 1 < P) {a : Aff} (h : a.py % P = 0) : affDbl P a = .error .notInvertible :=
  lowerPt_error_of_Z hP (jdbl_Z_of_Y (by omega) h)

/-- Settles O12: each of the four rules asks for the inverse of a value that has none. -/
theorem notInvertibleFaults : Obligations.NotInvertibleFaults := fun s rd ra rb hP => by
  refine ⟨fun h => ?modinv, fun hrd hra h => ?lower, fun hrd hra hrb h => ?padd, fun hrd hra h => ?pdbl⟩
  case modinv => exact faultsWith_of_ruleOf_error rfl nofun (by rw [ruleOf, State.single, invP_error h]; rfl)
  case lower =>
    exact faultsWith_of_ruleOf_error (by simp [Instr.wf, hrd, hra]) nofun
      (by rw [ruleOf, lowerPt_error (j := s.jac ra) h]; rfl)
  case padd =>
    exact faultsWith_of_ruleOf_error (by simp [Instr.wf, hrd, hra, hrb]) nofun
      (by rw [ruleOf, affAdd_error (a := s.aff ra) (b := s.aff rb) hP h]; rfl)
  case pdbl =>
    exact faultsWith_of_ruleOf_error (by simp [Instr.wf, hrd, hra]) nofun
      (by rw [ruleOf, affDbl_error (a := s.aff ra) hP h]; rfl)

/-- The lowering of a triple whose `Z` is not 0, for a prime `P`. -/
theorem lowerPt_of_Z {P : Nat} (hP : Nat.Prime P) {j : Jac} (h : (j.Z : ZMod P) ≠ 0) :
    ∃ a, lowerPt P j = .ok a ∧ a.px < P ∧ a.py < P ∧ (a.px : ZMod P) * (j.Z : ZMod P) ^ 2 = j.X ∧
      (a.py : ZMod P) * (j.Z : ZMod P) ^ 3 = j.Y :=
  lowerPt_ok hP.pos ((gcd_mod_prime hP).2 (mt (cast_eq_zero_iff P j.Z).2 h))

/-- The chord sum: `affAdd` in the field of `P` elements, with the slope `l` (R106). -/
theorem affAdd_chord {P : Nat} (hP : Nat.Prime P) {a b : Aff} (h : a.px % P ≠ b.px % P) :
    ∃ (c : Aff) (l : ZMod P), affAdd P a b = .ok c ∧ c.px < P ∧ c.py < P ∧
      l * ((b.px : ZMod P) - a.px) = (b.py : ZMod P) - a.py ∧ (c.px : ZMod P) = l * l - a.px - b.px ∧
      (c.py : ZMod P) = l * (a.px - c.px) - a.py := by
  have : Fact P.Prime := ⟨hP⟩
  have hH : (b.px : ZMod P) - a.px ≠ 0 := sub_ne_zero.2 fun e => h ((cast_eq_cast_iff P _ _).1 e.symm)
  obtain ⟨hX, hY, hZ⟩ := jadd_cast hP.pos (liftPt a) (liftPt b)
  simp only [liftPt, Nat.cast_one, one_pow, mul_one, one_mul] at hX hY hZ
  obtain ⟨c, hc, hxlt, hylt, hx, hy⟩ :=
    lowerPt_of_Z hP (j := jadd P (liftPt a) (liftPt b)) (by rw [liftPt, liftPt, hZ]; exact hH)
  simp only [liftPt] at hc hx hy
  rw [hX, hZ] at hx
  rw [hY, hZ] at hy
  have hcx : (c.px : ZMod P) = ((b.py - a.py) / (b.px - a.px)) * ((b.py - a.py) / (b.px - a.px)) - a.px - b.px := by
    field_simp
    linear_combination hx
  refine ⟨c, (b.py - a.py) / (b.px - a.px), hc, hxlt, hylt, div_mul_cancel₀ _ hH, hcx, ?_⟩
  apply mul_right_cancel₀ (pow_ne_zero 3 hH)
  rw [hy, ← hx]
  field_simp

/-- The tangent double: `affDbl` in the field of `P` elements, with the slope `l` (R107). -/
theorem affDbl_tangent {P : Nat} (hP : Nat.Prime P) (h2 : P ≠ 2) {a : Aff} (h : a.py % P ≠ 0) :
    ∃ (c : Aff) (l : ZMod P), affDbl P a = .ok c ∧ c.px < P ∧ c.py < P ∧
      l * (2 * (a.py : ZMod P)) = 3 * (a.px : ZMod P) ^ 2 ∧ (c.px : ZMod P) = l * l - 2 * a.px ∧
      (c.py : ZMod P) = l * (a.px - c.px) - a.py := by
  have : Fact P.Prime := ⟨hP⟩
  have hy0 : (a.py : ZMod P) ≠ 0 := mt (cast_eq_zero_iff P a.py).1 h
  have htwo := two_ne_zero_of_odd_prime hP h2
  have hD : 2 * (a.py : ZMod P) ≠ 0 := mul_ne_zero htwo hy0
  obtain ⟨hX, hY, hZ⟩ := jdbl_cast hP.pos (liftPt a)
  simp only [liftPt, Nat.cast_one, mul_one] at hX hY hZ
  obtain ⟨c, hc, hxlt, hylt, hx, hy⟩ := lowerPt_of_Z hP (j := jdbl P (liftPt a)) (by rw [liftPt, hZ]; exact hD)
  simp only [liftPt] at hc hx hy
  rw [hX, hZ] at hx
  rw [hY, hZ] at hy
  have hcx : (c.px : ZMod P) = (3 * (a.px : ZMod P) ^ 2 / (2 * a.py)) * (3 * (a.px : ZMod P) ^ 2 / (2 * a.py)) - 2 * a.px := by
    field_simp
    linear_combination hx
  refine ⟨c, 3 * (a.px : ZMod P) ^ 2 / (2 * a.py), hc, hxlt, hylt, div_mul_cancel₀ _ hD, hcx, ?_⟩
  apply mul_right_cancel₀ (pow_ne_zero 3 hD)
  rw [hy, ← hx]
  field_simp
  ring

/-- An equation between classes of integers, as divisibility. -/
theorem dvd_sub_of_cast_eq {P : Nat} {a b : Int} (h : (a : ZMod P) = (b : ZMod P)) : (P : Int) ∣ a - b := by
  rw [← ZMod.intCast_zmod_eq_zero_iff_dvd]
  push_cast
  exact sub_eq_zero.2 h

/-- Settles O22: the slope of the chord, lifted to an integer. -/
theorem paddWritesChordSum : Obligations.PaddWritesChordSum := fun s rd ra rb hs hrd hra hrb hP hW hne => by
  obtain ⟨c, l, hc, hxlt, hylt, hl, hx, hy⟩ := affAdd_chord (a := s.aff ra) (b := s.aff rb) hP hne
  obtain ⟨l, rfl⟩ := ZMod.intCast_surjective l
  have hrule : ruleOf s (.padd rd ra rb) = .ok (.pair rd c) := by rw [ruleOf, hc]; rfl
  obtain ⟨hregx, hregy, hkeep⟩ := completes_setAff hs hrd (hxlt.trans_le hW) (hylt.trans_le hW)
  refine ⟨_, l, exec_of_ruleOf_ok (by simp [Instr.wf, hrd, hra, hrb]) nofun hrule rfl, dvd_sub_of_cast_eq ?_, ?_, ?_, hkeep⟩
  · push_cast
    exact hl
  · rw [Effect.apply, hregx]
    exact int_of_cast_eq hxlt (by push_cast; exact hx)
  · rw [Effect.apply, hregx, hregy]
    exact int_of_cast_eq hylt (by push_cast; exact hy)

/-- Settles O24, as O22 with the tangent. -/
theorem pdblWritesTangentDouble : Obligations.PdblWritesTangentDouble := fun s rd ra hs hrd hra hP h2 hW hne => by
  obtain ⟨c, l, hc, hxlt, hylt, hl, hx, hy⟩ := affDbl_tangent (a := s.aff ra) hP h2 hne
  obtain ⟨l, rfl⟩ := ZMod.intCast_surjective l
  have hrule : ruleOf s (.pdbl rd ra) = .ok (.pair rd c) := by rw [ruleOf, hc]; rfl
  obtain ⟨hregx, hregy, hkeep⟩ := completes_setAff hs hrd (hxlt.trans_le hW) (hylt.trans_le hW)
  refine ⟨_, l, exec_of_ruleOf_ok (by simp [Instr.wf, hrd, hra]) nofun hrule rfl, dvd_sub_of_cast_eq ?_, ?_, ?_, hkeep⟩
  · push_cast
    exact hl
  · rw [Effect.apply, hregx]
    exact int_of_cast_eq hxlt (by push_cast; exact hx)
  · rw [Effect.apply, hregx, hregy]
    exact int_of_cast_eq hylt (by push_cast; exact hy)

/-! ### ONCURVE (R91) -/

theorem isOnCurve_eq (c : CurveParams) (a : Aff) : isOnCurve c a = decide (a.py ^ 2 % c.P = (a.px ^ 3 + c.B) % c.P) := by
  have hy : mulP c.P a.py a.py = a.py ^ 2 % c.P := by rw [mulP, pow_two]
  have hx : addP c.P (mulP c.P (mulP c.P a.px a.px) a.px) c.B = (a.px ^ 3 + c.B) % c.P := by
    rw [addP, mulP, mulP, Nat.mod_mul_mod, Nat.mod_add_mod, pow_succ, pow_two]
  rw [isOnCurve, hy, hx, Bool.beq_eq_decide_eq]

/-- Settles O26: the flag is the effect, and it writes no register. -/
theorem oncurveSetsPredicate : Obligations.OncurveSetsPredicate := fun s ra hra => by
  refine ⟨_, exec_of_ruleOf_ok (i := .oncurve ra) hra nofun rfl rfl, ?_⟩
  rw [isOnCurve_eq]
  exact Effect.completesKeeping (e := .oncurve _) s rfl

end Sys2Proof.Machine
end

section
/-! PROOFS. The Legendre symbol and the square root modulo a prime (R140 to R144): Euler's criterion, the fast path, and
Tonelli-Shanks. -/

namespace Sys2Proof.Machine

/-! ### Euler's criterion (R140) -/

/-- A square modulo `P` is a square of the ring of integers modulo `P`. -/
theorem isSquareMod_iff {P : Nat} (hP : 0 < P) (a : Nat) : IsSquareMod P a ↔ IsSquare (a : ZMod P) := by
  have : NeZero P := ⟨hP.ne'⟩
  constructor
  · rintro ⟨r, hr⟩
    refine ⟨r, ?_⟩
    have := (cast_eq_cast_iff P (r * r) a).2 hr
    push_cast at this
    exact this.symm
  · rintro ⟨z, hz⟩
    refine ⟨z.val, (cast_eq_cast_iff P _ _).1 ?_⟩
    push_cast
    rw [ZMod.natCast_zmod_val, hz]

theorem euler_cast (P a : Nat) : ((euler P a : Nat) : ZMod P) = (a : ZMod P) ^ ((P - 1) / 2) := expP_cast P a _

theorem half_pred_of_odd_prime {P : Nat} (hP : Nat.Prime P) (h2 : P ≠ 2) : (P - 1) / 2 = P / 2 ∧ 2 < P := by
  have hodd := hP.eq_two_or_odd
  have htwo := hP.two_le
  omega

/-- The three cases of the Euler value for an odd prime (R140). -/
theorem euler_cases {P : Nat} (hP : Nat.Prime P) (h2 : P ≠ 2) (a : Nat) :
    (a % P = 0 ∧ euler P a = 0) ∨ (a % P ≠ 0 ∧ IsSquareMod P a ∧ euler P a = 1) ∨
      (¬ IsSquareMod P a ∧ euler P a = P - 1) := by
  have : Fact P.Prime := ⟨hP⟩
  obtain ⟨hhalf, hlt⟩ := half_pred_of_odd_prime hP h2
  have helt : euler P a < P := expP_lt hP.pos _ _
  have hcast := euler_cast P a
  rw [hhalf] at hcast
  by_cases h0 : a % P = 0
  · refine .inl ⟨h0, (cast_eq_zero_iff_of_lt helt).1 ?_⟩
    rw [hcast, (cast_eq_zero_iff P a).2 h0, zero_pow (by omega)]
  · right
    have hne : (a : ZMod P) ≠ 0 := mt (cast_eq_zero_iff P a).1 h0
    have hcrit := ZMod.euler_criterion P hne
    obtain hone | hneg := ZMod.pow_div_two_eq_neg_one_or_one P hne
    · refine .inl ⟨h0, (isSquareMod_iff hP.pos a).2 (hcrit.2 hone), eq_of_cast_eq helt (by omega) ?_⟩
      rw [hcast, hone, Nat.cast_one]
    · have hpred : ((P - 1 : Nat) : ZMod P) = -1 := by
        rw [Nat.cast_sub (by omega), ZMod.natCast_self, Nat.cast_one, zero_sub]
      refine .inr ⟨fun hsq => ?_, eq_of_cast_eq helt (by omega) (by rw [hcast, hneg, hpred])⟩
      have hone := hcrit.1 ((isSquareMod_iff hP.pos a).1 hsq)
      have hfact : Fact (2 < P) := ⟨hlt⟩
      exact ZMod.neg_one_ne_one (hneg.symm.trans hone)

/-- Settles O14: the three cases of the Euler value, each with its symbol. -/
theorem legendreFlagIsSymbol : Obligations.LegendreFlagIsSymbol := fun s rd ra hs hP h2 hW => by
  obtain ⟨t, ht, hreg, -, -, -, hstatus, -⟩ := exec_legendre hs rd ra hP.pos hW
  obtain ⟨-, hlt⟩ := half_pred_of_odd_prime hP h2
  have hleg : t.status.leg = legBits (euler s.P (s.reg ra.toNat)) := by rw [hstatus]
  refine ⟨t, ht, ?_⟩
  rw [hreg, hleg]
  obtain ⟨h0, he⟩ | ⟨h0, hsq, he⟩ | ⟨hsq, he⟩ := euler_cases hP h2 (s.reg ra.toNat)
  · exact .inl ⟨h0, he, by rw [he]; rfl⟩
  · exact .inr (.inl ⟨h0, hsq, he, by rw [he]; rfl⟩)
  · exact .inr (.inr ⟨hsq, he, by rw [he, legBits, if_neg (by omega), if_neg (by omega)]⟩)

/-! ### The parts of Tonelli-Shanks (R143) -/

/-- Splitting off the twos: an odd factor and the power of two beside it. -/
theorem splitTwos_spec (fuel s e : Nat) (hs : 0 < s) (hf : s ≤ fuel) :
    (splitTwos fuel s e).1 % 2 = 1 ∧ e ≤ (splitTwos fuel s e).2 ∧
      (splitTwos fuel s e).1 * 2 ^ (splitTwos fuel s e).2 = s * 2 ^ e := by
  induction fuel generalizing s e with
  | zero => omega
  | succ fuel ih =>
    unfold splitTwos
    by_cases h : s % 2 = 0
    · rw [if_pos h]
      obtain ⟨hodd, hle, hprod⟩ := ih (s / 2) (e + 1) (by omega) (by omega)
      refine ⟨hodd, by omega, hprod.trans ?_⟩
      have hs2 : s = s / 2 * 2 := by omega
      conv_rhs => rw [hs2]
      ring
    · rw [if_neg h]
      exact ⟨by omega, le_rfl, rfl⟩

/-- The search from `n` on finds a non-residue if there is one below `P` within its rounds. -/
theorem findNonResidue_spec {P : Nat} (fuel n : Nat) (h : ∃ k, n ≤ k ∧ k < P ∧ k ≤ n + fuel ∧ legendreSym P k = -1) :
    findNonResidue P fuel n < P ∧ legendreSym P (findNonResidue P fuel n) = -1 := by
  obtain ⟨k, hnk, hkP, hkf, hk⟩ := h
  induction fuel generalizing n with
  | zero =>
    obtain rfl : n = k := by omega
    exact ⟨hkP, hk⟩
  | succ fuel ih =>
    unfold findNonResidue
    by_cases hn : n < P ∧ legendreSym P n ≠ -1
    · rw [if_pos hn]
      have hne : n ≠ k := fun e => hn.2 (e ▸ hk)
      exact ih (n + 1) (by omega) (by omega)
    · rw [if_neg hn]
      have hlt : n < P := by omega
      exact ⟨hlt, by simpa [hlt] using hn⟩

theorem legendreSym_eq_neg_one {P : Nat} (hP : Nat.Prime P) (h2 : P ≠ 2) (a : Nat) :
    legendreSym P a = -1 ↔ ¬ IsSquareMod P a := by
  obtain ⟨-, hlt⟩ := half_pred_of_odd_prime hP h2
  unfold legendreSym
  obtain ⟨h0, he⟩ | ⟨-, hsq, he⟩ | ⟨hsq, he⟩ := euler_cases hP h2 a
  · have hsq : IsSquareMod P a := ⟨0, by rw [h0]; exact Nat.zero_mod P⟩
    simp [he, hsq]
  · simp [he, hsq]
  · simp [he, hsq, show P - 1 ≠ 0 by omega, show P - 1 ≠ 1 by omega]

/-- An odd prime has a non-residue, which is at least 2. -/
theorem exists_nonResidue {P : Nat} (hP : Nat.Prime P) (h2 : P ≠ 2) : ∃ k, 2 ≤ k ∧ k < P ∧ ¬ IsSquareMod P k := by
  have : Fact P.Prime := ⟨hP⟩
  obtain ⟨z, hz⟩ := FiniteField.exists_nonsquare (F := ZMod P) (by rwa [ZMod.ringChar_zmod_n])
  have hnot : ¬ IsSquareMod P z.val := by
    rwa [isSquareMod_iff hP.pos, ZMod.natCast_zmod_val]
  refine ⟨z.val, ?_, z.val_lt, hnot⟩
  by_contra hlt
  obtain h | h : z.val = 0 ∨ z.val = 1 := by omega
  · exact hnot ⟨0, by rw [h]⟩
  · exact hnot ⟨1, by rw [h]⟩

/-- The inner search answers the least exponent `r` with `b^(2^r) = 1`, if one is below `R`. -/
theorem findExponent_spec {P : Nat} (hP : 1 < P) (b : ZMod P) (R fuel m t : Nat) (ht : t < P) (htb : (t : ZMod P) = b ^ 2 ^ m)
    (hless : ∀ j < m, b ^ 2 ^ j ≠ 1) (hex : ∃ k, m ≤ k ∧ k < R ∧ k ≤ m + fuel ∧ b ^ 2 ^ k = 1) :
    ∃ r, findExponent P R fuel m t = .ok r ∧ r < R ∧ b ^ 2 ^ r = 1 ∧ ∀ j < r, b ^ 2 ^ j ≠ 1 := by
  have hone (t : Nat) (ht : t < P) : t = 1 ↔ (t : ZMod P) = 1 :=
    ⟨fun h => by rw [h, Nat.cast_one], fun h => eq_of_cast_eq ht hP (by rw [h, Nat.cast_one])⟩
  obtain ⟨k, hmk, hkR, hkf, hk⟩ := hex
  induction fuel generalizing m t with
  | zero =>
    obtain rfl : m = k := by omega
    exact ⟨m, if_pos ((hone t ht).2 (htb.trans hk)), hkR, hk, hless⟩
  | succ fuel ih =>
    unfold findExponent
    by_cases ht1 : t = 1
    · exact ⟨m, if_pos ht1, by omega, htb.symm.trans ((hone t ht).1 ht1), hless⟩
    · have hm1 : b ^ 2 ^ m ≠ 1 := fun h => ht1 ((hone t ht).2 (htb.trans h))
      have hne : m ≠ k := fun h => hm1 (h ▸ hk)
      rw [if_neg ht1, if_neg (by omega)]
      refine ih (m + 1) (mulP P t t) (mulP_lt (by omega) t t) ?_ (fun j hj => ?_) (by omega) (by omega)
      · rw [mulP_cast, htb, pow_succ, pow_mul, pow_two]
      · obtain hlt | rfl : j < m ∨ j = m := by omega
        · exact hless j hlt
        · exact hm1

theorem squareTimes_cast (P k g : Nat) : ((squareTimes P k g : Nat) : ZMod P) = (g : ZMod P) ^ 2 ^ k := by
  induction k generalizing g with
  | zero => simp [squareTimes]
  | succ k ih => rw [squareTimes, ih, mulP_cast, ← pow_two, ← pow_mul, pow_succ']

/-- What the outer loop keeps (R144): `x² = a b`, the order of `b` divides `2^(R-1)`, and `g` has the order `2^R`. -/
structure TonelliInv (P a x b g R : Nat) : Prop where
  root : (x : ZMod P) ^ 2 = a * b
  power : (b : ZMod P) ^ 2 ^ (R - 1) = 1
  generator : (g : ZMod P) ^ 2 ^ (R - 1) = -1
  pos : 0 < R
  root_lt : x < P
  power_lt : b < P

/-- In a field the first power of two that takes `b` to 1 takes it to -1 one step before. -/
theorem pow_eq_neg_one_of_least {P : Nat} (hP : Nat.Prime P) {b : ZMod P} {m : Nat} (hm : 0 < m) (h1 : b ^ 2 ^ m = 1)
    (hless : ∀ j < m, b ^ 2 ^ j ≠ 1) : b ^ 2 ^ (m - 1) = -1 := by
  have : Fact P.Prime := ⟨hP⟩
  obtain ⟨m, rfl⟩ := Nat.exists_eq_succ_of_ne_zero hm.ne'
  rw [Nat.succ_eq_add_one, pow_succ, pow_mul] at h1
  exact (sq_eq_one_iff.1 h1).resolve_left (hless m (Nat.lt_succ_self m))

/-- One pass that does not return: the new exponent is smaller, and the invariant is kept. -/
theorem TonelliInv.next {P a x b g R m : Nat} (hP : Nat.Prime P) (h : TonelliInv P a x b g R) (hm : 0 < m) (hmR : m < R)
    (h1 : (b : ZMod P) ^ 2 ^ m = 1) (hless : ∀ j < m, (b : ZMod P) ^ 2 ^ j ≠ 1) {gs : Nat}
    (hgs : (gs : ZMod P) = (g : ZMod P) ^ 2 ^ (R - m - 1)) :
    TonelliInv P a (mulP P x gs) (mulP P b (mulP P gs gs)) (mulP P gs gs) m := by
  have hpow : ((gs : ZMod P) * gs) ^ 2 ^ (m - 1) = -1 := by
    have hexp : 2 ^ (R - m - 1) * (2 * 2 ^ (m - 1)) = 2 ^ (R - 1) := by
      rw [← pow_succ', ← pow_add]
      congr 1
      omega
    rw [← pow_two, hgs, ← pow_mul, ← pow_mul, hexp, h.generator]
  refine ⟨?_, ?_, ?_, hm, mulP_lt hP.pos _ _, mulP_lt hP.pos _ _⟩
  · simp only [mulP_cast]
    linear_combination (gs : ZMod P) ^ 2 * h.root
  · simp only [mulP_cast]
    rw [mul_pow, pow_eq_neg_one_of_least hP hm h1 hless, hpow, neg_one_mul, neg_neg]
  · simp only [mulP_cast]
    exact hpow

/-- The outer loop answers a root below `P`, by induction on its rounds. -/
theorem tonelliLoop_spec {P : Nat} (hP : Nat.Prime P) {a : Nat} (fuel x b g R : Nat) (hf : R < fuel)
    (h : TonelliInv P a x b g R) : ∃ r, tonelliLoop P fuel x b g R = .ok r ∧ r < P ∧ (r : ZMod P) ^ 2 = a := by
  induction fuel generalizing x b g R with
  | zero => omega
  | succ fuel ih =>
    have hpos := h.pos
    obtain ⟨m, hm, hmR, h1, hless⟩ := findExponent_spec hP.one_lt (b : ZMod P) R R 0 b h.power_lt (by simp) (by simp)
      ⟨R - 1, by omega, by omega, by omega, h.power⟩
    unfold tonelliLoop
    rw [hm]
    by_cases h0 : m = 0
    · subst h0
      refine ⟨x, by simp, h.root_lt, ?_⟩
      rw [h.root, show (b : ZMod P) = 1 by simpa using h1, mul_one]
    · simp only [h0, if_false]
      exact ih _ _ _ m (by omega) (h.next hP (Nat.pos_of_ne_zero h0) hmR h1 hless (squareTimes_cast P _ g))

/-- Euler's criterion as a power, for a square not divisible by `P`. -/
theorem pow_half_of_square {P : Nat} (hP : Nat.Prime P) (h2 : P ≠ 2) {a : Nat} (ha : a % P ≠ 0) (hsq : IsSquareMod P a) :
    (a : ZMod P) ^ ((P - 1) / 2) = 1 := by
  obtain ⟨h0, -⟩ | ⟨-, -, he⟩ | ⟨hns, -⟩ := euler_cases hP h2 a
  · exact absurd h0 ha
  · rw [← euler_cast, he, Nat.cast_one]
  · exact absurd hsq hns

/-- Euler's criterion as a power, for a non-residue. -/
theorem pow_half_of_nonResidue {P : Nat} (hP : Nat.Prime P) (h2 : P ≠ 2) {a : Nat} (hns : ¬ IsSquareMod P a) :
    (a : ZMod P) ^ ((P - 1) / 2) = -1 := by
  obtain ⟨h0, -⟩ | ⟨-, hsq, -⟩ | ⟨-, he⟩ := euler_cases hP h2 a
  · exact absurd ⟨0, by rw [h0]; exact Nat.zero_mod P⟩ hns
  · exact absurd hsq hns
  · rw [← euler_cast, he, Nat.cast_sub hP.one_le, ZMod.natCast_self, Nat.cast_one, zero_sub]

/-- Tonelli-Shanks answers a root of every square not divisible by the odd prime `P` (R143, R144). -/
theorem tonelliShanks_spec {P : Nat} (hP : Nat.Prime P) (h2 : P ≠ 2) {a : Nat} (ha : a % P ≠ 0) (hsq : IsSquareMod P a) :
    ∃ r, tonelliShanks P a = .ok r ∧ r < P ∧ (r : ZMod P) ^ 2 = a := by
  obtain ⟨-, hlt⟩ := half_pred_of_odd_prime hP h2
  obtain ⟨hodd, -, hprod⟩ := splitTwos_spec P (P - 1) 0 (by omega) (by omega)
  obtain ⟨k, hk2, hkP, hk⟩ := exists_nonResidue hP h2
  obtain ⟨hnP, hn⟩ := findNonResidue_spec (P := P) P 2 ⟨k, hk2, hkP, by omega, (legendreSym_eq_neg_one hP h2 k).2 hk⟩
  unfold tonelliShanks
  set q := splitTwos P (P - 1) 0
  set n := findNonResidue P P 2
  rw [pow_zero, mul_one] at hprod
  have he : 0 < q.2 := by
    have hpe := hP.eq_two_or_odd
    by_contra h0
    obtain h0 : q.2 = 0 := by omega
    rw [h0, pow_zero, mul_one] at hprod
    omega
  have hhalf : q.1 * 2 ^ (q.2 - 1) = (P - 1) / 2 := by
    have hsplit : 2 ^ q.2 = 2 ^ (q.2 - 1) * 2 := by rw [← pow_succ]; congr 1; omega
    rw [hsplit, ← mul_assoc] at hprod
    omega
  have hpa := pow_half_of_square hP h2 ha hsq
  have hpn := pow_half_of_nonResidue hP h2 ((legendreSym_eq_neg_one hP h2 n).1 hn)
  rw [if_neg (by omega)]
  refine tonelliLoop_spec hP _ _ _ _ _ (Nat.lt_succ_self _) ⟨?_, ?_, ?_, he, expP_lt hP.pos _ _, expP_lt hP.pos _ _⟩
  · rw [expP_cast, expP_cast, ← pow_mul, ← pow_succ']
    congr 1
    omega
  · rw [expP_cast, ← pow_mul, hhalf, hpa]
  · rw [expP_cast, ← pow_mul, hhalf, hpn]

/-! ### The square root (R142) -/

/-- What `sqrtP` answers for a prime: the root and its properties, or the sentinel. -/
structure RootSpec (P a r : Nat) (found : Bool) : Prop where
  lt : r < P
  found_iff : found = true ↔ IsSquareMod P a
  square : found = true → r * r % P = a % P
  sentinel : found = false → r = 0
  zero : a % P = 0 → r = 0
  fast : P % 4 = 3 → a % P ≠ 0 → IsSquareMod P a → r = a ^ ((P + 1) / 4) % P

theorem isSquareMod_mod (P a : Nat) : IsSquareMod P (a % P) ↔ IsSquareMod P a := by
  unfold IsSquareMod
  rw [Nat.mod_mod]

/-- An answer that is a root of a square not divisible by `P`. -/
theorem RootSpec.of_root {P a r : Nat} (hlt : r < P) (h0 : a % P ≠ 0) (hr : (r : ZMod P) ^ 2 = a)
    (hfast : P % 4 = 3 → r = a ^ ((P + 1) / 4) % P) : RootSpec P a r true := by
  have hsq : r * r % P = a % P := (cast_eq_cast_iff P _ _).1 (by push_cast; rw [← pow_two, hr])
  exact ⟨hlt, ⟨fun _ => ⟨r, hsq⟩, fun _ => rfl⟩, fun _ => hsq, nofun, fun h => absurd h h0, fun h _ _ => hfast h⟩

/-- `sqrtP` answers for every prime, and never raises `Internal` (R144). -/
theorem sqrtP_spec {P : Nat} (hP : Nat.Prime P) (a : Nat) : ∃ r found, sqrtP P a = .ok (r, found) ∧ RootSpec P a r found := by
  have hmod : ((a % P : Nat) : ZMod P) = a := ZMod.natCast_mod a P
  simp only [sqrtP]
  by_cases h0 : a % P = 0
  · rw [if_pos h0]
    have hsq : 0 * 0 % P = a % P := by rw [h0]; exact Nat.zero_mod P
    exact ⟨0, true, rfl, hP.pos, ⟨fun _ => ⟨0, hsq⟩, fun _ => rfl⟩, fun _ => hsq, nofun, fun _ => rfl,
      fun _ h => absurd h0 h⟩
  · rw [if_neg h0]
    by_cases h2 : P = 2
    · rw [if_pos h2]
      refine ⟨a % P, true, rfl, RootSpec.of_root (Nat.mod_lt _ hP.pos) h0 ?_ (by omega)⟩
      have h1 : a % P = 1 := by subst h2; omega
      rw [hmod, ← hmod, h1, Nat.cast_one, one_pow]
    · rw [if_neg h2]
      obtain ⟨-, hlt⟩ := half_pred_of_odd_prime hP h2
      obtain ⟨hz, -⟩ | ⟨-, hsq, he⟩ | ⟨hns, he⟩ := euler_cases hP h2 (a % P)
      · exact absurd ((Nat.mod_mod a P).symm.trans hz) h0
      · rw [isSquareMod_mod] at hsq
        have hpow : (a : ZMod P) ^ ((P - 1) / 2) = 1 := by rw [← hmod, ← euler_cast, he, Nat.cast_one]
        rw [if_neg (not_not.2 he)]
        by_cases h3 : P % 4 = 3
        · rw [if_pos h3]
          refine ⟨_, true, rfl, RootSpec.of_root (expP_lt hP.pos _ _) h0 ?_ fun _ => by rw [expP_eq, ← Nat.pow_mod]⟩
          have hexp : (P + 1) / 4 * 2 = (P - 1) / 2 + 1 := by omega
          rw [expP_cast, hmod, ← pow_mul, hexp, pow_succ, hpow, one_mul]
        · rw [if_neg h3]
          obtain ⟨r, hr, hrlt, hroot⟩ := tonelliShanks_spec hP h2 (a := a % P) (by rwa [Nat.mod_mod])
            ((isSquareMod_mod P a).2 hsq)
          exact ⟨r, true, by rw [hr]; rfl, RootSpec.of_root hrlt h0 (hroot.trans hmod) fun h => absurd h h3⟩
      · rw [isSquareMod_mod] at hns
        rw [if_pos (by omega)]
        exact ⟨0, false, rfl, hP.pos, ⟨nofun, fun h => absurd h hns⟩, nofun, fun _ => rfl, fun h => rfl,
          fun _ _ h => absurd h hns⟩

/-- Settles O15: what `sqrtP` answers is written, and `NOROOT` says whether it was found. -/
theorem sqrtFindsRootForPrime : Obligations.SqrtFindsRootForPrime := fun s rd ra hs hP hW => by
  obtain ⟨r, found, hr, hspec⟩ := sqrtP_spec hP (s.reg ra.toNat)
  have hrule : ruleOf s (.sqrt rd ra) = .ok (.root rd r found) := by rw [ruleOf, State.single, hr]; rfl
  obtain ⟨hreg, -⟩ := State.setSingle_spec hs rd (hspec.lt.trans_le hW)
  have hkeep : CompletesKeeping s _ [rd.toNat] { s.status.ended with noroot := !found } :=
    Effect.completesKeeping (e := .root rd r found) s rfl
  have hval : (((Effect.root rd r found).apply s).complete).reg rd.toNat = r := hreg
  refine ⟨_, exec_of_ruleOf_ok rfl nofun hrule rfl, ?_⟩
  rw [hval]
  refine ⟨hspec.lt, fun hsq => ?_, fun hsq => ?_, hspec.zero, hspec.fast⟩
  · obtain rfl : found = true := hspec.found_iff.2 hsq
    exact ⟨hspec.square rfl, hkeep⟩
  · obtain rfl : found = false := Bool.eq_false_iff.2 fun h => hsq (hspec.found_iff.1 h)
    exact ⟨hspec.sentinel rfl, hkeep⟩

end Sys2Proof.Machine
end

section
/-! PROOFS. The point codec (R130 to R133): the string COMPRESS writes, what DECOMPRESS makes of a string, and the round trip. -/

namespace Sys2Proof.Machine

/-! ### The byte string in `BUF` (R29) -/

theorem State.length_bufString (s : State) : s.bufString.length = s.len.toNat := by simp [State.bufString]

theorem State.bufString_getElem (s : State) {k : Nat} (hk : k < s.len.toNat) : s.bufString[k]? = some (s.buf.byteAt k) := by
  rw [State.bufString, List.getElem?_map, List.getElem?_range hk]
  rfl

theorem State.bufString_of_len_zero {s : State} (h : s.len = 0) : s.bufString = [] := by
  rw [← List.length_eq_zero_iff, State.length_bufString, h]
  rfl

/-- A string with a byte begins with `BUF[0]`. -/
theorem State.bufString_eq_cons {s : State} (h : s.len ≠ 0) : s.bufString = s.buf.byteAt 0 :: s.bufString.tail := by
  have hpos : 0 < s.len.toNat := Nat.pos_of_ne_zero fun h0 => h (BitVec.eq_of_toNat_eq h0)
  have hget := s.bufString_getElem hpos
  cases hs : s.bufString with
  | nil => simp [hs] at hget
  | cons b bs => simp_all

/-! ### COMPRESS (R130) -/

section
variable {s : State} {bs : List Byte}

/-- A string that `LEN` can count sets `LEN` to its length. -/
theorem len_after_bytes (s : State) (h : bs.length ≤ 255) : ((Effect.bytes bs).apply s).complete.len.toNat = bs.length := by
  show (BitVec.ofNat 8 bs.length).toNat = bs.length
  rw [BitVec.toNat_ofNat]
  omega

/-- Such a string is then the one in `BUF[0..LEN-1]`. -/
theorem bufString_after_bytes (s : State) (h : bs.length ≤ 255) : ((Effect.bytes bs).apply s).complete.bufString = bs := by
  have hlen := len_after_bytes s h
  apply List.ext_getElem?
  intro k
  by_cases hk : k < bs.length
  · rw [State.bufString_getElem _ (hlen ▸ hk)]
    have hbyte : (s.buf.setBytes 0 bs).byteAt k = bs[k]?.getD 0 :=
      Effect.bytes_below_len s.buf (hk.trans_eq hlen.symm)
    rw [List.getElem?_eq_getElem hk] at hbyte ⊢
    exact congrArg some hbyte
  · rw [List.getElem?_eq_none (by rw [State.length_bufString]; omega), List.getElem?_eq_none (by omega)]

/-- The bytes beyond it are kept. -/
theorem bufKept_after_bytes (s : State) : BufKeptFrom s ((Effect.bytes bs).apply s).complete bs.length := fun a ha => by
  show (s.buf.setBytes 0 bs).byteAt a = s.buf.byteAt a
  rw [Memory.byteAt_setBytes, if_neg (by omega)]

end

/-- COMPRESS completes with its byte string, which `LEN` can count. -/
theorem exec_compress {s : State} (hs : s.Sized) {ra : RegNum} (hra : pairOk ra = true) :
    let bs := compressBytes (s.reg ra.toNat) (s.reg (ra.toNat + 1))
    exec (.compress ra) s = .next ((Effect.bytes bs).apply s).complete ∧ bs.length ≤ 255 := by
  intro bs
  have hfit : bs.length ≤ s.cfg.BUFSZ := compressBytes_fits hs _ _
  have hBUF : s.cfg.BUFSZ ≤ 255 := by obtain ⟨⟨-, -, -, -, hBUF⟩, -⟩ := hs; exact hBUF
  exact ⟨exec_of_ruleOf_ok (i := .compress ra) (e := .bytes bs) hra nofun rfl (decide_eq_true hfit), hfit.trans hBUF⟩

/-- Settles O34: the string in `BUF` is then `compressBytes`, whose tail has the value of `x`. -/
theorem compressWritesHeaderAndX : Obligations.CompressWritesHeaderAndX := fun s ra hs hra => by
  obtain ⟨hexec, hlen⟩ := exec_compress hs hra
  set bs := compressBytes (s.reg ra.toNat) (s.reg (ra.toNat + 1)) with hbs
  have hstring := bufString_after_bytes s hlen
  have hcount := len_after_bytes s hlen
  refine ⟨_, hexec, ?_, ?_, ?_, ?_, ⟨rfl, fun _ _ => rfl⟩, rfl, (Effect.bytes bs).apply_hostSide s⟩
  · rw [hcount, hbs, compressBytes_length]
  · have hpos : 0 < bs.length := by rw [hbs, compressBytes_length]; omega
    have hfirst := State.bufString_getElem ((Effect.bytes bs).apply s).complete (hcount ▸ hpos)
    rw [hstring, hbs] at hfirst
    exact (Option.some.inj hfirst).symm
  · rw [hstring, hbs]
    exact beInt_beMinBytes _
  · rw [hcount]
    exact bufKept_after_bytes s

/-! ### DECOMPRESS (R132) -/

/-- The right side of the curve equation that DECOMPRESS takes the root of. -/
theorem curveRhs_mod (P x B : Nat) : addP P (mulP P (mulP P x x) x) B % P = (x ^ 3 + B) % P := by
  rw [addP, mulP, mulP, Nat.mod_mod, Nat.mod_mul_mod, Nat.mod_add_mod, pow_succ, pow_two]

theorem isSquareMod_congr {P a b : Nat} (h : a % P = b % P) : IsSquareMod P a ↔ IsSquareMod P b := by
  unfold IsSquareMod
  rw [h]

/-- The y that the header asks for, of a root below an odd `P`: of that parity, with the same square, below `P` but for `P - 0`. -/
theorem matchParity_spec {P r : Nat} {h : Byte} (hodd : P % 2 = 1) (hr : r < P) :
    matchParity P r h % 2 = h.toNat % 2 ∧ matchParity P r h ^ 2 % P = r ^ 2 % P ∧
      (matchParity P r h < P ∨ matchParity P r h = P ∧ r = 0 ∧ h.toNat % 2 = 1) := by
  unfold matchParity
  by_cases hp : r % 2 ≠ h.toNat % 2
  · rw [if_pos hp]
    refine ⟨by omega, (cast_eq_cast_iff P _ _).1 ?_, by omega⟩
    push_cast [Nat.cast_sub hr.le, ZMod.natCast_self]
    ring
  · rw [if_neg hp]
    exact ⟨by omega, rfl, .inl hr⟩

section
variable {c : CurveParams} {h : Byte} {rest : List Byte}

/-- DECOMPRESS on a header 0x02 or 0x03, the right length and an `x` on the curve. -/
theorem decompressBytes_point (hP : Nat.Prime c.P) (hh : h = 0x02#8 ∨ h = 0x03#8) (hlen : rest.length = byteLen c.bitSize)
    (hsq : IsSquareMod c.P (beInt rest ^ 3 + c.B)) :
    ∃ r, r < c.P ∧ r ^ 2 % c.P = (beInt rest ^ 3 + c.B) % c.P ∧
      decompressBytes c (h :: rest) = .ok (.point (beInt rest) (matchParity c.P r h)) := by
  have hmod := curveRhs_mod c.P (beInt rest) c.B
  obtain ⟨r, found, hr, hspec⟩ := sqrtP_spec hP (addP c.P (mulP c.P (mulP c.P (beInt rest) (beInt rest)) (beInt rest)) c.B)
  obtain rfl : found = true := hspec.found_iff.2 ((isSquareMod_congr hmod).2 hsq)
  refine ⟨r, hspec.lt, by rw [pow_two, hspec.square rfl, hmod], ?_⟩
  simp [decompressBytes, hh, hlen, Nat.add_comm, hr]

/-- The same with an `x` that has no root. -/
theorem decompressBytes_notOnCurve (hP : Nat.Prime c.P) (hh : h = 0x02#8 ∨ h = 0x03#8)
    (hlen : rest.length = byteLen c.bitSize) (hsq : ¬ IsSquareMod c.P (beInt rest ^ 3 + c.B)) :
    decompressBytes c (h :: rest) = .error .notOnCurve := by
  have hmod := curveRhs_mod c.P (beInt rest) c.B
  obtain ⟨r, found, hr, hspec⟩ := sqrtP_spec hP (addP c.P (mulP c.P (mulP c.P (beInt rest) (beInt rest)) (beInt rest)) c.B)
  obtain rfl : found = false := Bool.eq_false_iff.2 fun hf => hsq ((isSquareMod_congr hmod).1 (hspec.found_iff.1 hf))
  simp [decompressBytes, hh, hlen, Nat.add_comm, hr]

theorem decompressBytes_lengthMismatch (hh : h = 0x02#8 ∨ h = 0x03#8) (hlen : rest.length ≠ byteLen c.bitSize) :
    decompressBytes c (h :: rest) = .error .lengthMismatch := by
  simp [decompressBytes, hh, Nat.add_comm, hlen]

theorem decompressBytes_uncompressed (c : CurveParams) (rest : List Byte) :
    decompressBytes c (0x04#8 :: rest) = .ok .uncompressed := by
  simp [decompressBytes]

theorem decompressBytes_invalidHeader (hh : ¬ (h = 0x02#8 ∨ h = 0x03#8)) (h4 : h ≠ 0x04#8) :
    decompressBytes c (h :: rest) = .error .invalidHeader := by
  simp [decompressBytes, hh, h4]

end

/-- A legal instruction that reads `BUF` faults where `LEN > BUFSZ` (R55, R163). -/
theorem faultsWith_bufLen {i : Instr} {s : State} (hwf : i.wf = true) (hbuf : readsBuf i = true)
    (hlen : s.cfg.BUFSZ < s.len.toNat) : FaultsWith (exec i s) s .bufLen := by
  rw [exec_eq_finish, outcome_of_readsBuf s hbuf, if_neg (by simp [hwf]), if_pos hlen]
  exact faultsWith_raise s .bufLen

/-- DECOMPRESS raises what its function raises on the string. -/
theorem decompress_faults {s : State} {rd : RegNum} {c : Cause} (hrd : pairOk rd = true) (hlen : s.len.toNat ≤ s.cfg.BUFSZ)
    (h : decompressBytes s.params s.bufString = .error c) : FaultsWith (exec (.decompress rd) s) s c :=
  faultsWith_of_ruleOf_error (i := .decompress rd) hrd (fun _ => hlen) (by rw [ruleOf, h]; rfl)

/-- DECOMPRESS writes the point its function gives. -/
theorem exec_decompress_point {s : State} {rd : RegNum} {px py : Nat} (hrd : pairOk rd = true)
    (hlen : s.len.toNat ≤ s.cfg.BUFSZ) (h : decompressBytes s.params s.bufString = .ok (.point px py)) :
    exec (.decompress rd) s = .next (s.setAff rd { px := px, py := py }).complete :=
  exec_of_ruleOf_ok (i := .decompress rd) (e := .pair rd { px := px, py := py }) hrd (fun _ => hlen)
    (by rw [ruleOf, h]; rfl) rfl

/-- A modulus of R6 is an odd prime. -/
theorem prime_of_wf {c : CurveParams} (h : c.wf) : Nat.Prime c.P ∧ c.P ≠ 2 ∧ c.P % 2 = 1 := by
  obtain ⟨hP, h2, -⟩ := h
  have hodd := hP.eq_two_or_odd
  exact ⟨hP, h2, by omega⟩

theorem bitSize_of_wf {c : CurveParams} (h : c.wf) : c.bitSize = bitlen c.P := by
  obtain ⟨-, -, -, -, -, -, hbits, -⟩ := h
  exact hbits

/-- A string of the length DECOMPRESS asks for has a value below `2^W`, and room in `BUF` (R4). -/
theorem beInt_lt_of_fits {s : State} (hfits : s.params.Fits s.cfg.W) {rest : List Byte}
    (hlen : rest.length = byteLen s.params.bitSize) : beInt rest < 2 ^ s.cfg.W := by
  obtain ⟨hbytes, -, -⟩ := hfits
  refine (beInt_lt rest).trans_le ?_
  rw [pow_256_eq, hlen]
  exact Nat.pow_le_pow_right (by omega) hbytes

/-- Settles O35: the recovered pair is written as it is, since both numbers fit into a register. -/
theorem decompressRecoversPoint : Obligations.DecompressRecoversPoint :=
  fun s rd h rest hs hrd hwf hfits hlen hstring hh hsq => by
  obtain ⟨hP, -, hodd⟩ := prime_of_wf hwf
  have hrest : rest.length = byteLen s.params.bitSize := by
    have := s.length_bufString
    rw [hstring, List.length_cons] at this
    omega
  have hroom : s.len.toNat ≤ s.cfg.BUFSZ := by
    obtain ⟨⟨-, -, -, hBUF, -⟩, -⟩ := hs
    obtain ⟨hbytes, -, -⟩ := hfits
    omega
  have hPW : s.P < 2 ^ s.cfg.W := by
    obtain ⟨-, hPW, -⟩ := hfits
    exact hPW
  obtain ⟨r, hr, hroot, hdec⟩ := decompressBytes_point hP hh hrest hsq
  obtain ⟨hparity, hsquare, hbound⟩ := matchParity_spec (h := h) hodd hr
  have hyW : matchParity s.params.P r h < 2 ^ s.cfg.W := by
    have : s.params.P < 2 ^ s.cfg.W := hPW
    omega
  obtain ⟨hx, hy, hkeep⟩ := completes_setAff (a := { px := beInt rest, py := matchParity s.params.P r h }) hs hrd
    (beInt_lt_of_fits hfits hrest) hyW
  refine ⟨_, exec_decompress_point hrd hroom (hstring ▸ hdec), hx, ?_, ?_, ?_, hkeep⟩ <;> rw [hy]
  · exact hsquare.trans hroot
  · exact hparity
  · refine hbound.imp id fun ⟨hyP, hr0, hone⟩ => ⟨hyP, ?_, ?_⟩
    · obtain rfl | rfl := hh
      · simp at hone
      · rfl
    · rw [State.P, ← hroot, hr0]
      exact Nat.zero_mod _

/-- Settles O36: the cases of `decompressBytes` in the order of R163, after the bound of `LEN`. -/
theorem decompressDispatchesInOrder : Obligations.DecompressDispatchesInOrder := fun s rd hrd hwf => by
  obtain ⟨hP, -, -⟩ := prime_of_wf hwf
  by_cases hbuf : s.len.toNat > s.cfg.BUFSZ
  · rw [if_pos hbuf]
    exact faultsWith_bufLen (i := .decompress rd) hrd rfl hbuf
  rw [if_neg hbuf]
  have hroom : s.len.toNat ≤ s.cfg.BUFSZ := by omega
  by_cases hzero : s.len = 0
  · rw [if_pos hzero]
    exact decompress_faults hrd hroom (by rw [State.bufString_of_len_zero hzero]; rfl)
  rw [if_neg hzero]
  have hstring := State.bufString_eq_cons hzero
  by_cases h4 : s.buf.byteAt 0 = 0x04#8
  · rw [if_pos h4]
    rw [h4] at hstring
    have hrule : ruleOf s (.decompress rd) = .ok .uncomp := by rw [ruleOf, hstring, decompressBytes_uncompressed]; rfl
    exact ⟨_, exec_of_ruleOf_ok (i := .decompress rd) hrd (fun _ => hroom) hrule rfl,
      Effect.completesKeeping (e := .uncomp) s rfl⟩
  rw [if_neg h4]
  by_cases hheader : s.buf.byteAt 0 ≠ 0x02#8 ∧ s.buf.byteAt 0 ≠ 0x03#8
  · rw [if_pos hheader]
    exact decompress_faults hrd hroom (by rw [hstring]; exact decompressBytes_invalidHeader (not_or.2 hheader) h4)
  rw [if_neg hheader]
  have hh : s.buf.byteAt 0 = 0x02#8 ∨ s.buf.byteAt 0 = 0x03#8 := by
    rw [← not_or, not_not] at hheader
    exact hheader
  have hcount : s.bufString.tail.length + 1 = s.len.toNat := by
    rw [← s.length_bufString]
    conv_rhs => rw [hstring]
    rfl
  by_cases hlen : s.len.toNat ≠ 1 + byteLen s.params.bitSize
  · rw [if_pos hlen]
    exact decompress_faults hrd hroom (by rw [hstring]; exact decompressBytes_lengthMismatch hh (by omega))
  · rw [if_neg hlen]
    exact fun hsq => decompress_faults hrd hroom
      (by rw [hstring]; exact decompressBytes_notOnCurve hP hh (by omega) hsq)

/-! ### Round trip (R133) -/

/-- Two reduced numbers of one parity with one square modulo an odd prime are equal: the other root is `P - y`. -/
theorem eq_of_sq_eq_of_parity {P y z : Nat} (hP : Nat.Prime P) (hodd : P % 2 = 1) (hy : y < P) (hz : z ≤ P)
    (hsq : z ^ 2 % P = y ^ 2 % P) (hpar : z % 2 = y % 2) : z = y := by
  have : Fact P.Prime := ⟨hP⟩
  have hcast := (cast_eq_cast_iff P _ _).2 hsq
  push_cast at hcast
  obtain he | he := sq_eq_sq_iff_eq_or_eq_neg.1 hcast
  · have hmod := (cast_eq_cast_iff P _ _).1 he
    rw [Nat.mod_eq_of_lt hy] at hmod
    obtain hlt | rfl := hz.lt_or_eq
    · rwa [Nat.mod_eq_of_lt hlt] at hmod
    · rw [Nat.mod_self] at hmod
      omega
  · have hsum : ((z + y : Nat) : ZMod P) = 0 := by
      push_cast
      rw [he, neg_add_cancel]
    obtain ⟨k, hk⟩ := (ZMod.natCast_eq_zero_iff _ P).1 hsum
    obtain h0 | h1 | h2 : k = 0 ∨ k = 1 ∨ 2 ≤ k := by omega
    · rw [h0, mul_zero] at hk
      omega
    · rw [h1, mul_one] at hk
      omega
    · have := Nat.mul_le_mul_left P h2
      omega

/-- The header byte of a compressed point. -/
def headerOf (py : Nat) : Byte := if py % 2 = 1 then 0x03#8 else 0x02#8

theorem compressBytes_eq_cons (px py : Nat) : compressBytes px py = headerOf py :: beMinBytes px := rfl

theorem headerOf_cases (py : Nat) : (headerOf py = 0x02#8 ∨ headerOf py = 0x03#8) ∧ (headerOf py).toNat % 2 = py % 2 := by
  unfold headerOf
  split
  · exact ⟨.inr rfl, by simp [*]⟩
  · exact ⟨.inl rfl, by simp; omega⟩

/-- Decompressing the compressed form of a reduced point of the curve whose `x` has the full length gives the point. -/
theorem decompressBytes_compressBytes {c : CurveParams} (hwf : c.wf) {x y : Nat} (hy : y < c.P)
    (hcurve : y ^ 2 % c.P = (x ^ 3 + c.B) % c.P) (hlen : (bitlen x + 7) / 8 = byteLen c.bitSize) :
    decompressBytes c (compressBytes x y) = .ok (.point x y) := by
  obtain ⟨hP, -, hodd⟩ := prime_of_wf hwf
  obtain ⟨hh, hpar⟩ := headerOf_cases y
  have hx := beInt_beMinBytes x
  obtain ⟨r, hr, hroot, hdec⟩ := decompressBytes_point (rest := beMinBytes x) hP hh ((beMinBytes_length x).trans hlen)
    (by rw [hx]; exact ⟨y, by rw [← pow_two]; exact hcurve⟩)
  obtain ⟨hmpar, hmsq, hbound⟩ := matchParity_spec (h := headerOf y) hodd hr
  rw [hx] at hroot hdec
  rw [compressBytes_eq_cons, hdec, eq_of_sq_eq_of_parity hP hodd hy (by omega) (by rw [hmsq, hroot, hcurve])
    (hmpar.trans hpar)]

/-- Settles O37: COMPRESS leaves its string in `BUF`, and DECOMPRESS reads that string; only its length can be wrong. -/
theorem compressDecompressRoundTrip : Obligations.CompressDecompressRoundTrip :=
  fun s rd ra hs hrd hra hwf hxP hyP hcurve => by
  obtain ⟨hexec, hlen⟩ := exec_compress hs hra
  have hfit := compressBytes_fits hs ra.toNat (s.reg (ra.toNat + 1))
  refine ⟨_, hexec, ?_⟩
  set bs := compressBytes (s.reg ra.toNat) (s.reg (ra.toNat + 1)) with hbs
  set t := ((Effect.bytes bs).apply s).complete
  have hstring : t.bufString = bs := bufString_after_bytes s hlen
  have hroom : t.len.toNat ≤ t.cfg.BUFSZ := (len_after_bytes s hlen).trans_le hfit
  have hparams : t.params = s.params := rfl
  have hbits := bitSize_of_wf hwf
  have hxbits : bitlen (s.reg ra.toNat) ≤ bitlen s.params.P :=
    bitlen_le_iff.2 (lt_trans hxP (bitlen_le_iff.1 le_rfl))
  obtain ⟨hprime, -, -⟩ := prime_of_wf hwf
  have hPbits : 0 < bitlen s.params.P := by
    have hpos := hprime.pos
    by_contra h0
    have := bitlen_le_iff.1 (Nat.le_of_not_lt h0)
    omega
  by_cases hfull : 8 * (byteLen s.params.bitSize - 1) < bitlen (s.reg ra.toNat)
  · rw [if_pos hfull]
    have hcount : (bitlen (s.reg ra.toNat) + 7) / 8 = byteLen s.params.bitSize := by
      unfold byteLen at hfull ⊢
      omega
    have hdec : decompressBytes t.params t.bufString = .ok (.point (s.reg ra.toNat) (s.reg (ra.toNat + 1))) := by
      rw [hstring, hparams]
      exact decompressBytes_compressBytes hwf hyP hcurve hcount
    have hts : t.Sized := exec_sized hs hexec
    obtain ⟨hx, hy, hkeep⟩ := completes_setAff (s := t) (rd := rd) (a := { px := s.reg ra.toNat, py := s.reg (ra.toNat + 1) })
      hts hrd (hs.reg_lt _) (hs.reg_lt _)
    exact ⟨_, exec_decompress_point hrd hroom hdec, hx, hy, rfl⟩
  · rw [if_neg hfull]
    refine decompress_faults hrd hroom ?_
    rw [hstring, hparams, hbs, compressBytes_eq_cons]
    refine decompressBytes_lengthMismatch (headerOf_cases _).1 ?_
    rw [beMinBytes_length]
    unfold byteLen at hfull ⊢
    omega

end Sys2Proof.Machine
end

section
/-! PROOFS. The scalar loop on any pair of numbers (R120 to R122): only the value of the scalar counts, and the loop ends in a triple
with `Z ≡ 0` exactly when one of its unit operations is degenerate. Then the faults of every instruction (R162). -/

namespace Sys2Proof.Machine

/-! ### The value of a bit string (R120) -/

/-- The value of a bit string, first bit most significant. -/
def bitsValue (bits : List Bool) : Nat := bits.foldl (fun n b => 2 * n + b.toNat) 0

@[simp] theorem bitsValue_nil : bitsValue [] = 0 := rfl

theorem bitsValue_append_singleton (bits : List Bool) (b : Bool) : bitsValue (bits ++ [b]) = 2 * bitsValue bits + b.toNat := by
  simp [bitsValue]

theorem bitsValue_append (xs ys : List Bool) : bitsValue (xs ++ ys) = bitsValue xs * 2 ^ ys.length + bitsValue ys := by
  induction ys using List.reverseRecOn with
  | nil => simp
  | append_singleton ys y ih =>
    rw [← List.append_assoc, bitsValue_append_singleton, bitsValue_append_singleton, ih, List.length_append,
      List.length_singleton, pow_succ]
    ring

theorem length_byteBits (b : Byte) : (byteBits b).length = 8 := by simp [byteBits]

theorem bitsValue_byteBits (b : Byte) : bitsValue (byteBits b) = b.toNat := by
  revert b
  decide +kernel

/-- The scanned bits have the value of the byte string. -/
theorem bitsValue_scanBits (k : List Byte) : bitsValue (scanBits k) = beInt k := by
  induction k using List.reverseRecOn with
  | nil => rfl
  | append_singleton k b ih =>
    have hscan : scanBits (k ++ [b]) = scanBits k ++ byteBits b := by simp [scanBits]
    rw [hscan, bitsValue_append, ih, bitsValue_byteBits, length_byteBits, beInt_append, beInt_singleton,
      List.length_singleton, pow_one, show 2 ^ 8 = 256 from by norm_num]

/-! ### Only the value of the scalar counts (R120) -/

@[simp] theorem scalarLoop_nil (P : Nat) (base : Jac) : scalarLoop P base [] = none := rfl

/-- The loop on a bit string is the loop on the binary digits of its value: leading zeros leave "no point yet". -/
theorem scalarLoop_eq_bits (P : Nat) (base : Jac) (bits : List Bool) :
    scalarLoop P base bits = scalarLoop P base (Nat.bits (bitsValue bits)).reverse := by
  induction bits using List.reverseRecOn with
  | nil => simp
  | append_singleton bits b ih =>
    rw [scalarLoop_append, bitsValue_append_singleton, ih]
    by_cases h : bitsValue bits = 0 ∧ b = false
    · obtain ⟨hv, rfl⟩ := h
      simp [hv, scalarBit]
    · have hbit : 2 * bitsValue bits + b.toNat = Nat.bit b (bitsValue bits) := by cases b <;> simp [Nat.bit]
      have hb : bitsValue bits = 0 → b = true := fun hv => by simpa [hv] using h
      rw [hbit, Nat.bits_append_bit _ _ hb, List.reverse_cons, scalarLoop_append]

/-- Settles O33. -/
theorem scalarValueDecides : Obligations.ScalarValueDecides := fun P a k k' h => by
  have hloop : scalarLoop P (liftPt a) (scanBits k) = scalarLoop P (liftPt a) (scanBits k') := by
    rw [scalarLoop_eq_bits, scalarLoop_eq_bits P _ (scanBits k'), bitsValue_scanBits, bitsValue_scanBits, h]
  unfold scalarMult
  rw [hloop]

theorem scalarBit_some_isSome (P : Nat) (base a : Jac) (b : Bool) : (scalarBit P base (some a) b).isSome = true := by
  cases b <;> rfl

/-- The loop leaves no point exactly for the scalar 0. -/
theorem scalarLoop_eq_none_iff (P : Nat) (base : Jac) (bits : List Bool) : scalarLoop P base bits = none ↔ bitsValue bits = 0 := by
  induction bits using List.reverseRecOn with
  | nil => simp
  | append_singleton bits b ih =>
    rw [scalarLoop_append, bitsValue_append_singleton]
    cases hacc : scalarLoop P base bits with
    | none =>
      have hv := ih.1 hacc
      cases b <;> simp [scalarBit, hv]
    | some a =>
      have hv : bitsValue bits ≠ 0 := fun h => by simp [ih.2 h] at hacc
      refine iff_of_false (fun h => ?_) (by omega)
      simpa [h] using scalarBit_some_isSome P base a b

/-! ### The unit operations of the loop (R122, R189) -/

/-- The unit operations of one bit. -/
def stepOps (P : Nat) (base : Jac) : Option Jac → Bool → List ScalarOp
  | none, _ => []
  | some a, bit => .dbl a :: if bit then [.add (jdbl P a) base] else []

theorem scalarOps_cons (P : Nat) (base : Jac) (acc : Option Jac) (bit : Bool) (rest : List Bool) :
    scalarOps P base acc (bit :: rest) = stepOps P base acc bit ++ scalarOps P base (scalarBit P base acc bit) rest := by
  cases acc <;> rfl

/-- The unit operations of a longer scalar are those of its last bit after those of the others. -/
theorem scalarOps_append_singleton (P : Nat) (base : Jac) (acc : Option Jac) (bits : List Bool) (b : Bool) :
    scalarOps P base acc (bits ++ [b]) =
      scalarOps P base acc bits ++ stepOps P base (bits.foldl (scalarBit P base) acc) b := by
  induction bits generalizing acc with
  | nil => cases acc <;> simp [scalarOps, stepOps]
  | cons c bits ih => rw [List.cons_append, scalarOps_cons, ih, scalarOps_cons, List.append_assoc, List.foldl_cons]

/-- The test for a degenerate JAdd compares the first coordinates with the denominators cleared. -/
theorem degenerate_add_iff {P : Nat} (hP : 0 < P) (a b : Jac) :
    ScalarOp.degenerate P (.add a b) = true ↔ a.X * b.Z ^ 2 % P = b.X * a.Z ^ 2 % P := by
  rw [ScalarOp.degenerate, beq_iff_eq, subP_eq_zero hP, eq_comm, mulP, mulP, mulP, mulP, Nat.mod_mod, Nat.mod_mod,
    Nat.mul_mod_mod, Nat.mul_mod_mod, pow_two, pow_two]

theorem degenerate_dbl_iff (P : Nat) (a : Jac) : ScalarOp.degenerate P (.dbl a) = true ↔ a.Y % P = 0 := by
  rw [ScalarOp.degenerate, beq_iff_eq]

/-- An accumulator that has run into a degenerate operation: its `Z` is 0 modulo `P`. -/
def AtInfinity (P : Nat) (acc : Option Jac) : Prop := ∃ j, acc = some j ∧ j.Z % P = 0

theorem atInfinity_some (P : Nat) (j : Jac) : AtInfinity P (some j) ↔ j.Z % P = 0 :=
  ⟨fun ⟨_, h, hZ⟩ => Option.some.inj h ▸ hZ, fun h => ⟨j, rfl, h⟩⟩

theorem not_atInfinity_none (P : Nat) : ¬ AtInfinity P none := nofun

/-- One bit: the new `Z` is 0 exactly when the old one was, or an operation of the bit is degenerate. -/
theorem atInfinity_scalarBit {P : Nat} (hP : Nat.Prime P) (h2 : P ≠ 2) {base : Jac} (hbase : base.Z % P ≠ 0)
    (acc : Option Jac) (b : Bool) :
    AtInfinity P (scalarBit P base acc b) ↔
      AtInfinity P acc ∨ (stepOps P base acc b).any (ScalarOp.degenerate P) = true := by
  cases acc with
  | none => cases b <;> simp [scalarBit, stepOps, atInfinity_some, not_atInfinity_none, hbase]
  | some a =>
    obtain ⟨-, -, hdlt⟩ := jdbl_lt hP.pos a
    have hdbl : (jdbl P a).Z % P = 0 ↔ a.Z % P = 0 ∨ ScalarOp.degenerate P (.dbl a) = true := by
      rw [Nat.mod_eq_of_lt hdlt, jdbl_Z_eq_zero_iff hP h2, degenerate_dbl_iff, or_comm]
    cases b with
    | false => simpa [scalarBit, stepOps, atInfinity_some] using hdbl
    | true =>
      obtain ⟨-, -, halt⟩ := jadd_lt hP.pos (jdbl P a) base
      have hadd : (jadd P (jdbl P a) base).Z % P = 0 ↔
          (jdbl P a).Z % P = 0 ∨ ScalarOp.degenerate P (.add (jdbl P a) base) = true := by
        rw [Nat.mod_eq_of_lt halt, jadd_Z_eq_zero_iff hP, degenerate_add_iff hP.pos, or_iff_right hbase]
      rw [hdbl] at hadd
      simpa [scalarBit, stepOps, atInfinity_some, or_assoc] using hadd

/-- The loop ends at infinity exactly when one of its unit operations is degenerate (R122 item 1). -/
theorem atInfinity_scalarLoop {P : Nat} (hP : Nat.Prime P) (h2 : P ≠ 2) {base : Jac} (hbase : base.Z % P ≠ 0)
    (bits : List Bool) :
    AtInfinity P (scalarLoop P base bits) ↔ (scalarOps P base none bits).any (ScalarOp.degenerate P) = true := by
  induction bits using List.reverseRecOn with
  | nil => simp [not_atInfinity_none, scalarOps]
  | append_singleton bits b ih =>
    rw [scalarLoop_append, atInfinity_scalarBit hP h2 hbase, ih, scalarOps_append_singleton, List.any_append,
      Bool.or_eq_true]
    rfl

/-! ### The scalar multiple (R120) -/

theorem scalarMult_of_none {P : Nat} {a : Aff} {k : List Byte} (h : scalarLoop P (liftPt a) (scanBits k) = none) :
    scalarMult P a k = .ok none := by
  rw [scalarMult, h]

theorem scalarMult_of_some {P : Nat} {a : Aff} {k : List Byte} {acc : Jac}
    (h : scalarLoop P (liftPt a) (scanBits k) = some acc) : scalarMult P a k = (lowerPt P acc).map some := by
  rw [scalarMult, h]

/-- The scalar 0 gives no point, for every modulus. -/
theorem scalarMult_zero {P : Nat} {a : Aff} {k : List Byte} (h : beInt k = 0) : scalarMult P a k = .ok none :=
  scalarMult_of_none ((scalarLoop_eq_none_iff P _ _).2 ((bitsValue_scanBits k).trans h))

theorem scalarMult_error {P : Nat} (hP : 1 < P) {a : Aff} {k : List Byte}
    (h : AtInfinity P (scalarLoop P (liftPt a) (scanBits k))) : scalarMult P a k = .error .notInvertible := by
  obtain ⟨acc, hacc, hZ⟩ := h
  rw [scalarMult_of_some hacc, lowerPt_error (by rw [hZ, Nat.gcd_zero_left]; omega)]
  rfl

/-- What the result of a scalar multiplication is, of the last accumulator: nothing, or its lowering (R120). -/
def LowersTo (P : Nat) (acc : Option Jac) (r : Option Aff) : Prop :=
  match acc, r with
  | none, none => True
  | some j, some c => c.px < P ∧ c.py < P ∧ c.px * j.Z ^ 2 % P = j.X % P ∧ c.py * j.Z ^ 3 % P = j.Y % P
  | _, _ => False

/-- For a prime the multiplication completes with the lowered accumulator where that is not at infinity. -/
theorem scalarMult_ok {P : Nat} (hP : Nat.Prime P) {a : Aff} {k : List Byte}
    (h : ¬ AtInfinity P (scalarLoop P (liftPt a) (scanBits k))) :
    ∃ r, scalarMult P a k = .ok r ∧ LowersTo P (scalarLoop P (liftPt a) (scanBits k)) r := by
  cases hacc : scalarLoop P (liftPt a) (scanBits k) with
  | none => exact ⟨none, scalarMult_of_none hacc, trivial⟩
  | some acc =>
    rw [hacc, atInfinity_some] at h
    obtain ⟨c, hc, hxlt, hylt, hx, hy⟩ := lowerPt_of_Z hP (mt (cast_eq_zero_iff P acc.Z).1 h)
    refine ⟨some c, by rw [scalarMult_of_some hacc, hc]; rfl, hxlt, hylt, ?_, ?_⟩
    · exact (cast_eq_cast_iff P _ _).1 (by exact_mod_cast hx)
    · exact (cast_eq_cast_iff P _ _).1 (by exact_mod_cast hy)

/-! ### SMUL and SBMUL (R120, R121, R122) -/

/-- Completing a write of a scalar multiple. -/
theorem completes_multiple {s : State} (hs : s.Sized) {rd : RegNum} (hrd : pairOk rd = true) (r : Option Aff) :
    CompletesKeeping s ((Effect.multiple rd r).apply s).complete [rd.toNat, rd.toNat + 1]
      { s.status.ended with inf := r.isNone } ∧
    (∀ a, r = some a → a.px < 2 ^ s.cfg.W → a.py < 2 ^ s.cfg.W →
      ((Effect.multiple rd r).apply s).complete.reg rd.toNat = a.px ∧
        ((Effect.multiple rd r).apply s).complete.reg (rd.toNat + 1) = a.py) ∧
    (r = none → ((Effect.multiple rd r).apply s).complete.reg rd.toNat = 0 ∧
      ((Effect.multiple rd r).apply s).complete.reg (rd.toNat + 1) = 0) := by
  refine ⟨?_, ?_, ?_⟩
  · have hkeep := Effect.completesKeeping (e := .multiple rd r) s rfl
    cases r <;> exact hkeep
  · rintro a rfl hx hy
    obtain ⟨hregx, hregy, -⟩ := State.setAff_spec hs hrd hx hy
    exact ⟨hregx, hregy⟩
  · rintro rfl
    obtain ⟨hregx, hregy, -⟩ :=
      State.setAff_spec (a := { px := 0, py := 0 }) hs hrd (Nat.two_pow_pos _) (Nat.two_pow_pos _)
    exact ⟨hregx, hregy⟩

/-- Settles O27: neither command looks at its point when the scalar is 0. -/
theorem zeroScalarGivesInfinity : Obligations.ZeroScalarGivesInfinity := fun s rd ra hs hrd hra hlen hzero => by
  obtain ⟨hkeep, -, hnone⟩ := completes_multiple hs hrd none
  obtain ⟨hx, hy⟩ := hnone rfl
  refine ⟨((Effect.multiple rd none).apply s).complete, ?_, ?_, hx, hy, hkeep⟩
  · exact exec_of_ruleOf_ok (i := .smul rd ra) (by simp [Instr.wf, hrd, hra]) (fun _ => hlen)
      (by rw [ruleOf, scalarMult_zero hzero]; rfl) rfl
  · exact exec_of_ruleOf_ok (i := .sbmul rd) hrd (fun _ => hlen) (by rw [ruleOf, scalarMult_zero hzero]; rfl) rfl

/-- How a scalar multiplication of the pair `a` into `rd` ends (R122 item 1): the statement that SMUL and SBMUL share. -/
theorem scalar_ends {s : State} {i : Instr} {rd : RegNum} {a : Aff} (hs : s.Sized) (hwf : i.wf = true) (hrd : pairOk rd = true)
    (hbuf : readsBuf i = true) (hrule : ruleOf s i = (scalarMult s.P a s.bufString).map (.multiple rd)) (hP : Nat.Prime s.P)
    (h2 : s.P ≠ 2) (hW : s.P ≤ 2 ^ s.cfg.W) :
    if s.len.toNat > s.cfg.BUFSZ then FaultsWith (exec i s) s .bufLen
    else if (scalarOps s.P (liftPt a) none (scanBits s.bufString)).any (ScalarOp.degenerate s.P) = true then
      FaultsWith (exec i s) s .notInvertible
    else
      ∃ t, exec i s = .next t ∧ t.reg rd.toNat < s.P ∧ t.reg (rd.toNat + 1) < s.P ∧
        (∀ acc, scalarLoop s.P (liftPt a) (scanBits s.bufString) = some acc →
          t.reg rd.toNat * acc.Z ^ 2 % s.P = acc.X % s.P ∧ t.reg (rd.toNat + 1) * acc.Z ^ 3 % s.P = acc.Y % s.P) ∧
        (scalarLoop s.P (liftPt a) (scanBits s.bufString) = none → t.reg rd.toNat = 0 ∧ t.reg (rd.toNat + 1) = 0) ∧
        CompletesKeeping s t [rd.toNat, rd.toNat + 1]
          { s.status.ended with inf := decide (beInt s.bufString = 0) } := by
  by_cases hlen : s.len.toNat > s.cfg.BUFSZ
  · rw [if_pos hlen]
    exact faultsWith_bufLen hwf hbuf hlen
  rw [if_neg hlen]
  have hroom : readsBuf i = true → s.len.toNat ≤ s.cfg.BUFSZ := fun _ => by omega
  have hbase : (liftPt a).Z % s.P ≠ 0 := by
    show 1 % s.P ≠ 0
    rw [Nat.mod_eq_of_lt hP.one_lt]
    exact one_ne_zero
  have hinf := atInfinity_scalarLoop hP h2 hbase (scanBits s.bufString)
  by_cases hdeg : (scalarOps s.P (liftPt a) none (scanBits s.bufString)).any (ScalarOp.degenerate s.P) = true
  · rw [if_pos hdeg]
    exact faultsWith_of_ruleOf_error hwf hroom (by rw [hrule, scalarMult_error hP.one_lt (hinf.2 hdeg)]; rfl)
  rw [if_neg hdeg]
  obtain ⟨r, hr, hlow⟩ := scalarMult_ok hP (mt hinf.1 hdeg)
  obtain ⟨hkeep, hsome, hnone⟩ := completes_multiple hs hrd r
  have hzero := scalarLoop_eq_none_iff s.P (liftPt a) (scanBits s.bufString)
  rw [bitsValue_scanBits] at hzero
  refine ⟨_, exec_of_ruleOf_ok hwf hroom (by rw [hrule, hr]; rfl) rfl, ?_⟩
  cases hacc : scalarLoop s.P (liftPt a) (scanBits s.bufString) with
  | none =>
    obtain rfl : r = none := by rw [hacc] at hlow; cases r with | none => rfl | some c => exact hlow.elim
    obtain ⟨hx, hy⟩ := hnone rfl
    rw [decide_eq_true (hzero.1 hacc), hx, hy]
    exact ⟨hP.pos, hP.pos, nofun, fun _ => ⟨rfl, rfl⟩, hkeep⟩
  | some acc =>
    obtain ⟨c, rfl⟩ : ∃ c, r = some c := by
      rw [hacc] at hlow; cases r with | none => exact hlow.elim | some c => exact ⟨c, rfl⟩
    rw [hacc] at hlow hzero
    obtain ⟨hxlt, hylt, hxeq, hyeq⟩ := hlow
    obtain ⟨hx, hy⟩ := hsome c rfl (hxlt.trans_le hW) (hylt.trans_le hW)
    rw [decide_eq_false (mt hzero.2 nofun), hx, hy]
    exact ⟨hxlt, hylt, fun acc' h => Option.some.inj h ▸ ⟨hxeq, hyeq⟩, nofun, hkeep⟩

/-- Settles O28: the pair of SMUL is the one at `ra`. -/
theorem smulEndsByDegeneracy : Obligations.SmulEndsByDegeneracy := fun _ rd ra hs hrd hra hP h2 hW =>
  scalar_ends (i := .smul rd ra) hs (by simp [Instr.wf, hrd, hra]) hrd rfl rfl hP h2 hW

/-- Settles O29: the pair of SBMUL is the base point. -/
theorem sbmulEndsByDegeneracy : Obligations.SbmulEndsByDegeneracy := fun _ rd hs hrd hP h2 hW =>
  scalar_ends (i := .sbmul rd) hs hrd hrd rfl rfl hP h2 hW

/-- Settles O30: the two instructions have the same range check, bound and rule. -/
theorem sbmulIsSmulOfBasePoint : Obligations.SbmulIsSmulOfBasePoint := fun s rd ra hra hx hy => by
  have hwf : (Instr.smul rd ra).wf = (Instr.sbmul rd).wf := by simp [Instr.wf, hra]
  have haff : s.aff ra = basePoint s.params := by rw [State.aff, hx, hy, basePoint]
  rw [exec_eq_finish, exec_eq_finish, outcome_of_readsBuf s rfl, outcome_of_readsBuf s rfl, hwf, ruleOf, ruleOf, haff]

/-! ### The faults of each instruction (R162) -/

/-- A fault comes from the range check, from the bound of `LEN`, or from the rule. -/
theorem outcome_eq_error {i : Instr} {s : State} {c : Cause} (h : outcome i s = .error c) :
    (i.wf = false ∧ c = .illegal) ∨ (readsBuf i = true ∧ s.cfg.BUFSZ < s.len.toNat ∧ c = .bufLen) ∨
      ((readsBuf i = true → s.len.toNat ≤ s.cfg.BUFSZ) ∧ ruleOf s i = .error c) := by
  unfold outcome at h
  split at h
  · cases h
    exact .inl ⟨‹_›, rfl⟩
  · split at h
    next hbuf =>
      cases h
      exact .inr (.inl ⟨hbuf.1, hbuf.2, rfl⟩)
    next hbuf => exact .inr (.inr ⟨fun hr => Nat.le_of_not_lt fun hlt => hbuf ⟨hr, hlt⟩, h⟩)

/-- A lowering raises one cause, where `Z` is 0 modulo the prime. -/
theorem lowerPt_eq_error {P : Nat} (hP : Nat.Prime P) {j : Jac} {c : Cause} (h : lowerPt P j = .error c) :
    c = .notInvertible ∧ j.Z % P = 0 := by
  by_cases hZ : (j.Z : ZMod P) = 0
  · have hZ0 := (cast_eq_zero_iff P j.Z).1 hZ
    rw [lowerPt_error (by rw [hZ0, Nat.gcd_zero_left]; exact hP.one_lt.ne')] at h
    cases h
    exact ⟨rfl, hZ0⟩
  · obtain ⟨a, ha, -⟩ := lowerPt_of_Z hP hZ
    rw [ha] at h
    cases h

theorem invP_eq_error {P a : Nat} (hP : Nat.Prime P) {c : Cause} (h : invP P a = .error c) :
    c = .notInvertible ∧ a % P = 0 := by
  obtain ⟨-, u, hu, -⟩ | ⟨-, herr⟩ := invP_cases (a := a) hP.pos
  · rw [hu] at h
    cases h
  · have hc : c = .notInvertible := Except.error.inj (h.symm.trans herr)
    exact ⟨hc, (invP_error_iff_of_prime hP).1 herr⟩

theorem affAdd_eq_error {P : Nat} (hP : Nat.Prime P) {a b : Aff} {c : Cause} (h : affAdd P a b = .error c) :
    c = .notInvertible ∧ a.px % P = b.px % P := by
  obtain ⟨rfl, -⟩ := lowerPt_eq_error hP h
  refine ⟨rfl, by_contra fun hne => ?_⟩
  obtain ⟨r, l, hr, -⟩ := affAdd_chord hP hne
  rw [hr] at h
  cases h

theorem affDbl_eq_error {P : Nat} (hP : Nat.Prime P) (h2 : P ≠ 2) {a : Aff} {c : Cause} (h : affDbl P a = .error c) :
    c = .notInvertible ∧ a.py % P = 0 := by
  obtain ⟨rfl, -⟩ := lowerPt_eq_error hP h
  refine ⟨rfl, by_contra fun hne => ?_⟩
  obtain ⟨r, l, hr, -⟩ := affDbl_tangent hP h2 hne
  rw [hr] at h
  cases h

theorem scalarMult_eq_error {P : Nat} (hP : Nat.Prime P) {a : Aff} {k : List Byte} {c : Cause}
    (h : scalarMult P a k = .error c) : c = .notInvertible := by
  by_cases hinf : AtInfinity P (scalarLoop P (liftPt a) (scanBits k))
  · rw [scalarMult_error hP.one_lt hinf] at h
    cases h
    rfl
  · obtain ⟨r, hr, -⟩ := scalarMult_ok hP hinf
    rw [hr] at h
    cases h

/-- DECOMPRESS raises three causes of its own; `Internal` is not among them for a prime (R144, R163). -/
theorem decompressBytes_eq_error {p : CurveParams} (hP : Nat.Prime p.P) {k : List Byte} {c : Cause}
    (h : decompressBytes p k = .error c) : c = .invalidHeader ∨ c = .lengthMismatch ∨ c = .notOnCurve := by
  cases k with
  | nil => cases h; exact .inl rfl
  | cons b rest =>
    by_cases hh : b = 0x02#8 ∨ b = 0x03#8
    · by_cases hlen : rest.length = byteLen p.bitSize
      · by_cases hsq : IsSquareMod p.P (beInt rest ^ 3 + p.B)
        · obtain ⟨r, -, -, hdec⟩ := decompressBytes_point hP hh hlen hsq
          rw [hdec] at h
          cases h
        · rw [decompressBytes_notOnCurve hP hh hlen hsq] at h
          cases h
          exact .inr (.inr rfl)
      · rw [decompressBytes_lengthMismatch hh hlen] at h
        cases h
        exact .inr (.inl rfl)
    · by_cases h4 : b = 0x04#8
      · rw [h4, decompressBytes_uncompressed] at h
        cases h
      · rw [decompressBytes_invalidHeader hh h4] at h
        cases h
        exact .inl rfl

/-- Settles O41: the cause that the rule of each instruction can raise, beside the bound of `LEN`. -/
theorem faultsOnlyAsListed : Obligations.FaultsOnlyAsListed := fun i s t hwf hparams hs h ht => by
  obtain ⟨hP, h2, -⟩ := prime_of_wf hparams
  obtain ⟨c, hc, rfl⟩ := exec_faulted h hs ht
  obtain ⟨hill, -⟩ | ⟨hbuf, hlen, rfl⟩ | ⟨hroom, hrule⟩ := outcome_eq_error hc
  · rw [hwf] at hill
    cases hill
  · cases i with
    | smul | sbmul | decompress => exact .inl ⟨rfl, hlen⟩
    | _ => cases hbuf
  · cases i with
    | modmul | legendre | lift | jadd | jdbl | oncurve | compress | ldparam => cases hrule
    | sqrt rd ra =>
      obtain ⟨r, found, hr, -⟩ := sqrtP_spec hP (s.single ra)
      have hroot := Except.map_eq_error hrule
      rw [State.P, hr] at hroot
      cases hroot
    | modinv rd ra =>
      obtain ⟨rfl, h0⟩ := invP_eq_error hP (Except.map_eq_error hrule)
      exact ⟨rfl, h0⟩
    | lower rd ra =>
      obtain ⟨rfl, h0⟩ := lowerPt_eq_error hP (Except.map_eq_error hrule)
      exact ⟨rfl, h0⟩
    | padd rd ra rb =>
      obtain ⟨rfl, h0⟩ := affAdd_eq_error hP (Except.map_eq_error hrule)
      exact ⟨rfl, h0⟩
    | pdbl rd ra =>
      obtain ⟨rfl, h0⟩ := affDbl_eq_error hP h2 (Except.map_eq_error hrule)
      exact ⟨rfl, h0⟩
    | smul rd ra =>
      obtain rfl := scalarMult_eq_error hP (Except.map_eq_error hrule)
      exact .inr ⟨rfl, hroom rfl⟩
    | sbmul rd =>
      obtain rfl := scalarMult_eq_error hP (Except.map_eq_error hrule)
      exact .inr ⟨rfl, hroom rfl⟩
    | decompress rd =>
      obtain rfl | rfl | rfl := decompressBytes_eq_error hP (Except.map_eq_error hrule)
      · exact .inr ⟨hroom rfl, .inl rfl⟩
      · exact .inr ⟨hroom rfl, .inr (.inl rfl)⟩
      · exact .inr ⟨hroom rfl, .inr (.inr rfl)⟩

end Sys2Proof.Machine
end

section
/-! PROOFS. The group of the curve (R92): JADD and JDBL add and double points in Jacobian coordinates, so PADD and PDBL do in affine
ones (R103, R105 to R107), and SMUL is the scalar multiple (R122 item 2). -/

namespace Sys2Proof.Machine

open WeierstrassCurve.Affine

section
variable {p : Nat} [Fact p.Prime] {B : Nat}

/-! ### The group law on coordinates -/

@[simp] theorem negY_curveMod (p B : Nat) (x y : ZMod p) : (curveMod p B).negY x y = -y := by simp [negY, curveMod]

@[simp] theorem addX_curveMod (p B : Nat) (x₁ x₂ l : ZMod p) : (curveMod p B).addX x₁ x₂ l = l ^ 2 - x₁ - x₂ := by
  simp [addX, curveMod]

@[simp] theorem addY_curveMod (p B : Nat) (x₁ x₂ y₁ l : ZMod p) :
    (curveMod p B).addY x₁ x₂ y₁ l = l * (x₁ - (l ^ 2 - x₁ - x₂)) - y₁ := by
  rw [addY, negAddY, negY_curveMod, addX_curveMod]
  ring

/-- The sum of points with different first coordinates, by the slope of their chord. -/
theorem point_add_of_X_ne {x₁ x₂ y₁ y₂ : ZMod p} {h₁ : (curveMod p B).Nonsingular x₁ y₁}
    {h₂ : (curveMod p B).Nonsingular x₂ y₂} (hx : x₁ ≠ x₂) : ∃ l h, l * (x₁ - x₂) = y₁ - y₂ ∧
      Point.some x₁ y₁ h₁ + Point.some x₂ y₂ h₂ =
        Point.some (W' := curveMod p B) (l ^ 2 - x₁ - x₂) (l * (x₁ - (l ^ 2 - x₁ - x₂)) - y₁) h := by
  have hadd := Point.add_of_X_ne (h₁ := h₁) (h₂ := h₂) hx
  simp only [addX_curveMod, addY_curveMod, slope_of_X_ne hx] at hadd
  exact ⟨(y₁ - y₂) / (x₁ - x₂), _, div_mul_cancel₀ _ (sub_ne_zero.2 hx), hadd⟩

/-- The double of a point that is not its own negative, by the slope of its tangent. -/
theorem point_double_of_Y_ne {x y : ZMod p} {h : (curveMod p B).Nonsingular x y} (hy : y ≠ -y) :
    ∃ l h', l * (2 * y) = 3 * x ^ 2 ∧
      Point.some x y h + Point.some x y h =
        Point.some (W' := curveMod p B) (l ^ 2 - x - x) (l * (x - (l ^ 2 - x - x)) - y) h' := by
  have hne : y ≠ (curveMod p B).negY x y := by rwa [negY_curveMod]
  have h2y : 2 * y ≠ 0 := fun h0 => hy (by linear_combination h0)
  have hslope : (curveMod p B).slope x x y y = 3 * x ^ 2 / (2 * y) := by
    rw [slope_of_Y_ne rfl hne, negY_curveMod]
    simp only [curveMod]
    congr 1 <;> ring
  have hadd := Point.add_self_of_Y_ne (h₁ := h) hne
  simp only [addX_curveMod, addY_curveMod, hslope] at hadd
  exact ⟨3 * x ^ 2 / (2 * y), _, div_mul_cancel₀ _ h2y, hadd⟩

/-- A point with a double other than 0 is not its own negative, and conversely. -/
theorem point_double_ne_zero_iff {x y : ZMod p} {h : (curveMod p B).Nonsingular x y} :
    Point.some x y h + Point.some x y h ≠ 0 ↔ y ≠ -y := by
  constructor
  · exact fun hne hy => hne (Point.add_self_of_Y_eq (by rwa [negY_curveMod]))
  · intro hy
    obtain ⟨l, h', -, hadd⟩ := point_double_of_Y_ne (h := h) hy
    rw [hadd]
    exact Point.some_ne_zero h'

/-! ### Jacobian triples as points (R12) -/

/-- The triple `j` stands for the point `A` of the curve: `A = (X / Z², Y / Z³)`. -/
def Jac.IsPoint {p B : Nat} (j : Jac) (A : (curveMod p B).Point) : Prop :=
  (j.Z : ZMod p) ≠ 0 ∧ ∃ x y h, A = Point.some (W' := curveMod p B) x y h ∧
    (j.X : ZMod p) = x * (j.Z : ZMod p) ^ 2 ∧ (j.Y : ZMod p) = y * (j.Z : ZMod p) ^ 3

theorem Jac.IsPoint.ne_zero {p B : Nat} {j : Jac} {A : (curveMod p B).Point} (h : j.IsPoint A) : A ≠ 0 := by
  obtain ⟨-, x, y, hA, rfl, -⟩ := h
  exact Point.some_ne_zero hA

/-- Lifting a pair that stands for a point (R100). -/
theorem isPoint_liftPt {a : Aff} {A : (curveMod p B).Point} (h : a.IsPoint A) : (liftPt a).IsPoint A := by
  obtain ⟨hA, rfl⟩ := h
  exact ⟨by simp [liftPt], _, _, hA, rfl, by simp [liftPt], by simp [liftPt]⟩

/-- Lowering a triple that stands for a point (R101). -/
theorem lowerPt_isPoint {j : Jac} {A : (curveMod p B).Point} (h : j.IsPoint A) :
    ∃ a, lowerPt p j = .ok a ∧ a.px < p ∧ a.py < p ∧ a.IsPoint A := by
  obtain ⟨hZ, x, y, hA, rfl, hX, hY⟩ := h
  obtain ⟨a, ha, hxlt, hylt, hx, hy⟩ := lowerPt_of_Z Fact.out hZ
  obtain rfl : (a.px : ZMod p) = x := mul_right_cancel₀ (pow_ne_zero 2 hZ) (hx.trans hX)
  obtain rfl : (a.py : ZMod p) = y := mul_right_cancel₀ (pow_ne_zero 3 hZ) (hy.trans hY)
  exact ⟨a, ha, hxlt, hylt, hA, rfl⟩

/-- First coordinates that agree with the denominators cleared belong to equal or opposite points. -/
theorem Jac.IsPoint.H_eq_zero_iff {j q : Jac} {A C : (curveMod p B).Point} (hj : j.IsPoint A) (hq : q.IsPoint C) :
    j.X * q.Z ^ 2 % p = q.X * j.Z ^ 2 % p ↔ A = C ∨ A = -C := by
  obtain ⟨hjZ, x₁, y₁, h₁, rfl, hjX, -⟩ := hj
  obtain ⟨hqZ, x₂, y₂, h₂, rfl, hqX, -⟩ := hq
  rw [← Point.X_eq_iff, ← cast_eq_cast_iff]
  push_cast
  rw [hjX, hqX]
  have hunit : (j.Z : ZMod p) ^ 2 * (q.Z : ZMod p) ^ 2 ≠ 0 := mul_ne_zero (pow_ne_zero 2 hjZ) (pow_ne_zero 2 hqZ)
  constructor
  · exact fun h => mul_right_cancel₀ hunit (by linear_combination h)
  · intro h
    rw [h]
    ring

/-- JADD adds points that are neither equal nor opposite (R103 item 1). -/
theorem jadd_isPoint {j q : Jac} {A C : (curveMod p B).Point} (hj : j.IsPoint A) (hq : q.IsPoint C) (hne : A ≠ C)
    (hneg : A ≠ -C) : (jadd p j q).IsPoint (A + C) := by
  obtain ⟨hjZ, x₁, y₁, h₁, rfl, hjX, hjY⟩ := hj
  obtain ⟨hqZ, x₂, y₂, h₂, rfl, hqX, hqY⟩ := hq
  have hx : x₁ ≠ x₂ := fun h => (Point.X_eq_iff.1 h).elim hne hneg
  obtain ⟨l, h, hl, hadd⟩ := point_add_of_X_ne (h₁ := h₁) (h₂ := h₂) hx
  obtain rfl : y₂ = y₁ - l * (x₁ - x₂) := by linear_combination hl
  obtain ⟨hX, hY, hZ⟩ := jadd_cast (Fact.out : p.Prime).pos j q
  rw [hjX, hqX] at hZ
  rw [hjX, hqX, hjY, hqY] at hX hY
  have hZ' : ((jadd p j q).Z : ZMod p) = (x₂ - x₁) * ((j.Z : ZMod p) * q.Z) ^ 3 := by rw [hZ]; ring
  refine ⟨?_, _, _, h, hadd, ?_, ?_⟩
  · rw [hZ']
    exact mul_ne_zero (sub_ne_zero.2 hx.symm) (pow_ne_zero 3 (mul_ne_zero hjZ hqZ))
  · rw [hX, hZ']
    ring
  · rw [hY, hZ']
    ring

/-- JDBL doubles points that are not their own negatives (R105 item 1). -/
theorem jdbl_isPoint {j : Jac} {A : (curveMod p B).Point} (hj : j.IsPoint A) (hne : A + A ≠ 0) : (jdbl p j).IsPoint (A + A) := by
  obtain ⟨hjZ, x, y, hA, rfl, hjX, hjY⟩ := hj
  have hy := point_double_ne_zero_iff.1 hne
  obtain ⟨l, h, hl, hadd⟩ := point_double_of_Y_ne (h := hA) hy
  have h2y : 2 * y ≠ 0 := fun h0 => hy (by linear_combination h0)
  obtain ⟨hX, hY, hZ⟩ := jdbl_cast (Fact.out : p.Prime).pos j
  have hE : 3 * (x * (j.Z : ZMod p) ^ 2) ^ 2 = l * (2 * y) * (j.Z : ZMod p) ^ 4 := by rw [hl]; ring
  rw [hjX, hjY, hE] at hX hY
  have hZ' : ((jdbl p j).Z : ZMod p) = 2 * y * (j.Z : ZMod p) ^ 4 := by rw [hZ, hjY]; ring
  refine ⟨?_, _, _, h, hadd, ?_, ?_⟩
  · rw [hZ']
    exact mul_ne_zero h2y (pow_ne_zero 4 hjZ)
  · rw [hX, hZ']
    ring
  · rw [hY, hZ']
    ring

/-! ### PADD and PDBL (R106, R107) -/

theorem affAdd_isPoint {a b : Aff} {A C : (curveMod p B).Point} (ha : a.IsPoint A) (hb : b.IsPoint C) (hne : a.px % p ≠ b.px % p) :
    ∃ c, affAdd p a b = .ok c ∧ c.px < p ∧ c.py < p ∧ c.IsPoint (A + C) := by
  have hH := (isPoint_liftPt ha).H_eq_zero_iff (isPoint_liftPt hb)
  have hAC := mt hH.2 (by simpa [liftPt] using hne)
  rw [not_or] at hAC
  exact lowerPt_isPoint (jadd_isPoint (isPoint_liftPt ha) (isPoint_liftPt hb) hAC.1 hAC.2)

/-- For an odd prime a `y` not divisible by it is not its own negative. -/
theorem double_ne_zero_of_Y {a : Aff} {A : (curveMod p B).Point} (h2 : p ≠ 2) (ha : a.IsPoint A) (hy : a.py % p ≠ 0) :
    A + A ≠ 0 := by
  obtain ⟨hA, rfl⟩ := ha
  have htwo : (2 : ZMod p) ≠ 0 := two_ne_zero_of_odd_prime Fact.out h2
  have hy0 : (a.py : ZMod p) ≠ 0 := mt (cast_eq_zero_iff p a.py).1 hy
  exact point_double_ne_zero_iff.2 fun h => mul_ne_zero htwo hy0 (by linear_combination h)

end

/-- A pair written and read back. -/
theorem aff_of_regs {t : State} {rd : RegNum} {a : Aff} (hx : t.reg rd.toNat = a.px) (hy : t.reg (rd.toNat + 1) = a.py) :
    t.aff rd = a := by rw [State.aff, hx, hy]

/-- Settles O23: the pair written is the sum of the points. -/
theorem paddIsGroupSum : Obligations.PaddIsGroupSum := by
  intro p hp s rd ra rb A C hs hP hW hrd hra hrb hA hC hne
  subst hP
  obtain ⟨c, hc, hxlt, hylt, hsum⟩ := affAdd_isPoint hA hC hne
  obtain ⟨hx, hy, hkeep⟩ := completes_setAff hs hrd (hxlt.trans_le hW) (hylt.trans_le hW)
  refine ⟨_, exec_of_ruleOf_ok (i := .padd rd ra rb) (e := .pair rd c) (by simp [Instr.wf, hrd, hra, hrb]) nofun
    (by rw [ruleOf, hc]; rfl) rfl, ?_, hkeep⟩
  rwa [Effect.apply, aff_of_regs hx hy]

/-- Settles O25: lifting, doubling and lowering the point. -/
theorem pdblIsGroupDouble : Obligations.PdblIsGroupDouble := by
  intro p hp s rd ra A hs hP h2 hW hrd hra hA hy0
  subst hP
  obtain ⟨c, hc, hxlt, hylt, hsum⟩ :=
    lowerPt_isPoint (jdbl_isPoint (isPoint_liftPt hA) (double_ne_zero_of_Y h2 hA hy0))
  have hdbl : affDbl s.P (s.aff ra) = .ok c := hc
  obtain ⟨hx, hy, hkeep⟩ := completes_setAff hs hrd (hxlt.trans_le hW) (hylt.trans_le hW)
  refine ⟨_, exec_of_ruleOf_ok (i := .pdbl rd ra) (e := .pair rd c) (by simp [Instr.wf, hrd, hra]) nofun
    (by rw [ruleOf, hdbl]; rfl) rfl, ?_, hkeep⟩
  rwa [Effect.apply, aff_of_regs hx hy]

/-! ### The scalar loop on a point (R120, R122) -/

section
variable {p : Nat} [Fact p.Prime] {B : Nat} {A : (curveMod p B).Point} {base : Jac}

/-- The loop stands for the multiple `v` of `A`: no point yet for 0, else a triple. -/
def LoopIs (A : (curveMod p B).Point) (v : Nat) (acc : Option Jac) : Prop :=
  v = 0 ∧ acc = none ∨ ∃ j : Jac, acc = some j ∧ j.IsPoint (v • A)

/-- Doubling the triple of a multiple. -/
theorem jdbl_isPoint_nsmul {v : Nat} {j : Jac} (hj : j.IsPoint (v • A)) (hdbl : (2 * v) • A ≠ 0) :
    (jdbl p j).IsPoint ((2 * v) • A) := by
  have htwo : v • A + v • A = (2 * v) • A := by rw [← add_nsmul, two_mul]
  rw [← htwo]
  exact jdbl_isPoint hj (htwo ▸ hdbl)

/-- One bit of the loop where no unit operation is degenerate. -/
theorem loopIs_scalarBit (hbase : base.IsPoint A) {v : Nat} {acc : Option Jac} (hacc : LoopIs A v acc) (b : Bool)
    (hdbl : v ≠ 0 → (2 * v) • A ≠ 0) (hadd : v ≠ 0 → b = true → (2 * v) • A ≠ A ∧ (2 * v) • A ≠ -A) :
    LoopIs A (2 * v + b.toNat) (scalarBit p base acc b) := by
  obtain ⟨rfl, rfl⟩ | ⟨j, rfl, hj⟩ := hacc
  · cases b with
    | false => exact .inl ⟨rfl, rfl⟩
    | true => exact .inr ⟨base, rfl, by simpa using hbase⟩
  · have hv : v ≠ 0 := fun h => hj.ne_zero (by rw [h, zero_nsmul])
    have hd := jdbl_isPoint_nsmul hj (hdbl hv)
    cases b with
    | false => exact .inr ⟨jdbl p j, rfl, hd⟩
    | true =>
      obtain ⟨hne, hneg⟩ := hadd hv rfl
      refine .inr ⟨jadd p (jdbl p j) base, rfl, ?_⟩
      rw [Bool.toNat_true, succ_nsmul]
      exact jadd_isPoint hd hbase hne hneg

/-- A bit 1 whose doubled accumulator is the base point or its negative has a degenerate JAdd. -/
theorem degenerate_of_loopIs (hbase : base.IsPoint A) {v : Nat} {acc : Option Jac} (hacc : LoopIs A v acc) (h0 : v ≠ 0)
    (hdbl : (2 * v) • A ≠ 0) (hsame : (2 * v) • A = A ∨ (2 * v) • A = -A) :
    (stepOps p base acc true).any (ScalarOp.degenerate p) = true := by
  obtain ⟨h, -⟩ | ⟨j, rfl, hj⟩ := hacc
  · exact absurd h h0
  · have hcongr := ((jdbl_isPoint_nsmul hj hdbl).H_eq_zero_iff hbase).2 hsame
    simp [stepOps, (degenerate_add_iff (Fact.out : p.Prime).pos _ _).2 hcongr]

/-- Where no multiple up to the scalar is 0 the loop computes the scalar multiple. -/
theorem loopIs_scalarLoop (hbase : base.IsPoint A) (bits : List Bool)
    (h : ∀ j, 0 < j → j ≤ bitsValue bits → j • A ≠ 0) : LoopIs A (bitsValue bits) (scalarLoop p base bits) := by
  induction bits using List.reverseRecOn with
  | nil => exact .inl ⟨rfl, rfl⟩
  | append_singleton bits b ih =>
    rw [bitsValue_append_singleton] at h ⊢
    rw [scalarLoop_append]
    set v := bitsValue bits
    have ih := ih fun j h0 hj => h j h0 (by omega)
    refine loopIs_scalarBit hbase ih b (fun h0 => h _ (by omega) (by omega)) fun h0 hb => ⟨fun he => ?_, fun he => ?_⟩
    · refine h (2 * v - 1) (by omega) (by omega) ?_
      have hsplit : 2 * v = 2 * v - 1 + 1 := by omega
      rw [hsplit, succ_nsmul] at he
      exact add_eq_right.1 he
    · refine h (2 * v + 1) (by omega) (by rw [hb]; exact le_rfl) ?_
      rw [succ_nsmul, he, neg_add_cancel]

/-- A multiple that the loop stands for is what the multiplication answers. -/
theorem scalarMult_isPoint {a : Aff} {k : List Byte} {v : Nat} (hv : v ≠ 0)
    (h : LoopIs A v (scalarLoop p (liftPt a) (scanBits k))) :
    ∃ c, scalarMult p a k = .ok (some c) ∧ c.px < p ∧ c.py < p ∧ c.IsPoint (v • A) := by
  obtain ⟨h0, -⟩ | ⟨j, hacc, hj⟩ := h
  · exact absurd h0 hv
  · obtain ⟨c, hc, hxlt, hylt, hpoint⟩ := lowerPt_isPoint hj
    exact ⟨c, by rw [scalarMult_of_some hacc, hc]; rfl, hxlt, hylt, hpoint⟩

end

/-- SMUL completes with the multiple that its loop stands for. -/
theorem exec_smul_isPoint {s : State} {rd ra : RegNum} [Fact s.P.Prime] {A : (curveMod s.P s.params.B).Point} (hs : s.Sized)
    (hW : s.P ≤ 2 ^ s.cfg.W) (hrd : pairOk rd = true) (hra : pairOk ra = true) (hlen : s.len.toNat ≤ s.cfg.BUFSZ)
    (hpos : 0 < beInt s.bufString)
    (h : LoopIs A (beInt s.bufString) (scalarLoop s.P (liftPt (s.aff ra)) (scanBits s.bufString))) :
    ∃ t, exec (.smul rd ra) s = .next t ∧ (t.aff rd).IsPoint (beInt s.bufString • A) ∧
      CompletesKeeping s t [rd.toNat, rd.toNat + 1] { s.status.ended with inf := false } := by
  obtain ⟨c, hc, hxlt, hylt, hpoint⟩ := scalarMult_isPoint hpos.ne' h
  obtain ⟨hkeep, hsome, -⟩ := completes_multiple hs hrd (some c)
  obtain ⟨hx, hy⟩ := hsome c rfl (hxlt.trans_le hW) (hylt.trans_le hW)
  refine ⟨_, exec_of_ruleOf_ok (i := .smul rd ra) (by simp [Instr.wf, hrd, hra]) (fun _ => hlen)
    (by rw [ruleOf, hc]; rfl) rfl, ?_, hkeep⟩
  rwa [aff_of_regs hx hy]

/-- Settles O31: below the order of the point no multiple is 0, so the loop computes the multiple. -/
theorem smulIsScalarMultiple : Obligations.SmulIsScalarMultiple := by
  intro p hp s rd ra A hs hP hW hrd hra hlen hA hpos hord
  subst hP
  have hloop := loopIs_scalarLoop (isPoint_liftPt hA) (scanBits s.bufString) (by rwa [bitsValue_scanBits])
  rw [bitsValue_scanBits] at hloop
  exact exec_smul_isPoint hs hW hrd hra hlen hpos hloop

/-! ### Points of odd order (R122 item 2) -/

/-- Some bit 1 of `k` below its leading one stands after the digits of a number `m` with `2m ≡ 1` or `2m ≡ -1 (mod n)`. -/
def HasDegenerateBit (n k : Nat) : Prop :=
  ∃ j, k / 2 ^ j % 2 = 1 ∧ 0 < k / 2 ^ (j + 1) ∧
    (2 * (k / 2 ^ (j + 1)) % n = 1 ∨ 2 * (k / 2 ^ (j + 1)) % n = n - 1)

/-- The last bit, or a bit before it. -/
theorem hasDegenerateBit_append (n v : Nat) (b : Bool) :
    HasDegenerateBit n (2 * v + b.toNat) ↔
      HasDegenerateBit n v ∨ (b = true ∧ v ≠ 0 ∧ (2 * v % n = 1 ∨ 2 * v % n = n - 1)) := by
  have hb : b.toNat ≤ 1 := toNat_le_one b
  have hhalf : (2 * v + b.toNat) / 2 = v := by omega
  have hshift (j : Nat) : (2 * v + b.toNat) / 2 ^ (j + 1) = v / 2 ^ j := by
    rw [pow_succ', ← Nat.div_div_eq_div_mul, hhalf]
  constructor
  · rintro ⟨j, hbit, hpos, hdeg⟩
    cases j with
    | zero =>
      rw [hshift] at hpos hdeg
      rw [pow_zero, Nat.div_one] at hbit hpos hdeg
      refine .inr ⟨?_, by omega, hdeg⟩
      cases b with
      | true => rfl
      | false => rw [Bool.toNat_false] at hbit; omega
    | succ j =>
      rw [hshift] at hbit hpos hdeg
      exact .inl ⟨j, hbit, hpos, hdeg⟩
  · rintro (⟨j, hbit, hpos, hdeg⟩ | ⟨rfl, hv, hdeg⟩)
    · exact ⟨j + 1, by rwa [hshift], by rwa [hshift], by rwa [hshift]⟩
    · refine ⟨0, ?_, ?_, ?_⟩
      · rw [pow_zero, Nat.div_one, Bool.toNat_true]; omega
      · rw [hshift, pow_zero, Nat.div_one]; omega
      · rwa [hshift, pow_zero, Nat.div_one]

section
variable {p : Nat} [Fact p.Prime] {B : Nat} {A : (curveMod p B).Point}

/-- Multiples of a point of order above 1 that are the point or its negative. -/
theorem nsmul_eq_self_iff (hn : 1 < addOrderOf A) (m : Nat) : m • A = A ↔ m % addOrderOf A = 1 := by
  have h := nsmul_eq_nsmul_iff_modEq (x := A) (m := 1) (n := m)
  rw [one_nsmul, Nat.ModEq, Nat.mod_eq_of_lt hn] at h
  exact h

theorem nsmul_eq_neg_iff (hn : 1 < addOrderOf A) (m : Nat) : m • A = -A ↔ m % addOrderOf A = addOrderOf A - 1 := by
  rw [eq_neg_iff_add_eq_zero, ← succ_nsmul, ← addOrderOf_dvd_iff_nsmul_eq_zero, Nat.dvd_iff_mod_eq_zero, Nat.add_mod,
    Nat.mod_eq_of_lt hn]
  have hlt := Nat.mod_lt m (show 0 < addOrderOf A by omega)
  obtain heq | hne := eq_or_ne (m % addOrderOf A) (addOrderOf A - 1)
  · refine iff_of_true ?_ heq
    rw [heq, Nat.sub_add_cancel (by omega), Nat.mod_self]
  · refine iff_of_false ?_ hne
    rw [Nat.mod_eq_of_lt (by omega)]
    omega

/-- A multiple of odd order doubles to 0 only if it is 0. -/
theorem two_mul_nsmul_ne_zero (hodd : addOrderOf A % 2 = 1) {v : Nat} (h : v • A ≠ 0) : (2 * v) • A ≠ 0 := by
  rw [Ne, ← addOrderOf_dvd_iff_nsmul_eq_zero] at h ⊢
  have hcop : Nat.Coprime (addOrderOf A) 2 := Nat.coprime_two_right.2 (Nat.odd_iff.2 hodd)
  exact fun hd => h (hcop.dvd_of_dvd_mul_left hd)

/-- There is no affine point of odd order for `p = 2`: each is its own negative. -/
theorem ne_two_of_odd_order {a : Aff} (ha : a.IsPoint A) (hodd : addOrderOf A % 2 = 1) : p ≠ 2 := by
  obtain ⟨hA, rfl⟩ := ha
  rintro rfl
  have hone : (1 : Nat) • Point.some (W' := curveMod 2 B) (a.px : ZMod 2) (a.py : ZMod 2) hA ≠ 0 := by
    rw [one_nsmul]
    exact Point.some_ne_zero hA
  have hdbl := two_mul_nsmul_ne_zero hodd hone
  rw [mul_one, two_nsmul, point_double_ne_zero_iff] at hdbl
  exact hdbl (CharTwo.neg_eq (a.py : ZMod 2)).symm

/-- On a point of odd order the loop runs into a degenerate operation exactly at a degenerate bit, else it computes the multiple. -/
theorem scalarLoop_of_odd_order {a : Aff} (ha : a.IsPoint A) (hodd : addOrderOf A % 2 = 1) (bits : List Bool) :
    (HasDegenerateBit (addOrderOf A) (bitsValue bits) → AtInfinity p (scalarLoop p (liftPt a) bits)) ∧
      (¬ HasDegenerateBit (addOrderOf A) (bitsValue bits) →
        LoopIs A (bitsValue bits) (scalarLoop p (liftPt a) bits)) := by
  have hprime : p.Prime := Fact.out
  have h2 := ne_two_of_odd_order ha hodd
  have hlift := isPoint_liftPt ha
  have hn : 1 < addOrderOf A := by
    have hne : addOrderOf A ≠ 1 := fun h => hlift.ne_zero (AddMonoid.addOrderOf_eq_one_iff.1 h)
    omega
  have hbase : (liftPt a).Z % p ≠ 0 := mt (cast_eq_zero_iff p _).2 hlift.1
  induction bits using List.reverseRecOn with
  | nil =>
    refine ⟨fun ⟨j, _, hpos, _⟩ => ?_, fun _ => .inl ⟨rfl, rfl⟩⟩
    rw [bitsValue_nil, Nat.zero_div] at hpos
    omega
  | append_singleton bits b ih =>
    obtain ⟨ihbad, ihgood⟩ := ih
    rw [bitsValue_append_singleton, scalarLoop_append, hasDegenerateBit_append]
    set v := bitsValue bits
    have hdbl (hacc : LoopIs A v (scalarLoop p (liftPt a) bits)) (h0 : v ≠ 0) : (2 * v) • A ≠ 0 := by
      obtain ⟨h, -⟩ | ⟨j, -, hj⟩ := hacc
      · exact absurd h h0
      · exact two_mul_nsmul_ne_zero hodd hj.ne_zero
    refine ⟨fun hbad => ?_, fun hgood => ?_⟩
    · rw [atInfinity_scalarBit hprime h2 hbase]
      by_cases hold : HasDegenerateBit (addOrderOf A) v
      · exact .inl (ihbad hold)
      · obtain ⟨rfl, h0, hdeg⟩ := hbad.resolve_left hold
        have hacc := ihgood hold
        exact .inr (degenerate_of_loopIs hlift hacc h0 (hdbl hacc h0)
          (hdeg.imp (nsmul_eq_self_iff hn _).2 (nsmul_eq_neg_iff hn _).2))
    · rw [not_or] at hgood
      obtain ⟨hold, hlast⟩ := hgood
      have hacc := ihgood hold
      refine loopIs_scalarBit hlift hacc b (hdbl hacc) fun h0 hb => ⟨fun he => ?_, fun he => ?_⟩
      · exact hlast ⟨hb, h0, .inl ((nsmul_eq_self_iff hn _).1 he)⟩
      · exact hlast ⟨hb, h0, .inr ((nsmul_eq_neg_iff hn _).1 he)⟩

end

/-- Settles O32: the loop ends at infinity, and the lowering faults, or it computes the multiple. -/
theorem smulFaultsExactlyAtDegeneratePrefix : Obligations.SmulFaultsExactlyAtDegeneratePrefix := by
  intro p hp s rd ra A hs hP hW hrd hra hlen hA hodd hpos
  subst hP
  obtain ⟨hbad, hgood⟩ := scalarLoop_of_odd_order hA hodd (scanBits s.bufString)
  rw [bitsValue_scanBits] at hbad hgood
  refine ⟨fun h => ?_, fun h => exec_smul_isPoint hs hW hrd hra hlen hpos (hgood h)⟩
  exact faultsWith_of_ruleOf_error (i := .smul rd ra) (by simp [Instr.wf, hrd, hra]) (fun _ => hlen)
    (by rw [ruleOf, scalarMult_error hp.out.one_lt (hbad h)]; rfl)

end Sys2Proof.Machine
end
